-- ==== Sys2Proof/Word.lean ====
section
/-! DEFINITION. The widths of 00_scope.md rule R9: u8, u16, u32 as bit vectors. -/
namespace Sys2Proof

/-- `u8`: a checksum byte, a buffer byte, a wire byte. -/
abbrev Byte := BitVec 8

/-- `u16`: the inbound length field and the frame's type code. -/
abbrev Half := BitVec 16

/-- `u32`: a CSR, a command word, a host address. -/
abbrev Word := BitVec 32

/-- The receive-event word of 30_encoding.md rule R74 is 10 bits wide. -/
abbrev EventWord := BitVec 10

end Sys2Proof
end

