-- ==== Sys2Proof/Config.lean ====
section
/-! DEFINITION. What an implementation fixes (00_scope.md rule R6) and the values the spec leaves open
(93_implementation_defined.md U4 and U5). -/
namespace Sys2Proof

/-- The parameters "a model takes … as arguments" (00_scope.md rule R6, D23). They stand in the state, which no step
changes them in, so that a statement about every state is a statement about every parameter value
(log 1, DESIGN CHOICE, safe). -/
structure Params where
  /-- First byte of an inbound message. -/
  rxMarker : Byte
  /-- First marker byte of an encoded frame. -/
  sync1 : Byte
  /-- Second marker byte of an encoded frame. -/
  sync2 : Byte
  /-- Exclusive upper bound on an inbound length N. -/
  maxPayload : Nat
  /-- Size of TX_BUF in bytes. -/
  txBufBytes : Nat
deriving DecidableEq, Repr

/-- The defaults of rule R6, "the value this spec assumes for POINTONE-CORE". -/
def Params.default : Params :=
  { rxMarker := 0xD3, sync1 := 0xB5, sync2 := 0x62, maxPayload := 204800, txBufBytes := 65535 }

/-- The value of TX_BUF byte `index` that nothing has written since the reset numbered `epoch`: unspecified, and "fixed
once drawn" (93 U5, D25). A free value: no body, so no proof can rest on what it is (log 8, safe). -/
opaque Config.unwrittenTx (epoch index : Nat) : Byte

/-- The byte a host read of RX_BUF[index] returns when index ≥ RX_COUNT: unspecified, drawn anew for each read, of
which `draw` is the number (93 U4, D25). A free value (log 9, safe). -/
opaque Config.unspecifiedRx (draw index : Nat) : Byte

end Sys2Proof
end

