-- ==== Sys2Proof/Syntax.lean ====
section
/-! DEFINITION. The commands and receive events (one constructor per row of spec/opcode_table.json), the host accesses,
and who acts in a step. -/
namespace Sys2Proof

/-- The SRC bit of BFX_EXTRACT and CK_RANGE (30_encoding.md rule R73): which buffer the command reads. -/
inductive Src where
  /-- SRC = 0: RX_BUF, of length RX_COUNT. -/
  | rx
  /-- SRC = 1: TX_BUF, of length TX_LEN. -/
  | tx
deriving DecidableEq, Repr

/-- The eight commands of format CMD32 (30_encoding.md rule R72) and the four receive events of format RXEVT10
(rule R74). The DATA bits of EOS, ERR and TIMEOUT are ignored by the block and are no operand (log 14). -/
inductive Instr where
  | nop
  | bfxExtract (src : Src)
  | ckClear
  | ckByte (imm8 : Byte)
  | ckRange (src : Src)
  | fencBuild
  | syncAck (stop : Bool)
  | syncRestart
  | rxByte (data : Byte)
  | rxEos
  | rxErr
  | rxTimeout
deriving DecidableEq, Repr

/-- Whether the instruction is a receive event (format RXEVT10) rather than a command (format CMD32). -/
def Instr.isEvent : Instr → Bool
  | .nop => false
  | .bfxExtract _ => false
  | .ckClear => false
  | .ckByte _ => false
  | .ckRange _ => false
  | .fencBuild => false
  | .syncAck _ => false
  | .syncRestart => false
  | .rxByte _ => true
  | .rxEos => true
  | .rxErr => true
  | .rxTimeout => true

/-- A host access on the bus (20_memory.md rules R53 to R57): `bits` is the access width in bits, any width at all.
An 8-bit write carries its byte in the low bits of `data` (log 13). -/
inductive HostAccess where
  | rd (bits : Nat) (addr : Word)
  | wr (bits : Nat) (addr : Word) (data : Word)
deriving DecidableEq, Repr

/-- Who acts in a step (20_memory.md rule R63, 70_reset_and_hazards.md rule R190): the host's next access, the head of
RXIN, or the platform's reset. -/
inductive Turn where
  | host
  | receive
  | reset
deriving DecidableEq, Repr

end Sys2Proof
end

