-- ==== Sys2Proof/WellFormed.lean ====
section
/-! DEFINITION. What is well formed: an instruction's operands, and the parameters' legal ranges (00_scope.md rule R6). -/
namespace Sys2Proof

/-- Every instruction is well formed: the types of its operands admit exactly the values its encoding holds (SRC and
STOP one bit, IMM8 and DATA eight bits; 30_encoding.md rules R73 and R74), so no check is left to fail. -/
def Instr.WellFormed : Instr → Bool
  | .nop => true
  | .bfxExtract _ => true
  | .ckClear => true
  | .ckByte _ => true
  | .ckRange _ => true
  | .fencBuild => true
  | .syncAck _ => true
  | .syncRestart => true
  | .rxByte _ => true
  | .rxEos => true
  | .rxErr => true
  | .rxTimeout => true

/-- The legal ranges of rule R6: MAX_PAYLOAD in 1..2^32−1 and TX_BUF_BYTES in 0..65535. The three marker bytes have
no illegal value. -/
abbrev Params.Legal (p : Params) : Prop :=
  1 ≤ p.maxPayload ∧ p.maxPayload ≤ 4294967295 ∧ p.txBufBytes ≤ 65535

end Sys2Proof
end

