-- ==== Sys2Proof/Decode.lean ====
section
/-! DEFINITION. Decoding of command words and receive-event words (30_encoding.md rules R70 to R78), and the encoder. -/
namespace Sys2Proof

/-- Why a command word is illegal: the three cases of 30_encoding.md rule R77. Each gives CMD_ERR = ILLEGAL_COMMAND. -/
inductive IllegalWord where
  /-- OP is 0x08 to 0xFF. -/
  | unknownOpcode
  /-- A reserved bit, [15:10] or [31:24], is 1. -/
  | reservedBit
  /-- SRC, STOP or IMM8 is not 0 though the opcode does not use it. -/
  | unusedField
deriving DecidableEq, Repr

/-- OP, bits [7:0] of the command word (rule R71). -/
def cmdOp (w : Word) : Byte := w.extractLsb' 0 8

/-- SRC, bit [8] (rule R71). -/
def cmdSrc (w : Word) : Src := if w.getLsbD 8 then .tx else .rx

/-- STOP, bit [9] (rule R71). -/
def cmdStop (w : Word) : Bool := w.getLsbD 9

/-- IMM8, bits [23:16] (rule R71). -/
def cmdImm8 (w : Word) : Byte := w.extractLsb' 16 8

/-- The reserved bits [15:10] and [31:24] of the command word (rule R71). -/
def cmdReservedMask : Word := 0xFF00FC00

/-- Which case of rule R77 an unmatched word falls under. -/
def illegalReason (w : Word) : IllegalWord :=
  if 8 ≤ (cmdOp w).toNat then .unknownOpcode
  else if w &&& cmdReservedMask ≠ 0 then .reservedBit
  else .unusedField

/-- `decode(w)` of rule R72: the first row whose `w AND mask = match`; otherwise ILLEGAL, by the case of rule R77. -/
def decodeCmd (w : Word) : Except IllegalWord Instr :=
  if w &&& 0xFFFFFFFF = 0x00000000 then .ok .nop
  else if w &&& 0xFFFFFEFF = 0x00000001 then .ok (.bfxExtract (cmdSrc w))
  else if w &&& 0xFFFFFFFF = 0x00000002 then .ok .ckClear
  else if w &&& 0xFF00FFFF = 0x00000003 then .ok (.ckByte (cmdImm8 w))
  else if w &&& 0xFFFFFEFF = 0x00000004 then .ok (.ckRange (cmdSrc w))
  else if w &&& 0xFFFFFFFF = 0x00000005 then .ok .fencBuild
  else if w &&& 0xFFFFFDFF = 0x00000006 then .ok (.syncAck (cmdStop w))
  else if w &&& 0xFFFFFFFF = 0x00000007 then .ok .syncRestart
  else .error (illegalReason w)

/-- Decoding of a receive-event word (rule R74): [9:8] is KIND, [7:0] is DATA. Every word is an event. -/
def decodeEvent (w : EventWord) : Instr :=
  if w &&& 0x300 = 0x000 then .rxByte (w.extractLsb' 0 8)
  else if w &&& 0x300 = 0x100 then .rxEos
  else if w &&& 0x300 = 0x200 then .rxErr
  else .rxTimeout

/-- SRC as a bit (rule R73). -/
def srcBit : Src → BitVec 1
  | .rx => 0
  | .tx => 1

/-- A command word laid out by rule R71, from bit 31 down: reserved, IMM8, reserved, STOP, SRC, OP. -/
def cmdWord (op : Byte) (src : BitVec 1) (stop : BitVec 1) (imm8 : Byte) : Word :=
  (0 : BitVec 8) ++ imm8 ++ (0 : BitVec 6) ++ stop ++ src ++ op

/-- An event word laid out by rule R74: KIND, then DATA. -/
def eventWord (kind : BitVec 2) (data : Byte) : EventWord := kind ++ data

/-- An encoded instruction: a command word, or a receive-event word (rule R70). -/
inductive Encoded where
  | cmd32 (w : Word)
  | rxevt10 (w : EventWord)
deriving DecidableEq, Repr

/-- The word of an instruction, from the bit patterns of rules R72 and R74. DATA of EOS, ERR and TIMEOUT is ignored by
the block; the encoder writes 0 there (log 14). -/
def encode : Instr → Encoded
  | .nop => .cmd32 (cmdWord 0x00 0 0 0)
  | .bfxExtract src => .cmd32 (cmdWord 0x01 (srcBit src) 0 0)
  | .ckClear => .cmd32 (cmdWord 0x02 0 0 0)
  | .ckByte imm8 => .cmd32 (cmdWord 0x03 0 0 imm8)
  | .ckRange src => .cmd32 (cmdWord 0x04 (srcBit src) 0 0)
  | .fencBuild => .cmd32 (cmdWord 0x05 0 0 0)
  | .syncAck stop => .cmd32 (cmdWord 0x06 0 (BitVec.ofBool stop) 0)
  | .syncRestart => .cmd32 (cmdWord 0x07 0 0 0)
  | .rxByte data => .rxevt10 (eventWord 0 data)
  | .rxEos => .rxevt10 (eventWord 1 0)
  | .rxErr => .rxevt10 (eventWord 2 0)
  | .rxTimeout => .rxevt10 (eventWord 3 0)

/-- The decoder of an encoded word: a CMD write is always one command, an event always one event (rule R70). -/
def decode : Encoded → Except IllegalWord Instr
  | .cmd32 w => decodeCmd w
  | .rxevt10 w => .ok (decodeEvent w)

/-- A command word as a Nat, or none where it does not fit 32 bits or is illegal. -/
def decodeCmdNat (w : Nat) : Option Instr :=
  if w < 4294967296 then
    match decodeCmd (BitVec.ofNat 32 w) with
    | .ok i => some i
    | .error _ => none
  else none

/-- An event word as a Nat, or none where it does not fit 10 bits. -/
def decodeEventNat (w : Nat) : Option Instr :=
  if w < 1024 then some (decodeEvent (BitVec.ofNat 10 w)) else none

/-- The instruction the decoder reads from the bits `w` of a row of spec/opcode_table.json. A row of format RXEVT10 has
10 bits, 16 in whole bytes; a row of format CMD32 has 32 (log 15). -/
def decodeTableWord (nbits w : Nat) : Option Instr :=
  if nbits ≤ 16 then decodeEventNat w else decodeCmdNat w

end Sys2Proof
end

