-- ==== Sys2Proof/Machine/State.lean ====
section
/-! DEFINITION. The architectural state of 10_state.md (rules R22 to R48) as plain data, the model's own fields beside
it, why a step stops, and the state right after reset (rules R46 and R190). -/
namespace Sys2Proof.Machine

/-- Why a step stops with a fault. -/
inductive Fault where
  /-- Raised by SYNC's store of a received byte when RX_COUNT ≥ RX_BUF_BYTES in a read state: an address the storage does
  not have. 43_stream_sync.md rule R123 says "k < RX_BUF_BYTES always holds", so no state that meets the spec's
  invariants raises it. Safe (log 10). -/
  | rxBufOverrun
deriving DecidableEq, Repr

/-- Why a step is refused. -/
inductive Refusal where
  /-- Raised by an arm of exec whose instruction has no meaning yet; no arm does. Safe. -/
  | notModelled (mnemonic : String)
deriving DecidableEq, Repr

/-- STATUS.CMD_ERR (rule R25, 60_exceptions.md rule R162). -/
inductive CmdErr where
  | ok
  | outOfRange
  | illegalCommand
  | stateError
deriving DecidableEq, Repr

/-- SYNC_STATE (rule R37). -/
inductive SyncState where
  | awaitingMarker
  | readingLength
  | readingBody
  | dispatch
  | failed
  | stopped
deriving DecidableEq, Repr

/-- The three read states (00_scope.md rule R17), the values of STATUS.FAIL_STATE (rule R25). -/
inductive ReadState where
  | awaitingMarker
  | readingLength
  | readingBody
deriving DecidableEq, Repr

/-- STATUS.FAIL_CLASS (rule R25). -/
inductive FailClass where
  | none
  | transportError
  | protocolViolation
  | resourceLimitExceeded
deriving DecidableEq, Repr

/-- STATUS.FAIL_EVENT (rule R25). -/
inductive FailEvent where
  | none
  | value
  | eos
  | err
  | timeout
deriving DecidableEq, Repr

/-- An entry of EVOUT (rule R43): the one kind is `conn_close`. -/
inductive OutEvent where
  | connClose
deriving DecidableEq, Repr

/-- What the bus answers a host access (20_memory.md rules R53, R54, R57). -/
inductive BusResponse where
  /-- The value of a CSR read. -/
  | word (v : Word)
  /-- The value of a buffer read. -/
  | byte (v : Byte)
  /-- A write taken, an ignored write to an RO CSR included. -/
  | done
  /-- The error response of rule R57. -/
  | busError
deriving DecidableEq, Repr

/-- A byte buffer: (index, byte) pairs, indices strictly rising; an index not listed holds no byte written since reset. -/
abbrev Memory := List Host.Cell

/-- The state: rule R48's tuple, then the model's own fields (logs 1, 2, 7, 8, 9). Reserved CSR bits are hardwired
(rule R22), so only the writable bits of CTRL, BFX_LEN, FENC_TYPE and RX_LEN are stored. -/
structure State where
  /-- CTRL[1:0] (rule R24): bit 0 STRICT, bit 1 LEGACY_LEN8. -/
  ctrl : BitVec 2
  /-- BFX_OFF (rule R26). -/
  bfxOff : Word
  /-- BFX_LEN[5:0] (rule R27). -/
  bfxLen : BitVec 6
  /-- BFX_RES (rule R28). -/
  bfxRes : Word
  /-- CK_START (rule R29). -/
  ckStart : Word
  /-- CK_END (rule R30). -/
  ckEnd : Word
  /-- CK_A (rule R31). -/
  ckA : Byte
  /-- CK_B (rule R31). -/
  ckB : Byte
  /-- FENC_TYPE[15:0] (rule R32). -/
  fencType : Half
  /-- TX_LEN (rule R33). -/
  txLen : Word
  /-- RX_LEN[15:0] (rule R34). -/
  rxLen : Half
  /-- RX_COUNT (rule R35). -/
  rxCount : Word
  /-- RXCK_A (rule R36). -/
  rxckA : Byte
  /-- RXCK_B (rule R36). -/
  rxckB : Byte
  /-- STATUS.CMD_ERR (rule R25). -/
  cmdErr : CmdErr
  /-- SYNC_STATE (rule R37). -/
  syncState : SyncState
  /-- STATUS.FAIL_CLASS (rule R25). -/
  failClass : FailClass
  /-- STATUS.FAIL_STATE (rule R25). -/
  failState : ReadState
  /-- STATUS.FAIL_EVENT (rule R25). -/
  failEvent : FailEvent
  /-- STATUS.CLOSED (rule R25). -/
  closed : Bool
  /-- RX_BUF (rule R40). -/
  rxBuf : Memory
  /-- TX_BUF (rule R41). -/
  txBuf : Memory
  /-- TXOUT (rule R42), oldest byte first. -/
  txout : List Byte
  /-- EVOUT (rule R43), oldest event first. -/
  evout : List OutEvent
  /-- MODEL: the parameters of 00_scope.md rule R6 (log 1). -/
  params : Params
  /-- MODEL: the host accesses still to come, in the host's order (log 2). -/
  hostq : List HostAccess
  /-- MODEL: RXIN, the receive-event words still to come (rule R44, log 2). -/
  rxin : List EventWord
  /-- MODEL: who acts in each coming step (20_memory.md rule R63, log 2). -/
  turns : List Turn
  /-- MODEL: the bus responses given, oldest first (log 7). -/
  responses : List BusResponse
  /-- MODEL: which reset the unwritten bytes of TX_BUF date from (U5, log 8). -/
  txEpoch : Nat
  /-- MODEL: how many unspecified RX_BUF bytes the host has been given (U4, log 9). -/
  rxDraws : Nat
deriving DecidableEq, Repr

/-- The machine right after power-on reset (rules R46 and R190), with the default parameters of R6 and nothing pending:
no host access, no receive event, no turn (log 3). Both buffers' contents are unspecified: no byte is listed. -/
def State.reset : State :=
  { ctrl := 0, bfxOff := 0, bfxLen := 0, bfxRes := 0, ckStart := 0, ckEnd := 0, ckA := 0, ckB := 0,
    fencType := 0, txLen := 0, rxLen := 0, rxCount := 0, rxckA := 0, rxckB := 0,
    cmdErr := .ok, syncState := .awaitingMarker, failClass := .none, failState := .awaitingMarker,
    failEvent := .none, closed := false, rxBuf := [], txBuf := [], txout := [], evout := [],
    params := Params.default, hostq := [], rxin := [], turns := [], responses := [],
    txEpoch := 0, rxDraws := 0 }

end Sys2Proof.Machine
end

