-- ==== Sys2Proof/Machine/Ops.lean ====
section
/-! DEFINITION. The named operations over buffers, registers and outputs: the primitives of 00_scope.md rules R11 to R15,
the running checksum, and the block's exception entry and return (`fail`, `enter_stopped`, the restart). -/
namespace Sys2Proof.Machine

/-! ### Buffers -/

/-- RX_BUF_BYTES, "derived, not free": 6 + min(MAX_PAYLOAD − 1, 65535) (00_scope.md rule R6, D24). -/
def rxBufBytes (p : Params) : Nat := 6 + min (p.maxPayload - 1) 65535

/-- What an unlisted index of a buffer holds: no byte written since reset (10_state.md rules R40 and R41, D25). -/
def Memory.unlisted (_ : Nat) : Option Byte := none

/-- The byte written at index `i`, if any has been since reset. -/
def Memory.read : Memory → Nat → Option Byte
  | [], i => Memory.unlisted i
  | (j, b) :: m, i => if i = j then some b else Memory.read m i

/-- `MemWrite(buf, i, 1, v)` (00_scope.md rule R12), keeping the indices strictly rising. -/
def Memory.write : Memory → Nat → Byte → Memory
  | [], i, v => [(i, v)]
  | (j, b) :: m, i, v =>
    if i < j then (i, v) :: (j, b) :: m
    else if i = j then (i, v) :: m
    else (j, b) :: Memory.write m i v

/-- The canonical form: indices strictly rising, and no entry that says what an unlisted index says already. -/
abbrev Memory.wf (m : Memory) : Prop :=
  (m.map Prod.fst).Pairwise (· < ·) ∧ ∀ c ∈ m, some c.2 ≠ Memory.unlisted c.1

/-- `MemRead(TX_BUF, i, 1)`: the byte the host last wrote, or the unspecified value of U5, fixed until it is written. -/
def State.txByteAt (s : State) (i : Nat) : Byte :=
  (Memory.read s.txBuf i).getD (Config.unwrittenTx s.txEpoch i)

/-- `MemRead(RX_BUF, i, 1)` inside the block: the byte SYNC last stored. Every rule reads only below RX_COUNT, where
one is stored; anywhere else the value is free (log 11). -/
def State.rxByteAt (s : State) (i : Nat) : Byte :=
  (Memory.read s.rxBuf i).getD (Config.unspecifiedRx s.rxDraws i)

/-- A host write of `v` to TX_BUF[i] (20_memory.md rule R54). -/
def State.writeTx (s : State) (i : Nat) (v : Byte) : State :=
  { s with txBuf := Memory.write s.txBuf i v }

/-- 43_stream_sync.md rule R123: the byte goes to RX_BUF[k] with k = RX_COUNT, and RX_COUNT becomes k + 1. -/
def State.storeRx (s : State) (v : Byte) : State :=
  { s with rxBuf := Memory.write s.rxBuf s.rxCount.toNat v, rxCount := s.rxCount + 1 }

/-! ### The running checksum -/

/-- `ck_step((a, b), x)` (00_scope.md rule R14); both additions wrap modulo 256. -/
def ckStep (c : Byte × Byte) (x : Byte) : Byte × Byte := (c.1 + x, c.2 + (c.1 + x))

/-- `cksum(s)`: `ck_step` folded over the bytes from (0, 0) (rule R14). -/
def cksum (bytes : List Byte) : Byte × Byte := bytes.foldl ckStep (0, 0)

/-- The bytes `buf[first..last)`, none when first ≥ last (00_scope.md rule R9). -/
def sliceBytes (rd : Nat → Byte) (first last : Nat) : List Byte :=
  (List.range' first (last - first)).map rd

/-- `rx_ck(b)` (43_stream_sync.md rule R126). -/
def State.rxCk (s : State) (b : Byte) : State :=
  { s with rxckA := (ckStep (s.rxckA, s.rxckB) b).1, rxckB := (ckStep (s.rxckA, s.rxckB) b).2 }

/-- The host accumulator written whole (10_state.md rule R31). -/
def State.setCk (s : State) (c : Byte × Byte) : State := { s with ckA := c.1, ckB := c.2 }

/-! ### Bit extraction -/

/-- `BufBits(buf, n, p)` (00_scope.md rules R8 and R12): bit 7 − (p mod 8) of byte p div 8. -/
def bufBit (rd : Nat → Byte) (p : Nat) : Bool := (rd (p / 8)).getLsbD (7 - p % 8)

/-- The loop of 40_bitfield_extractor.md rule R90 from position `p`, for `count` positions, with `v` so far. -/
def extractLoop (rd : Nat → Byte) (v : Word) (p : Nat) : Nat → Word
  | 0 => v
  | count + 1 => extractLoop rd ((v <<< 1) ||| BitVec.zeroExtend 32 (BitVec.ofBool (bufBit rd p))) (p + 1) count

/-- `extract(buf, n, O, L)` (00_scope.md rule R15). -/
def extractField (rd : Nat → Byte) (offset len : Nat) : Word := extractLoop rd 0 offset len

/-! ### Outputs -/

/-- `Emit(s)` (rule R12): the bytes are appended to TXOUT as one action. -/
def State.emit (s : State) (bytes : List Byte) : State := { s with txout := s.txout ++ bytes }

/-- `Close()` (rule R12): one `conn_close` is appended to EVOUT. -/
def State.close (s : State) : State := { s with evout := s.evout ++ [.connClose] }

/-- The bus answers the access being performed. -/
def State.respond (s : State) (r : BusResponse) : State := { s with responses := s.responses ++ [r] }

/-- One more unspecified byte of RX_BUF has been given to the host (U4, log 9): the model's own counter advances. -/
def State.drawRx (s : State) : State := { s with rxDraws := s.rxDraws + 1 }

/-! ### Command errors -/

/-- `cmd_error(code)`, and the success report `STATUS.CMD_ERR <- OK`: CMD_ERR and nothing else
(60_exceptions.md rule R162, 44_command_control.md rule R150). -/
def State.setCmdErr (s : State) (e : CmdErr) : State := { s with cmdErr := e }

/-! ### Receive events -/

/-- The read state SYNC is in, if it is in one (00_scope.md rule R17). -/
def SyncState.readState? : SyncState → Option ReadState
  | .awaitingMarker => some .awaitingMarker
  | .readingLength => some .readingLength
  | .readingBody => some .readingBody
  | .dispatch => none
  | .failed => none
  | .stopped => none

/-- The head event of RXIN is consumed (43_stream_sync.md rule R121). -/
def State.consumeEvent (s : State) : State := { s with rxin := s.rxin.tail }

/-! ### Entering and leaving a terminal state (the block's exceptions) -/

/-- `fail(class, st, ev)` (60_exceptions.md rule R166): the entry into Failed, with exactly one `conn_close`. -/
def State.fail (s : State) (cls : FailClass) (st : ReadState) (ev : FailEvent) : State :=
  { s with syncState := .failed, failClass := cls, failState := st, failEvent := ev, closed := true }.close

/-- `enter_stopped()` (43_stream_sync.md rule R131). -/
def State.enterStopped (s : State) : State := { s with syncState := .stopped, closed := true }.close

/-- SYNC goes back to AwaitingMarker for a new message: RX_COUNT, RX_LEN and RXCK are cleared
(43_stream_sync.md rules R130 and R133). RX_BUF's bytes are not erased. -/
def State.awaitMessage (s : State) : State :=
  { s with syncState := .awaitingMarker, rxCount := 0, rxLen := 0, rxckA := 0, rxckB := 0 }

/-- The failure record is cleared for a new session (43_stream_sync.md rule R133). -/
def State.clearFailure (s : State) : State :=
  { s with failClass := .none, failState := .awaitingMarker, failEvent := .none, closed := false }

/-- The return from a terminal state, the new session of SYNC_RESTART (60_exceptions.md rule R168). -/
def State.restartSession (s : State) : State := s.awaitMessage.clearFailure

/-! ### Reset -/

/-- The platform asserts reset (70_reset_and_hazards.md rule R190): every CSR field, SYNC_STATE, FAIL_*, CLOSED and both
accumulators take the values of 10_state.md rule R46, both buffers' contents are unspecified anew, TXOUT and EVOUT
keep their entries, no `conn_close` is emitted, and what the environment supplies is untouched (log 12). -/
def State.assertReset (s : State) : State :=
  { State.reset with
    txout := s.txout, evout := s.evout, params := s.params, hostq := s.hostq, rxin := s.rxin, turns := s.turns,
    responses := s.responses, txEpoch := s.txEpoch + 1, rxDraws := s.rxDraws }

end Sys2Proof.Machine
end

