-- ==== Sys2Proof/Machine/Operands.lean ====
section
/-! DEFINITION. Where a command's operands come from (30_encoding.md rule R73): the buffer SRC selects, the CSR operands,
and the range checks over them. -/
namespace Sys2Proof.Machine

/-- The length n of the selected buffer: RX_COUNT or TX_LEN (30_encoding.md rule R73), as a Nat (00_scope.md rule R9). -/
def srcLen (src : Src) (s : State) : Nat :=
  match src with
  | .rx => s.rxCount.toNat
  | .tx => s.txLen.toNat

/-- Byte i of the selected buffer. -/
def srcByte (src : Src) (s : State) (i : Nat) : Byte :=
  match src with
  | .rx => s.rxByteAt i
  | .tx => s.txByteAt i

/-- TX_LEN > TX_BUF_BYTES (10_state.md rule R33). -/
def txLenTooLong (s : State) : Bool := decide (s.params.txBufBytes < s.txLen.toNat)

/-- SRC = 1 and TX_LEN > TX_BUF_BYTES (rule R91 (a), rule R104). -/
def srcTooLong (src : Src) (s : State) : Bool :=
  match src with
  | .rx => false
  | .tx => txLenTooLong s

/-- O, the bit offset of BFX_EXTRACT (10_state.md rule R26). -/
def bfxOffset (s : State) : Nat := s.bfxOff.toNat

/-- L, the bit length of BFX_EXTRACT (10_state.md rule R27). -/
def bfxLength (s : State) : Nat := s.bfxLen.toNat

/-- The range check of BFX_EXTRACT fails (40_bitfield_extractor.md rule R91), all of it in Nat. -/
def bfxOutOfRange (src : Src) (s : State) : Bool :=
  srcTooLong src s || decide (32 < bfxLength s) || decide (8 * srcLen src s < bfxOffset s + bfxLength s)

/-- The range check of CK_RANGE fails (41_checksum.md rule R104), in Nat. -/
def ckRangeOutOfRange (src : Src) (s : State) : Bool :=
  srcTooLong src s || (decide (s.ckStart.toNat < s.ckEnd.toNat) && decide (srcLen src s < s.ckEnd.toNat))

/-- The bytes `buf[CK_START..CK_END)` (41_checksum.md rule R104). -/
def ckRangeBytes (src : Src) (s : State) : List Byte :=
  sliceBytes (srcByte src s) s.ckStart.toNat s.ckEnd.toNat

/-- FENC_TYPE[15:8], the type-code byte sent first (10_state.md rule R32). -/
def fencType0 (s : State) : Byte := s.fencType.extractLsb' 8 8

/-- FENC_TYPE[7:0], the type-code byte sent second (10_state.md rule R32). -/
def fencType1 (s : State) : Byte := s.fencType.extractLsb' 0 8

/-- The payload TX_BUF[0..TX_LEN) of a frame (42_frame_encoder.md rule R110). -/
def fencPayload (s : State) : List Byte := sliceBytes s.txByteAt 0 s.txLen.toNat

/-- CTRL.STRICT (10_state.md rule R24). -/
def ctrlStrict (s : State) : Bool := s.ctrl.getLsbD 0

/-- CTRL.LEGACY_LEN8 (10_state.md rule R24). -/
def ctrlLegacyLen8 (s : State) : Bool := s.ctrl.getLsbD 1

end Sys2Proof.Machine
end

