-- ==== Sys2Proof/Machine/Flags.lean ====
section
/-! DEFINITION. The STATUS register and its fields (10_state.md rule R25), the output levels (60_exceptions.md rule R171)
and the receive interface's ready (20_memory.md rule R58). -/
namespace Sys2Proof.Machine

/-- STATUS[3:0]. -/
def cmdErrCode : CmdErr → BitVec 4
  | .ok => 0
  | .outOfRange => 1
  | .illegalCommand => 2
  | .stateError => 3

/-- STATUS[6:4] (D36). -/
def syncStateCode : SyncState → BitVec 3
  | .awaitingMarker => 0
  | .readingLength => 1
  | .readingBody => 2
  | .dispatch => 3
  | .failed => 4
  | .stopped => 5

/-- STATUS[9:8]. -/
def failClassCode : FailClass → BitVec 2
  | .none => 0
  | .transportError => 1
  | .protocolViolation => 2
  | .resourceLimitExceeded => 3

/-- STATUS[11:10]. -/
def failStateCode : ReadState → BitVec 2
  | .awaitingMarker => 0
  | .readingLength => 1
  | .readingBody => 2

/-- STATUS[14:12]. -/
def failEventCode : FailEvent → BitVec 3
  | .none => 0
  | .value => 1
  | .eos => 2
  | .err => 3
  | .timeout => 4

/-- MSG_READY, STATUS[16], and the output `msg_ready`: 1 exactly in Dispatch (rules R25 and R171). -/
def msgReady (s : State) : Bool := decide (s.syncState = .dispatch)

/-- SESSION_END, STATUS[17], and the output `session_end`: 1 exactly in Failed or Stopped (rules R25 and R171). -/
def sessionEnd (s : State) : Bool := decide (s.syncState = .failed) || decide (s.syncState = .stopped)

/-- SESSION_OK, STATUS[19]: 1 exactly in Stopped (rules R25 and R39). -/
def sessionOk (s : State) : Bool := decide (s.syncState = .stopped)

/-- `rx_ready`: 1 exactly in the read states (20_memory.md rule R58). -/
def rxReady (s : State) : Bool := s.syncState.readState?.isSome

/-- STATUS, from bit 31 down: [31:20] 0, SESSION_OK, CLOSED, SESSION_END, MSG_READY, [15] 0, FAIL_EVENT, FAIL_STATE,
FAIL_CLASS, [7] 0, SYNC_STATE, CMD_ERR (rule R25). -/
def statusWord (s : State) : Word :=
  (0 : BitVec 12) ++ BitVec.ofBool (sessionOk s) ++ BitVec.ofBool s.closed ++ BitVec.ofBool (sessionEnd s)
    ++ BitVec.ofBool (msgReady s) ++ (0 : BitVec 1) ++ failEventCode s.failEvent ++ failStateCode s.failState
    ++ failClassCode s.failClass ++ (0 : BitVec 1) ++ syncStateCode s.syncState ++ cmdErrCode s.cmdErr

end Sys2Proof.Machine
end

