-- ==== Sys2Proof/Machine/Control.lean ====
section
/-! DEFINITION. The command that belongs to no unit: NOP (44_command_control.md rule R152), and how every command
reports its end (rules R150 and R151). -/
namespace Sys2Proof.Machine

/-- A command that completes: its effect, and CMD_ERR = OK (rule R151). -/
def commandOk (s : State) : Host.Outcome State Fault Refusal := .next (s.setCmdErr .ok)

/-- `cmd_error(code); stop`: nothing but CMD_ERR changes (60_exceptions.md rule R162). -/
def commandError (e : CmdErr) (s : State) : Host.Outcome State Fault Refusal := .next (s.setCmdErr e)

/-- NOP: do nothing but report OK (rule R152). -/
def execNop (s : State) : Host.Outcome State Fault Refusal := commandOk s

end Sys2Proof.Machine
end

