-- ==== Sys2Proof/Machine/Bfx.lean ====
section
/-! DEFINITION. BFX, the bitfield extractor (40_bitfield_extractor.md). -/
namespace Sys2Proof.Machine

/-- `BFX_RES <- v` (10_state.md rule R28). -/
def State.setBfxRes (s : State) (v : Word) : State := { s with bfxRes := v }

/-- BFX_EXTRACT (rules R90 and R91): the L bits from bit offset O of the selected buffer, most significant first. -/
def execBfxExtract (src : Src) (s : State) : Host.Outcome State Fault Refusal :=
  if bfxOutOfRange src s then commandError .outOfRange s
  else commandOk (s.setBfxRes (extractField (srcByte src s) (bfxOffset s) (bfxLength s)))

end Sys2Proof.Machine
end

