-- ==== Sys2Proof/Machine/Cka.lean ====
section
/-! DEFINITION. CKA, the running checksum accumulator of the host (41_checksum.md). -/
namespace Sys2Proof.Machine

/-- CK_CLEAR (rule R100). -/
def execCkClear (s : State) : Host.Outcome State Fault Refusal := commandOk (s.setCk (0, 0))

/-- CK_BYTE (rule R102): one `ck_step` from the present accumulator. -/
def execCkByte (imm8 : Byte) (s : State) : Host.Outcome State Fault Refusal :=
  commandOk (s.setCk (ckStep (s.ckA, s.ckB) imm8))

/-- CK_RANGE (rules R104 and R105): `cksum(buf[s..e))`, from (0, 0). -/
def execCkRange (src : Src) (s : State) : Host.Outcome State Fault Refusal :=
  if ckRangeOutOfRange src s then commandError .outOfRange s
  else commandOk (s.setCk (cksum (ckRangeBytes src s)))

end Sys2Proof.Machine
end

