-- ==== Sys2Proof/Machine/Fenc.lean ====
section
/-! DEFINITION. FENC, the frame encoder (42_frame_encoder.md). -/
namespace Sys2Proof.Machine

/-- LEN0 = L mod 256 (rule R112). -/
def fencLen0 (s : State) : Byte := BitVec.ofNat 8 (s.txLen.toNat % 256)

/-- LEN1 = (L div 256) mod 256, or 0 when CTRL.LEGACY_LEN8 = 1 (rule R112). -/
def fencLen1 (s : State) : Byte :=
  if ctrlLegacyLen8 s then 0 else BitVec.ofNat 8 (s.txLen.toNat / 256 % 256)

/-- The part of the frame the checksum covers: type code, length field, payload (rule R110, 30_encoding.md rule R75). -/
def fencBody (s : State) : List Byte :=
  [fencType0 s, fencType1 s, fencLen0 s, fencLen1 s] ++ fencPayload s

/-- The frame's checksum (rule R110). -/
def fencCk (s : State) : Byte × Byte := cksum (fencBody s)

/-- The whole frame of 30_encoding.md rule R75: marker bytes, body, checkA, checkB. -/
def fencFrame (s : State) : List Byte :=
  [s.params.sync1, s.params.sync2] ++ fencBody s ++ [(fencCk s).1, (fencCk s).2]

/-- FENC_BUILD (rules R110 to R113): the frame is emitted whole and its checksum is left in CK. -/
def execFencBuild (s : State) : Host.Outcome State Fault Refusal :=
  if txLenTooLong s then commandError .outOfRange s
  else commandOk ((s.emit (fencFrame s)).setCk (fencCk s))

end Sys2Proof.Machine
end

