-- ==== Sys2Proof/Machine/Receive.lean ====
section
/-! DEFINITION. SYNC's receive events (43_stream_sync.md section 1). In each meaning the event is the head of RXIN: a read
state consumes it, and in Dispatch, Failed and Stopped it stays pending and nothing changes (rule R121, log 5). -/
namespace Sys2Proof.Machine

/-- `SYNC_STATE <- st` (10_state.md rule R37). -/
def State.setSync (s : State) (st : SyncState) : State := { s with syncState := st }

/-- AwaitingMarker, after the byte is stored (rule R124). -/
def markerAction (b : Byte) (s : State) : State :=
  if b ≠ s.params.rxMarker then s.fail .protocolViolation .awaitingMarker .value
  else s.setSync .readingLength

/-- `length_check(N)` (rule R127): N = 0 is tested first, and the bound is exclusive. -/
def lengthCheck (n : Nat) (s : State) : State :=
  if n = 0 then s.fail .protocolViolation .readingLength .value
  else if s.params.maxPayload ≤ n then s.fail .resourceLimitExceeded .readingLength .value
  else s.setSync .readingBody

/-- `RX_LEN <- RX_BUF[1]·256 + RX_BUF[2]`, big-endian (rule R125). -/
def State.loadRxLen (s : State) : State := { s with rxLen := s.rxByteAt 1 ++ s.rxByteAt 2 }

/-- ReadingLength, after the byte is stored at index `k` (rule R125). -/
def lengthAction (k : Nat) (b : Byte) (s : State) : State :=
  if k = 2 then lengthCheck (s.rxCk b).loadRxLen.rxLen.toNat (s.rxCk b).loadRxLen
  else s.rxCk b

/-- `trailer_ok()` (rule R129): the first two trailer bytes are RXCK; the third is never checked. -/
def trailerOk (s : State) : Bool :=
  decide (s.rxByteAt (3 + s.rxLen.toNat) = s.rxckA) && decide (s.rxByteAt (4 + s.rxLen.toNat) = s.rxckB)

/-- The end of a message, its last trailer byte stored (rules R128 and R129): CTRL.STRICT is read here
(70_reset_and_hazards.md rule R198). -/
def messageEnd (s : State) : State :=
  if ctrlStrict s && !trailerOk s then s.fail .protocolViolation .readingBody .value
  else s.setSync .dispatch

/-- A body byte stored at index `k` is summed exactly when it is a payload byte (rule R128). -/
def bodySum (k : Nat) (b : Byte) (s : State) : State := if k < 3 + s.rxLen.toNat then s.rxCk b else s

/-- ReadingBody, after the byte is stored at index `k` (rule R128). -/
def bodyAction (k : Nat) (b : Byte) (s : State) : State :=
  if k = s.rxLen.toNat + 5 then messageEnd (bodySum k b s) else bodySum k b s

/-- What a byte does after it is stored at index `k`, by the read state it arrived in (rules R124, R125, R128). -/
def byteAction (st : ReadState) (k : Nat) (b : Byte) (s : State) : State :=
  match st with
  | .awaitingMarker => markerAction b s
  | .readingLength => lengthAction k b s
  | .readingBody => bodyAction k b s

/-- A non-byte event in read state `st` (rule R122), the head of RXIN consumed. -/
def transportFailure (ev : FailEvent) (s : State) : Host.Outcome State Fault Refusal :=
  match s.syncState.readState? with
  | some st => .next (s.consumeEvent.fail .transportError st ev)
  | none => .next s

/-- BYTE(b) (rule R123): stored first, then the action of the read state it arrived in. The fault is a store past
RX_BUF's storage, which rule R123 says never happens (log 10). -/
def execRxByte (data : Byte) (s : State) : Host.Outcome State Fault Refusal :=
  match s.syncState.readState? with
  | some st =>
    if s.rxCount.toNat < rxBufBytes s.params then
      .next (byteAction st s.rxCount.toNat data (s.consumeEvent.storeRx data))
    else .fault .rxBufOverrun
  | none => .next s

/-- EOS (rule R122). -/
def execRxEos (s : State) : Host.Outcome State Fault Refusal := transportFailure .eos s

/-- ERR (rule R122). -/
def execRxErr (s : State) : Host.Outcome State Fault Refusal := transportFailure .err s

/-- TIMEOUT (rule R122). -/
def execRxTimeout (s : State) : Host.Outcome State Fault Refusal := transportFailure .timeout s

end Sys2Proof.Machine
end

