-- ==== Sys2Proof/Machine/Sync.lean ====
section
/-! DEFINITION. The two host commands of SYNC (43_stream_sync.md section 2). -/
namespace Sys2Proof.Machine

/-- SYNC_ACK (rules R130 and R131): the handler's return, legal in Dispatch only. -/
def execSyncAck (stop : Bool) (s : State) : Host.Outcome State Fault Refusal :=
  match s.syncState with
  | .dispatch => commandOk (if stop then s.enterStopped else s.awaitMessage)
  | .awaitingMarker => commandError .stateError s
  | .readingLength => commandError .stateError s
  | .readingBody => commandError .stateError s
  | .failed => commandError .stateError s
  | .stopped => commandError .stateError s

/-- SYNC_RESTART (rule R133): a new session, legal in Failed and Stopped only. -/
def execSyncRestart (s : State) : Host.Outcome State Fault Refusal :=
  match s.syncState with
  | .failed => commandOk s.restartSession
  | .stopped => commandOk s.restartSession
  | .awaitingMarker => commandError .stateError s
  | .readingLength => commandError .stateError s
  | .readingBody => commandError .stateError s
  | .dispatch => commandError .stateError s

end Sys2Proof.Machine
end

