-- ==== Sys2Proof/Machine/Dispatch.lean ====
section
/-! DEFINITION. One arm per constructor of Instr (44_command_control.md rule R150; 30_encoding.md rule R74). -/
namespace Sys2Proof.Machine

def exec (i : Instr) (s : State) : Host.Outcome State Fault Refusal :=
  match i with
  | .nop => Sys2Proof.Machine.execNop s
  | .bfxExtract src => Sys2Proof.Machine.execBfxExtract src s
  | .ckClear => Sys2Proof.Machine.execCkClear s
  | .ckByte imm8 => Sys2Proof.Machine.execCkByte imm8 s
  | .ckRange src => Sys2Proof.Machine.execCkRange src s
  | .fencBuild => Sys2Proof.Machine.execFencBuild s
  | .syncAck stop => Sys2Proof.Machine.execSyncAck stop s
  | .syncRestart => Sys2Proof.Machine.execSyncRestart s
  | .rxByte data => Sys2Proof.Machine.execRxByte data s
  | .rxEos => Sys2Proof.Machine.execRxEos s
  | .rxErr => Sys2Proof.Machine.execRxErr s
  | .rxTimeout => Sys2Proof.Machine.execRxTimeout s

end Sys2Proof.Machine
end

