-- ==== Sys2Proof/Machine/Bus.lean ====
section
/-! DEFINITION. The host bus: the CSR map (10_state.md rule R22), the address map and the access rules
(20_memory.md rules R51 to R57), and the command step behind a write to CMD (44_command_control.md rule R150). -/
namespace Sys2Proof.Machine

/-- The fourteen CSRs of rule R22. -/
inductive Csr where
  | cmd
  | status
  | ctrl
  | bfxOff
  | bfxLen
  | bfxRes
  | ckStart
  | ckEnd
  | ck
  | fencType
  | txLen
  | rxLen
  | rxCount
  | rxck
deriving DecidableEq, Repr

/-- The byte offset of a CSR, which is its host address (rules R22 and R52). -/
def csrOffset : Csr → Nat
  | .cmd => 0x00
  | .status => 0x04
  | .ctrl => 0x08
  | .bfxOff => 0x0C
  | .bfxLen => 0x10
  | .bfxRes => 0x14
  | .ckStart => 0x18
  | .ckEnd => 0x1C
  | .ck => 0x20
  | .fencType => 0x24
  | .txLen => 0x28
  | .rxLen => 0x2C
  | .rxCount => 0x30
  | .rxck => 0x34

/-- The fourteen CSRs in the order of rule R22. -/
def csrList : List Csr :=
  [.cmd, .status, .ctrl, .bfxOff, .bfxLen, .bfxRes, .ckStart, .ckEnd, .ck, .fencType, .txLen, .rxLen, .rxCount, .rxck]

/-- The CSR an address names exactly, if it names one. A misaligned address names none (rules R53 and R57 (c)). -/
def csrAt (addr : Nat) : Option Csr := csrList.find? (fun c => csrOffset c == addr)

/-- The CSR window, 14 words (rule R52). -/
def csrWindowEnd : Nat := 0x38

/-- Where RX_BUF[0] stands in the host's address space (rule R52). -/
def rxBufBase : Nat := 0x00100000

/-- Where TX_BUF[0] stands in the host's address space (rule R52). -/
def txBufBase : Nat := 0x00200000

/-- What an address maps to (rule R52). -/
inductive Region where
  /-- The CSR window. -/
  | csr
  /-- RX_BUF[index]. -/
  | rx (index : Nat)
  /-- TX_BUF[index]. -/
  | tx (index : Nat)
  /-- Every other address. -/
  | unmapped
deriving DecidableEq, Repr

/-- The address map of rule R52. -/
def regionOf (p : Params) (addr : Nat) : Region :=
  if addr < csrWindowEnd then .csr
  else if rxBufBase ≤ addr ∧ addr < rxBufBase + rxBufBytes p then .rx (addr - rxBufBase)
  else if txBufBase ≤ addr ∧ addr < txBufBase + p.txBufBytes then .tx (addr - txBufBase)
  else .unmapped

/-- The value a 32-bit read of a CSR returns: reserved bits read 0, and CMD reads 0 (rules R22, R23 and R53). -/
def readCsr (c : Csr) (s : State) : Word :=
  match c with
  | .cmd => 0
  | .status => statusWord s
  | .ctrl => s.ctrl.zeroExtend 32
  | .bfxOff => s.bfxOff
  | .bfxLen => s.bfxLen.zeroExtend 32
  | .bfxRes => s.bfxRes
  | .ckStart => s.ckStart
  | .ckEnd => s.ckEnd
  | .ck => (0 : Half) ++ s.ckB ++ s.ckA
  | .fencType => s.fencType.zeroExtend 32
  | .txLen => s.txLen
  | .rxLen => s.rxLen.zeroExtend 32
  | .rxCount => s.rxCount
  | .rxck => (0 : Half) ++ s.rxckB ++ s.rxckA

/-- What a 32-bit write stores: the writable fields of an RW CSR; nothing for an RO CSR (rules R22 and R53). CMD stores
nothing (rule R23); its write is the command step. -/
def storeCsr (c : Csr) (v : Word) (s : State) : State :=
  match c with
  | .cmd => s
  | .status => s
  | .ctrl => { s with ctrl := v.extractLsb' 0 2 }
  | .bfxOff => { s with bfxOff := v }
  | .bfxLen => { s with bfxLen := v.extractLsb' 0 6 }
  | .bfxRes => s
  | .ckStart => { s with ckStart := v }
  | .ckEnd => { s with ckEnd := v }
  | .ck => s
  | .fencType => { s with fencType := v.extractLsb' 0 16 }
  | .txLen => { s with txLen := v }
  | .rxLen => s
  | .rxCount => s
  | .rxck => s

/-- The command step (44_command_control.md rule R150): decode, then execute, or fail with ILLEGAL_COMMAND. -/
def commandStep (w : Word) (s : State) : Host.Outcome State Fault Refusal :=
  match decodeCmd w with
  | .ok i => exec i s
  | .error _ => commandError .illegalCommand s

/-- `bus_error()` (rule R57): an error response, and no state of the block changes (log 6). -/
def busError (s : State) : Host.Outcome State Fault Refusal := .next (s.respond .busError)

/-- A write of `v` to CSR `c` (rule R53): a write to CMD issues the command. -/
def writeCsr (c : Csr) (v : Word) (s : State) : Host.Outcome State Fault Refusal :=
  if c = .cmd then commandStep v (s.respond .done)
  else .next ((storeCsr c v s).respond .done)

/-- A host read of RX_BUF[i] (rule R54): the stored byte below RX_COUNT, an unspecified byte at or above it, drawn
anew (U4, log 9). -/
def hostReadRx (i : Nat) (s : State) : State :=
  if i < s.rxCount.toNat then s.respond (.byte (s.rxByteAt i))
  else s.drawRx.respond (.byte (Config.unspecifiedRx s.rxDraws i))

/-- A host read (rules R53, R54 and R57). -/
def hostRead (bits addr : Nat) (s : State) : Host.Outcome State Fault Refusal :=
  match regionOf s.params addr with
  | .csr =>
    if bits = 32 then
      match csrAt addr with
      | some c => .next (s.respond (.word (readCsr c s)))
      | none => busError s
    else busError s
  | .rx i => if bits = 8 then .next (hostReadRx i s) else busError s
  | .tx i => if bits = 8 then .next (s.respond (.byte (s.txByteAt i))) else busError s
  | .unmapped => busError s

/-- A host write (rules R53, R54 and R57); a write to the RX_BUF window is a bus error. -/
def hostWrite (bits addr : Nat) (data : Word) (s : State) : Host.Outcome State Fault Refusal :=
  match regionOf s.params addr with
  | .csr =>
    if bits = 32 then
      match csrAt addr with
      | some c => writeCsr c data s
      | none => busError s
    else busError s
  | .rx _ => busError s
  | .tx i => if bits = 8 then .next ((s.writeTx i (data.extractLsb' 0 8)).respond .done) else busError s
  | .unmapped => busError s

/-- One host access, one atomic step (rules R16 and R53). -/
def hostAccess (a : HostAccess) (s : State) : Host.Outcome State Fault Refusal :=
  match a with
  | .rd bits addr => hostRead bits addr.toNat s
  | .wr bits addr data => hostWrite bits addr.toNat data s

/-- The host's turn: its next access, or nothing if it has none pending. -/
def hostTurn (s : State) : Host.Outcome State Fault Refusal :=
  match s.hostq with
  | [] => .next s
  | a :: rest => hostAccess a { s with hostq := rest }

/-- The receive port's turn: the head of RXIN is offered to SYNC (20_memory.md rule R58); its meaning consumes it or
leaves it pending (43_stream_sync.md rule R121). With RXIN empty nothing happens. -/
def receiveTurn (s : State) : Host.Outcome State Fault Refusal :=
  match s.rxin with
  | [] => .next s
  | w :: _ => exec (decodeEvent w) s

/-- One agent's turn (20_memory.md rule R63): host and receive port never act in the same step. -/
def agentTurn (t : Turn) (s : State) : Host.Outcome State Fault Refusal :=
  match t with
  | .host => hostTurn s
  | .receive => receiveTurn s
  | .reset => .next s.assertReset

/-- The next turn of the interleaving; with none left nothing acts and nothing changes (60_exceptions.md rule R178,
log 4). -/
def nextTurn (s : State) : Host.Outcome State Fault Refusal :=
  match s.turns with
  | [] => .next s
  | t :: ts => agentTurn t { s with turns := ts }

end Sys2Proof.Machine
end

