-- ==== Sys2Proof/Machine/Driver.lean ====
section
/-! DEFINITION. The host's program notation (30_encoding.md rules R79 to R81): every line is one bus access, and a
pseudo-instruction is a sequence of them. Nothing here is part of the block. -/
namespace Sys2Proof.Machine

/-- `WR32 <csr>, <value>` (rule R79). -/
def lineWr32 (c : Csr) (v : Word) : HostAccess := .wr 32 (BitVec.ofNat 32 (csrOffset c)) v

/-- `RD32 <csr>` (rule R79). -/
def lineRd32 (c : Csr) : HostAccess := .rd 32 (BitVec.ofNat 32 (csrOffset c))

/-- `WR8 TX_BUF[<i>], <byte>` (rule R79). -/
def lineWr8Tx (i : Nat) (b : Byte) : HostAccess := .wr 8 (BitVec.ofNat 32 (txBufBase + i)) (b.zeroExtend 32)

/-- `RD8 RX_BUF[<i>]` (rule R79). -/
def lineRd8Rx (i : Nat) : HostAccess := .rd 8 (BitVec.ofNat 32 (rxBufBase + i))

/-- `RD8 TX_BUF[<i>]` (rule R79). -/
def lineRd8Tx (i : Nat) : HostAccess := .rd 8 (BitVec.ofNat 32 (txBufBase + i))

/-- The command word of a command mnemonic (rule R80); a receive event is no command and has none. -/
def commandWordOf (i : Instr) : Option Word :=
  match encode i with
  | .cmd32 w => some w
  | .rxevt10 _ => none

/-- `<command mnemonic> [operands]`: a 32-bit write to CMD of the encoded word (rule R79); no line for an event. -/
def lineCommand (i : Instr) : List HostAccess :=
  match commandWordOf i with
  | some w => [lineWr32 .cmd w]
  | none => []

/-- `extract <src>, <O>, <L>` (rule R81). -/
def pseudoExtract (src : Src) (offset len : Word) : List HostAccess :=
  [lineWr32 .bfxOff offset, lineWr32 .bfxLen len] ++ lineCommand (.bfxExtract src) ++ [lineRd32 .bfxRes]

/-- `checksum <src>, <start>, <end>` (rule R81). -/
def pseudoChecksum (src : Src) (first last : Word) : List HostAccess :=
  [lineWr32 .ckStart first, lineWr32 .ckEnd last] ++ lineCommand (.ckRange src) ++ [lineRd32 .ck]

/-- The payload bytes of `frame`, written one by one from TX_BUF[i] on (rule R81). -/
def payloadLines (i : Nat) : List Byte → List HostAccess
  | [] => []
  | b :: bs => lineWr8Tx i b :: payloadLines (i + 1) bs

/-- `frame <t0>, <t1>, <b0>, …` (rule R81). -/
def pseudoFrame (t0 t1 : Byte) (payload : List Byte) : List HostAccess :=
  payloadLines 0 payload ++
    [lineWr32 .txLen (BitVec.ofNat 32 payload.length), lineWr32 .fencType ((0 : Half) ++ t0 ++ t1)] ++
    lineCommand .fencBuild

/-- `accept` (rule R81): the handler returns without the stop flag. -/
def pseudoAccept : List HostAccess := lineCommand (.syncAck false)

/-- `stop` (rule R81): the handler returns with the stop flag. -/
def pseudoStop : List HostAccess := lineCommand (.syncAck true)

end Sys2Proof.Machine
end

