-- ==== Sys2Proof/Machine/Step.lean ====
section
/-! DEFINITION. The step (00_scope.md rule R16), and where the host of this pipeline places one instruction. -/
namespace Sys2Proof.Machine

/-- One atomic step: the next turn of the interleaving (20_memory.md rule R63). -/
def step (s : State) : Host.Outcome State Fault Refusal := nextTurn s

/-- `s` with one command word or one event word placed so that the next step runs it (log 3): a word of format CMD32 as
the host's next access, a 32-bit write to CMD; a word of format RXEVT10 as the head of RXIN. -/
def State.withFetchWord (s : State) (nbits w : Nat) : State :=
  if nbits ≤ 16 then
    { s with turns := .receive :: s.turns, rxin := BitVec.ofNat 10 w :: s.rxin }
  else
    { s with turns := .host :: s.turns, hostq := .wr 32 0 (BitVec.ofNat 32 w) :: s.hostq }

end Sys2Proof.Machine
end

