-- ==== Sys2Proof/Safety.lean ====
section
/-! DEFINITION. The invariants the spec states of the block (10_state.md rules R25 and R35, 43_stream_sync.md rules R123
and R126, 60_exceptions.md rule R163), and the words the statements use: terminal states, the causes of a failure, a
run of received bytes. -/
namespace Sys2Proof.Machine

/-- Failed or Stopped (00_scope.md rule R17). -/
def SyncState.isTerminal : SyncState → Bool
  | .awaitingMarker => false
  | .readingLength => false
  | .readingBody => false
  | .dispatch => false
  | .failed => true
  | .stopped => true

/-- The (FAIL_CLASS, FAIL_STATE, FAIL_EVENT) triples of the thirteen causes of 60_exceptions.md rule R163. -/
def failureRecords : List (FailClass × ReadState × FailEvent) :=
  [(.protocolViolation, .awaitingMarker, .value),
   (.protocolViolation, .readingLength, .value),
   (.resourceLimitExceeded, .readingLength, .value),
   (.protocolViolation, .readingBody, .value),
   (.transportError, .awaitingMarker, .eos), (.transportError, .awaitingMarker, .err),
   (.transportError, .awaitingMarker, .timeout),
   (.transportError, .readingLength, .eos), (.transportError, .readingLength, .err),
   (.transportError, .readingLength, .timeout),
   (.transportError, .readingBody, .eos), (.transportError, .readingBody, .err),
   (.transportError, .readingBody, .timeout)]

/-- The length N a whole header gave is acceptable: 1 ≤ N < MAX_PAYLOAD (43_stream_sync.md rule R127). -/
def acceptedLength (s : State) : Prop := 1 ≤ s.rxLen.toNat ∧ s.rxLen.toNat < s.params.maxPayload

/-- Where SYNC stands in the current message (43_stream_sync.md rule R123's invariants, and rules R124 to R131 for
the rest). -/
def positionInv (s : State) : Prop :=
  match s.syncState with
  | .awaitingMarker => s.rxCount.toNat = 0 ∧ s.rxLen.toNat = 0
  | .readingLength =>
    (s.rxCount.toNat = 1 ∨ s.rxCount.toNat = 2) ∧ s.rxLen.toNat = 0 ∧ s.rxByteAt 0 = s.params.rxMarker
  | .readingBody =>
    3 ≤ s.rxCount.toNat ∧ s.rxCount.toNat ≤ s.rxLen.toNat + 5 ∧ acceptedLength s ∧
      s.rxByteAt 0 = s.params.rxMarker
  | .dispatch =>
    s.rxCount.toNat = s.rxLen.toNat + 6 ∧ acceptedLength s ∧ s.rxByteAt 0 = s.params.rxMarker
  | .stopped =>
    s.rxCount.toNat = s.rxLen.toNat + 6 ∧ acceptedLength s ∧ s.rxByteAt 0 = s.params.rxMarker
  | .failed => s.rxCount.toNat < 3 → s.rxLen.toNat = 0

/-- What the spec says holds between any two steps, for legal parameters. -/
structure State.Inv (s : State) : Prop where
  /-- The parameters are in the ranges of 00_scope.md rule R6. -/
  legal : s.params.Legal
  /-- RX_BUF is in canonical form. -/
  rxWf : Memory.wf s.rxBuf
  /-- TX_BUF is in canonical form. -/
  txWf : Memory.wf s.txBuf
  /-- RX_BUF has RX_BUF_BYTES bytes (10_state.md rule R40). -/
  rxInside : ∀ c ∈ s.rxBuf, c.1 < rxBufBytes s.params
  /-- TX_BUF has TX_BUF_BYTES bytes (10_state.md rule R41). -/
  txInside : ∀ c ∈ s.txBuf, c.1 < s.params.txBufBytes
  /-- "CLOSED = SESSION_END" (10_state.md rule R25). -/
  closedIsEnd : s.closed = sessionEnd s
  /-- "FAIL_CLASS ≠ 0 exactly when SYNC_STATE = 4" (10_state.md rule R25), with the record of one of the causes of
  60_exceptions.md rule R163 in Failed, and nothing recorded elsewhere. -/
  failure : if s.syncState = .failed then (s.failClass, s.failState, s.failEvent) ∈ failureRecords
    else s.failClass = .none ∧ s.failState = .awaitingMarker ∧ s.failEvent = .none
  /-- RX_COUNT "never exceeds RX_BUF_BYTES" (10_state.md rule R35). -/
  countInside : s.rxCount.toNat ≤ rxBufBytes s.params
  /-- The first RX_COUNT bytes of RX_BUF have been received (10_state.md rule R40). -/
  stored : ∀ i, i < s.rxCount.toNat → (Memory.read s.rxBuf i).isSome = true
  /-- RX_LEN is the big-endian number of bytes 1 and 2 once both have been received (10_state.md rule R34). -/
  lengthDecoded : 3 ≤ s.rxCount.toNat → s.rxLen = s.rxByteAt 1 ++ s.rxByteAt 2
  /-- RXCK runs over the length bytes and the payload received so far (10_state.md rule R36, 43_stream_sync.md
  rule R126). -/
  runningCk : (s.rxckA, s.rxckB) =
    cksum (sliceBytes s.rxByteAt 1 (min s.rxCount.toNat (3 + s.rxLen.toNat)))
  /-- Where SYNC stands in the message. -/
  position : positionInv s

/-- The receive side: everything a host may rely on being stable in Dispatch (43_stream_sync.md rule R132). -/
def receiveSide (s : State) : Memory × Word × Half × Byte × Byte × SyncState :=
  (s.rxBuf, s.rxCount, s.rxLen, s.rxckA, s.rxckB, s.syncState)

/-- The eight (mask, match) rows of 30_encoding.md rule R72, in the table's order. -/
def commandRows : List (Word × Word) :=
  [(0xFFFFFFFF, 0x00000000), (0xFFFFFEFF, 0x00000001), (0xFFFFFFFF, 0x00000002), (0xFF00FFFF, 0x00000003),
   (0xFFFFFEFF, 0x00000004), (0xFFFFFFFF, 0x00000005), (0xFFFFFDFF, 0x00000006), (0xFFFFFFFF, 0x00000007)]

/-- The writable bits of each CSR (10_state.md rule R22); an RO CSR, and CMD, which stores nothing, have none. -/
def csrWriteMask : Csr → Word
  | .cmd => 0
  | .status => 0
  | .ctrl => 0x00000003
  | .bfxOff => 0xFFFFFFFF
  | .bfxLen => 0x0000003F
  | .bfxRes => 0
  | .ckStart => 0xFFFFFFFF
  | .ckEnd => 0xFFFFFFFF
  | .ck => 0
  | .fencType => 0x0000FFFF
  | .txLen => 0xFFFFFFFF
  | .rxLen => 0
  | .rxCount => 0
  | .rxck => 0

/-- The host issues the command word `w` in this step: its next access is a 32-bit write of `w` to CMD
(10_state.md rule R23). -/
def issuesCommand (s : State) (w : Word) : Prop :=
  ∃ ts q, s.turns = .host :: ts ∧ s.hostq = .wr 32 0 w :: q

/-- The platform asserts reset in this step. -/
def resetsNow (s : State) : Prop := ∃ ts, s.turns = .reset :: ts

/-- The bytes received one after another, each a BYTE event at the head of RXIN. -/
def receiveBytes : List Byte → State → Host.Outcome State Fault Refusal
  | [], s => .next s
  | b :: bs, s =>
    match exec (.rxByte b) s with
    | .next t => receiveBytes bs t
    | .fault r => .fault r
    | .refused r => .refused r

/-- An inbound message on the wire (30_encoding.md rule R76): marker, N big-endian, payload, three trailer bytes. -/
def messageBytes (marker hi lo : Byte) (payload : List Byte) (ta tb tc : Byte) : List Byte :=
  [marker, hi, lo] ++ payload ++ [ta, tb, tc]

end Sys2Proof.Machine
end

