-- ==== Sys2Proof/Certificates/Slice0/Obligations.lean ====
section
/-! DEFINITION. The statements about POINTONE-CORE for the provers: rules of spec/ put in terms of the model. -/

open Sys2Proof Sys2Proof.Machine

/-! ### Encoding (30_encoding.md) -/

/-- Decode and encode agree: every instruction, with every operand, is read back from its own word. -/
def Obligations.DecodeOfEncodeIsIdentity : Prop :=
  ∀ i : Instr, decode (encode i) = .ok i

/-- The other direction: a command word has one meaning, so encoding what was decoded gives the word back; an event word
comes back but for DATA bits the kind ignores. -/
def Obligations.EncodeOfDecodeIsTheWord : Prop :=
  (∀ (w : Word) (i : Instr), decodeCmd w = .ok i → encode i = .cmd32 w) ∧
  (∀ w : EventWord, ∃ v, encode (decodeEvent w) = .rxevt10 v ∧ v &&& 0x300 = w &&& 0x300 ∧
    (w &&& 0x300 = 0 → v = w))

/-- R72: each row is chosen exactly by its mask and match, with its fields; no row overlaps another; any other word is
ILLEGAL. -/
def Obligations.CommandDecodesExactlyByTheTable : Prop :=
  ∀ w : Word,
    (decodeCmd w = .ok .nop ↔ w &&& 0xFFFFFFFF = 0x00000000) ∧
    (∀ src, decodeCmd w = .ok (.bfxExtract src) ↔
      w &&& 0xFFFFFEFF = 0x00000001 ∧ w.getLsbD 8 = decide (src = .tx)) ∧
    (decodeCmd w = .ok .ckClear ↔ w &&& 0xFFFFFFFF = 0x00000002) ∧
    (∀ x : Byte, decodeCmd w = .ok (.ckByte x) ↔
      w &&& 0xFF00FFFF = 0x00000003 ∧ w.toNat / 65536 % 256 = x.toNat) ∧
    (∀ src, decodeCmd w = .ok (.ckRange src) ↔
      w &&& 0xFFFFFEFF = 0x00000004 ∧ w.getLsbD 8 = decide (src = .tx)) ∧
    (decodeCmd w = .ok .fencBuild ↔ w &&& 0xFFFFFFFF = 0x00000005) ∧
    (∀ p, decodeCmd w = .ok (.syncAck p) ↔ w &&& 0xFFFFFDFF = 0x00000006 ∧ w.getLsbD 9 = p) ∧
    (decodeCmd w = .ok .syncRestart ↔ w &&& 0xFFFFFFFF = 0x00000007) ∧
    ((∃ e, decodeCmd w = .error e) ↔ ∀ r ∈ commandRows, w &&& r.1 ≠ r.2) ∧
    commandRows.Pairwise (fun r q => ¬ (w &&& r.1 = r.2 ∧ w &&& q.1 = q.2))

/-- R77: a word is illegal exactly when its opcode is unknown, a reserved bit is set, or a field its opcode does not use
is not 0; it then sets CMD_ERR and nothing else; and 0x00000000 is the only word that never does more than clear
CMD_ERR. -/
def Obligations.IllegalWordsAreTheThreeCases : Prop :=
  ∀ w : Word,
    ((∃ e, decodeCmd w = .error e) ↔
      (8 ≤ w.toNat % 256 ∨ w &&& 0x0000FC00 ≠ 0 ∨ w &&& 0xFF000000 ≠ 0 ∨
        (w.getLsbD 8 = true ∧ w.toNat % 256 ≠ 1 ∧ w.toNat % 256 ≠ 4) ∨
        (w.getLsbD 9 = true ∧ w.toNat % 256 ≠ 6) ∨
        (w &&& 0x00FF0000 ≠ 0 ∧ w.toNat % 256 ≠ 3))) ∧
    (∀ e s, decodeCmd w = .error e → commandStep w s = .next { s with cmdErr := .illegalCommand }) ∧
    ((∀ s, commandStep w s = .next { s with cmdErr := .ok }) ↔ w = 0)

/-- R74: KIND is bits 9:8 and DATA bits 7:0; every event word is one of the four events. -/
def Obligations.EventWordDecodesByKind : Prop :=
  ∀ w : EventWord,
    w.toNat / 256 < 4 ∧
    (w.toNat / 256 = 0 → ∃ b : Byte, b.toNat = w.toNat % 256 ∧ decodeEvent w = .rxByte b) ∧
    (w.toNat / 256 = 1 → decodeEvent w = .rxEos) ∧
    (w.toNat / 256 = 2 → decodeEvent w = .rxErr) ∧
    (w.toNat / 256 = 3 → decodeEvent w = .rxTimeout)

/-- A few words of 95_test_vectors.md section 2.1 and 30_encoding.md decode to the instructions they stand for. -/
def Obligations.SpecWordsDecodeToTheirInstructions : Prop :=
  decodeCmd 0x00000000 = .ok .nop ∧ decodeCmd 0x00000101 = .ok (.bfxExtract .tx) ∧
  decodeCmd 0x00000002 = .ok .ckClear ∧ decodeCmd 0x00FF0003 = .ok (.ckByte 0xFF) ∧
  decodeCmd 0x00000004 = .ok (.ckRange .rx) ∧ decodeCmd 0x00000005 = .ok .fencBuild ∧
  decodeCmd 0x00000206 = .ok (.syncAck true) ∧ decodeCmd 0x00000007 = .ok .syncRestart ∧
  decodeCmd 0x00000201 = .error .unusedField ∧ decodeCmd 0x00000400 = .error .reservedBit ∧
  decodeCmd 0x00000008 = .error .unknownOpcode ∧
  decodeEvent 0x0D3 = .rxByte 0xD3 ∧ decodeEvent 0x1FF = .rxEos ∧ decodeEvent 0x200 = .rxErr ∧
  decodeEvent 0x300 = .rxTimeout

/-! ### The step -/

/-- On the host's turn, a 32-bit write to CMD runs the decoded command, the access taken from the queue and answered; an
illegal word fails the command. -/
def Obligations.StepRunsTheDecodedCommand : Prop :=
  ∀ (s : State) (ts : List Turn) (w : Word) (q : List HostAccess),
    s.turns = .host :: ts → s.hostq = .wr 32 0 w :: q →
    (∀ i, decodeCmd w = .ok i →
      step s = exec i { s with turns := ts, hostq := q, responses := s.responses ++ [.done] }) ∧
    (∀ e, decodeCmd w = .error e →
      step s = .next { s with turns := ts, hostq := q, responses := s.responses ++ [.done],
                              cmdErr := .illegalCommand })

/-- On the receive port's turn, the head of RXIN is decoded and run; its meaning consumes it or leaves it pending. -/
def Obligations.StepRunsTheDecodedEvent : Prop :=
  ∀ (s : State) (ts : List Turn) (w : EventWord) (r : List EventWord),
    s.turns = .receive :: ts → s.rxin = w :: r →
    step s = exec (decodeEvent w) { s with turns := ts }

/-- The model's choice (log 4): where nothing is pending for the agent whose turn it is, the step changes nothing but
the turn. -/
def Obligations.StepIdlesWhenNothingIsPending : Prop :=
  (∀ s : State, s.turns = [] → step s = .next s) ∧
  (∀ (s : State) (ts : List Turn), s.turns = .host :: ts → s.hostq = [] → step s = .next { s with turns := ts }) ∧
  (∀ (s : State) (ts : List Turn), s.turns = .receive :: ts → s.rxin = [] → step s = .next { s with turns := ts })

/-! ### NOP and the checksum commands -/

/-- R152: NOP, its encoding, its effect and the illegal words of its opcode. -/
def Obligations.NopReportsOkAndNothingElse : Prop :=
  (∀ s : State, exec .nop s = .next { s with cmdErr := .ok }) ∧
  (∀ w : Word, decodeCmd w = .ok .nop ↔ w = 0) ∧
  (∀ (w : Word) (s : State), w ≠ 0 → w.toNat % 256 = 0 →
    commandStep w s = .next { s with cmdErr := .illegalCommand })

/-- R100: CK_CLEAR in every state, its encoding, and the illegal words of its opcode. -/
def Obligations.CkClearZeroesTheAccumulator : Prop :=
  (∀ s : State, exec .ckClear s = .next { s with ckA := 0, ckB := 0, cmdErr := .ok }) ∧
  (∀ w : Word, decodeCmd w = .ok .ckClear ↔ w &&& 0xFFFFFFFF = 0x00000002) ∧
  (∀ (w : Word) (s : State), w ≠ 2 → w.toNat % 256 = 2 →
    commandStep w s = .next { s with cmdErr := .illegalCommand })

/-- R102: CK_BYTE in every state, and its encoding. -/
def Obligations.CkByteAddsOneByte : Prop :=
  (∀ (x : Byte) (s : State), ∃ a b : Byte,
    a.toNat = (s.ckA.toNat + x.toNat) % 256 ∧ b.toNat = (s.ckB.toNat + a.toNat) % 256 ∧
    exec (.ckByte x) s = .next { s with ckA := a, ckB := b, cmdErr := .ok }) ∧
  (∀ (w : Word) (x : Byte), decodeCmd w = .ok (.ckByte x) ↔
    w &&& 0xFF00FFFF = 0x00000003 ∧ w.toNat / 65536 % 256 = x.toNat)

/-- R101: the accumulator's closed form, from any start state. Element i of the list has weight m − i in checkB. -/
def Obligations.ChecksumIsTheWeightedSum : Prop :=
  ∀ (l : List Byte) (a b : Byte),
    (l.foldl ckStep (a, b)).1.toNat = (a.toNat + ∑ i ∈ Finset.range l.length, (l.getD i 0).toNat) % 256 ∧
    (l.foldl ckStep (a, b)).2.toNat =
      (b.toNat + l.length * a.toNat +
        ∑ i ∈ Finset.range l.length, (l.length - i) * (l.getD i 0).toNat) % 256

/-- R103: the empty sequence, determinism, composition, order, appended zeros, the exact effect of a swap, and the value
to check against. -/
def Obligations.ChecksumProperties : Prop :=
  cksum [] = (0, 0) ∧
  (∀ l m : List Byte, l = m → cksum l = cksum m) ∧
  (∀ l m : List Byte, cksum (l ++ m) = m.foldl ckStep (cksum l)) ∧
  (cksum [1, 2] = (3, 4) ∧ cksum [2, 1] = (3, 5)) ∧
  (∀ (l : List Byte) (k : Nat),
    cksum (l ++ List.replicate k 0) = ((cksum l).1, (cksum l).2 + BitVec.ofNat 8 k * (cksum l).1) ∧
    (cksum (l ++ List.replicate k 0) = cksum l ↔ k * (cksum l).1.toNat % 256 = 0)) ∧
  (∀ (l m n : List Byte) (x y : Byte),
    (cksum (l ++ [y] ++ m ++ [x] ++ n)).1 = (cksum (l ++ [x] ++ m ++ [y] ++ n)).1 ∧
    (cksum (l ++ [y] ++ m ++ [x] ++ n)).2 =
      (cksum (l ++ [x] ++ m ++ [y] ++ n)).2 + BitVec.ofNat 8 (m.length + 1) * (y - x) ∧
    (cksum (l ++ [y] ++ m ++ [x] ++ n) = cksum (l ++ [x] ++ m ++ [y] ++ n) ↔
      BitVec.ofNat 8 (m.length + 1) * (y - x) = 0)) ∧
  cksum (List.replicate 256 0xFF) = (0x00, 0x80)

/-- R104: CK_RANGE in every state: its two range errors, its result otherwise (an empty range included), and its
encoding. -/
def Obligations.CkRangeFollowsItsRule : Prop :=
  (∀ (src : Src) (s : State),
    (src = .tx ∧ s.params.txBufBytes < s.txLen.toNat) ∨
      (s.ckStart.toNat < s.ckEnd.toNat ∧ srcLen src s < s.ckEnd.toNat) →
    exec (.ckRange src) s = .next { s with cmdErr := .outOfRange }) ∧
  (∀ (src : Src) (s : State),
    (src = .tx → s.txLen.toNat ≤ s.params.txBufBytes) →
    (s.ckStart.toNat < s.ckEnd.toNat → s.ckEnd.toNat ≤ srcLen src s) →
    ∃ a b : Byte,
      a.toNat = (∑ i ∈ Finset.range (s.ckEnd.toNat - s.ckStart.toNat),
        (srcByte src s (s.ckStart.toNat + i)).toNat) % 256 ∧
      b.toNat = (∑ i ∈ Finset.range (s.ckEnd.toNat - s.ckStart.toNat),
        (s.ckEnd.toNat - s.ckStart.toNat - i) * (srcByte src s (s.ckStart.toNat + i)).toNat) % 256 ∧
      exec (.ckRange src) s = .next { s with ckA := a, ckB := b, cmdErr := .ok }) ∧
  (∀ (w : Word) (src : Src), decodeCmd w = .ok (.ckRange src) ↔
    w &&& 0xFFFFFEFF = 0x00000004 ∧ w.getLsbD 8 = decide (src = .tx))

/-- In Dispatch, CK_RANGE on RX from 1 to 3 + RX_LEN reproduces RXCK (41_checksum.md rule R105, last case). -/
def Obligations.CkRangeReproducesTheReceiveChecksum : Prop :=
  ∀ s : State, s.Inv → s.syncState = .dispatch → s.ckStart.toNat = 1 → s.ckEnd.toNat = 3 + s.rxLen.toNat →
    exec (.ckRange .rx) s = .next { s with ckA := s.rxckA, ckB := s.rxckB, cmdErr := .ok }

/-! ### BFX -/

/-- R92: the closed form of BFX_EXTRACT's result, the bytes f to l read as a big-endian number. -/
def Obligations.BfxExtractReturnsTheClosedForm : Prop :=
  ∀ (src : Src) (s : State),
    (src = .tx → s.txLen.toNat ≤ s.params.txBufBytes) → s.bfxLen.toNat ≤ 32 →
    s.bfxOff.toNat + s.bfxLen.toNat ≤ 8 * srcLen src s →
    ∃ r : Word, exec (.bfxExtract src) s = .next { s with bfxRes := r, cmdErr := .ok } ∧
      (s.bfxLen.toNat = 0 → r = 0) ∧
      (1 ≤ s.bfxLen.toNat →
        let f := s.bfxOff.toNat / 8
        let l := (s.bfxOff.toNat + s.bfxLen.toNat - 1) / 8
        l - f ≤ 4 ∧
        r.toNat = (∑ k ∈ Finset.Icc f l, (srcByte src s k).toNat * 256 ^ (l - k)) /
          2 ^ (7 - (s.bfxOff.toNat + s.bfxLen.toNat - 1) % 8) % 2 ^ s.bfxLen.toNat)

/-- R91: the range check of BFX_EXTRACT, all of it in Nat: exactly these three conditions fail the command, which then
changes CMD_ERR alone. -/
def Obligations.BfxExtractRangeCheck : Prop :=
  ∀ (src : Src) (s : State),
    ((src = .tx ∧ s.params.txBufBytes < s.txLen.toNat) ∨ 32 < s.bfxLen.toNat ∨
        8 * srcLen src s < s.bfxOff.toNat + s.bfxLen.toNat →
      exec (.bfxExtract src) s = .next { s with cmdErr := .outOfRange }) ∧
    (¬ ((src = .tx ∧ s.params.txBufBytes < s.txLen.toNat) ∨ 32 < s.bfxLen.toNat ∨
        8 * srcLen src s < s.bfxOff.toNat + s.bfxLen.toNat) →
      ∃ r, exec (.bfxExtract src) s = .next { s with bfxRes := r, cmdErr := .ok })

/-- R94: SYNC's two header reads are the extractions the source names: the byte that opens a message is tested as the
8 bits at offset 0 of what is then stored, and RX_LEN, which the second length byte writes and checks, is the 16 bits at
offset 8. No receive event changes BFX_RES. -/
def Obligations.SyncHeaderReadsAreBfxFields : Prop :=
  (∀ rd : Nat → Byte, (extractField rd 0 8).toNat = (rd 0).toNat) ∧
  (∀ rd : Nat → Byte, (extractField rd 8 16).toNat = (rd 1).toNat * 256 + (rd 2).toNat) ∧
  (∀ (s : State) (b : Byte), s.syncState = .awaitingMarker → s.rxCount = 0 →
    ∃ t, exec (.rxByte b) s = .next t ∧
      (t.syncState = .readingLength ↔ (extractField t.rxByteAt 0 8).toNat = s.params.rxMarker.toNat)) ∧
  (∀ (s : State) (b : Byte), s.syncState = .readingLength → s.rxCount = 2 →
    ∃ t, exec (.rxByte b) s = .next t ∧ t.rxLen.toNat = (extractField t.rxByteAt 8 16).toNat ∧
      (t.syncState = .readingBody ↔ 1 ≤ (extractField t.rxByteAt 8 16).toNat ∧
        (extractField t.rxByteAt 8 16).toNat < s.params.maxPayload)) ∧
  (∀ (i : Instr) (s t : State), i.isEvent = true → exec i s = .next t → t.bfxRes = s.bfxRes)

/-- R95: a 32-bit value stored little-endian comes back byte-reversed from one 32-bit extraction, and whole from four
8-bit ones. -/
def Obligations.LittleEndianRoundTripIsByteWise : Prop :=
  ∀ (rd : Nat → Byte) (k : Nat) (x : Word), (∀ j, j < 4 → (rd (k + j)).toNat = x.toNat / 256 ^ j % 256) →
    extractField rd (8 * k) 32 =
      x.extractLsb' 0 8 ++ x.extractLsb' 8 8 ++ x.extractLsb' 16 8 ++ x.extractLsb' 24 8 ∧
    (extractField rd (8 * k) 32 = x ↔
      x.extractLsb' 0 8 = x.extractLsb' 24 8 ∧ x.extractLsb' 8 8 = x.extractLsb' 16 8) ∧
    (∀ j, j < 4 → (extractField rd (8 * (k + j)) 8).toNat = x.toNat / 256 ^ j % 256) ∧
    x.toNat = ∑ j ∈ Finset.range 4, (extractField rd (8 * (k + j)) 8).toNat * 256 ^ j

/-! ### FENC -/

/-- R75: FENC_BUILD emits, whole, a frame of the layout's 8 + L bytes, and leaves its checksum in CK. -/
def Obligations.FencBuildEmitsTheFrameLayout : Prop :=
  ∀ s : State, s.txLen.toNat ≤ s.params.txBufBytes →
    ∃ (frame : List Byte) (a b : Byte),
      exec .fencBuild s = .next { s with txout := s.txout ++ frame, ckA := a, ckB := b, cmdErr := .ok } ∧
      frame.length = 8 + s.txLen.toNat ∧
      frame[0]? = some s.params.sync1 ∧ frame[1]? = some s.params.sync2 ∧
      frame[2]? = some (s.fencType.extractLsb' 8 8) ∧ frame[3]? = some (s.fencType.extractLsb' 0 8) ∧
      (∃ x : Byte, frame[4]? = some x ∧ x.toNat = s.txLen.toNat % 256) ∧
      (∃ x : Byte, frame[5]? = some x ∧
        x.toNat = if s.ctrl.getLsbD 1 then 0 else s.txLen.toNat / 256 % 256) ∧
      (∀ i, i < s.txLen.toNat → frame[6 + i]? = some (s.txByteAt i)) ∧
      frame[6 + s.txLen.toNat]? = some a ∧ frame[7 + s.txLen.toNat]? = some b ∧
      (a, b) = cksum ((frame.drop 2).take (4 + s.txLen.toNat))

/-- R111: a payload longer than the storage is rejected with nothing else changed, and in the corrected mode the two
length bytes of an accepted payload hold its whole length. -/
def Obligations.CorrectedModeNeverTruncatesALength : Prop :=
  ∀ s : State, s.params.Legal →
    (s.params.txBufBytes < s.txLen.toNat → exec .fencBuild s = .next { s with cmdErr := .outOfRange }) ∧
    (s.txLen.toNat ≤ s.params.txBufBytes → s.ctrl.getLsbD 1 = false →
      ∃ (t : State) (x y : Byte), exec .fencBuild s = .next t ∧
        t.txout[s.txout.length + 4]? = some x ∧ t.txout[s.txout.length + 5]? = some y ∧
        s.txLen.toNat = x.toNat + 256 * y.toNat)

/-- R112: the length field in both modes; the frames differ exactly from L = 256 on; and the checksum covers the length
bytes actually emitted. -/
def Obligations.LegacyLengthDiffersFrom256On : Prop :=
  State.reset.ctrl.getLsbD 1 = false ∧
  ∀ (s : State) (c0 c1 : BitVec 2), s.params.Legal → s.txLen.toNat ≤ s.params.txBufBytes →
    c0.getLsbD 1 = false → c1.getLsbD 1 = true →
    ∃ (t0 t1 : State) (x y : Byte),
      exec .fencBuild { s with ctrl := c0 } = .next t0 ∧ exec .fencBuild { s with ctrl := c1 } = .next t1 ∧
      x.toNat = s.txLen.toNat % 256 ∧ y.toNat = s.txLen.toNat / 256 % 256 ∧
      t0.txout[s.txout.length + 4]? = some x ∧ t0.txout[s.txout.length + 5]? = some y ∧
      t1.txout[s.txout.length + 4]? = some x ∧ t1.txout[s.txout.length + 5]? = some 0 ∧
      (t0.txout = t1.txout ↔ s.txLen.toNat < 256) ∧
      (t0.ckA, t0.ckB) = cksum ((t0.txout.drop (s.txout.length + 2)).take (4 + s.txLen.toNat)) ∧
      (t1.ckA, t1.ckB) = cksum ((t1.txout.drop (s.txout.length + 2)).take (4 + s.txLen.toNat))

/-- The expansion of the pseudo-instruction `frame` (30_encoding.md rule R81), performed from any state, appends
SYNC1 SYNC2 t0 t1, the length, the payload and the checksum to TXOUT: the source's buildFrame. -/
def Obligations.FrameExpansionBuildsTheFrame : Prop :=
  ∀ (s : State) (t0 t1 : Byte) (payload : List Byte) (q : List HostAccess) (ts : List Turn),
    s.params.Legal → payload.length ≤ s.params.txBufBytes → s.ctrl.getLsbD 1 = false →
    s.hostq = pseudoFrame t0 t1 payload ++ q → s.turns = List.replicate (payload.length + 3) .host ++ ts →
    ∃ t : State, Host.Core.run Sys2Proof.core (payload.length + 3) s = .next t ∧
      t.hostq = q ∧ t.turns = ts ∧ t.cmdErr = .ok ∧
      t.txout = s.txout ++ [s.params.sync1, s.params.sync2, t0, t1, BitVec.ofNat 8 payload.length,
          BitVec.ofNat 8 (payload.length / 256)] ++ payload ++ [t.ckA, t.ckB] ∧
      (t.ckA, t.ckB) = cksum ([t0, t1, BitVec.ofNat 8 payload.length, BitVec.ofNat 8 (payload.length / 256)] ++
        payload) ∧
      receiveSide t = receiveSide s

/-! ### SYNC's commands -/

/-- R130 and R131: SYNC_ACK in Dispatch, with and without STOP, in every other state, and its encoding. -/
def Obligations.SyncAckEndsADispatch : Prop :=
  (∀ s : State, s.syncState = .dispatch →
    exec (.syncAck false) s = .next { s with syncState := .awaitingMarker, rxCount := 0, rxLen := 0,
                                             rxckA := 0, rxckB := 0, cmdErr := .ok } ∧
    exec (.syncAck true) s = .next { s with syncState := .stopped, closed := true,
                                            evout := s.evout ++ [.connClose], cmdErr := .ok }) ∧
  (∀ (s : State) (p : Bool), s.syncState ≠ .dispatch →
    exec (.syncAck p) s = .next { s with cmdErr := .stateError }) ∧
  (∀ (w : Word) (p : Bool), decodeCmd w = .ok (.syncAck p) ↔ w &&& 0xFFFFFDFF = 0x00000006 ∧ w.getLsbD 9 = p)

/-- R133: SYNC_RESTART in Failed and Stopped, in every other state, and its encoding. -/
def Obligations.SyncRestartBeginsANewSession : Prop :=
  (∀ s : State, s.syncState = .failed ∨ s.syncState = .stopped →
    exec .syncRestart s = .next { s with syncState := .awaitingMarker, rxCount := 0, rxLen := 0, rxckA := 0,
                                         rxckB := 0, failClass := .none, failState := .awaitingMarker,
                                         failEvent := .none, closed := false, cmdErr := .ok }) ∧
  (∀ s : State, s.syncState ≠ .failed → s.syncState ≠ .stopped →
    exec .syncRestart s = .next { s with cmdErr := .stateError }) ∧
  (∀ w : Word, decodeCmd w = .ok .syncRestart ↔ w &&& 0xFFFFFFFF = 0x00000007)

/-! ### The command step -/

/-- R162: every command completes; a command error changes CMD_ERR alone; each code is raised exactly by its cause; and
the codes stand in STATUS[3:0]. -/
def Obligations.CommandStepReportsExactlyItsCause : Prop :=
  ∀ (w : Word) (s : State), ∃ t, commandStep w s = .next t ∧
    (t.cmdErr ≠ .ok → t = { s with cmdErr := t.cmdErr }) ∧
    (t.cmdErr = .illegalCommand ↔ ∃ e, decodeCmd w = .error e) ∧
    (t.cmdErr = .stateError ↔
      ((∃ p, decodeCmd w = .ok (.syncAck p)) ∧ s.syncState ≠ .dispatch) ∨
      (decodeCmd w = .ok .syncRestart ∧ s.syncState ≠ .failed ∧ s.syncState ≠ .stopped)) ∧
    (t.cmdErr = .outOfRange ↔
      (∃ src, decodeCmd w = .ok (.bfxExtract src) ∧
        ((src = .tx ∧ s.params.txBufBytes < s.txLen.toNat) ∨ 32 < s.bfxLen.toNat ∨
          8 * srcLen src s < s.bfxOff.toNat + s.bfxLen.toNat)) ∨
      (∃ src, decodeCmd w = .ok (.ckRange src) ∧
        ((src = .tx ∧ s.params.txBufBytes < s.txLen.toNat) ∨
          (s.ckStart.toNat < s.ckEnd.toNat ∧ srcLen src s < s.ckEnd.toNat))) ∨
      (decodeCmd w = .ok .fencBuild ∧ s.params.txBufBytes < s.txLen.toNat)) ∧
    (readCsr .status t).toNat % 16 =
      match t.cmdErr with
      | .ok => 0
      | .outOfRange => 1
      | .illegalCommand => 2
      | .stateError => 3

/-- R151: CMD_ERR is written by every command, whatever it held (not sticky), and by nothing else but reset. -/
def Obligations.CmdErrIsTheLastCommandsResult : Prop :=
  (∀ (w : Word) (s : State) (e : CmdErr), commandStep w { s with cmdErr := e } = commandStep w s) ∧
  (∀ s t : State, step s = .next t → (∀ w, ¬ issuesCommand s w) → ¬ resetsNow s → t.cmdErr = s.cmdErr) ∧
  (∀ s t : State, step s = .next t → resetsNow s → t.cmdErr = .ok) ∧ State.reset.cmdErr = .ok

/-- The frame of the eight commands: what each leaves unchanged, the bytes of both buffers included. -/
def Obligations.CommandsTouchOnlyTheirOwnState : Prop :=
  ∀ (i : Instr) (s t : State), i.isEvent = false → exec i s = .next t →
    (t.ctrl = s.ctrl ∧ t.bfxOff = s.bfxOff ∧ t.bfxLen = s.bfxLen ∧ t.ckStart = s.ckStart ∧ t.ckEnd = s.ckEnd ∧
      t.fencType = s.fencType ∧ t.txLen = s.txLen) ∧
    (∀ a, t.rxByteAt a = s.rxByteAt a ∧ t.txByteAt a = s.txByteAt a ∧
      Memory.read t.rxBuf a = Memory.read s.rxBuf a ∧ Memory.read t.txBuf a = Memory.read s.txBuf a) ∧
    (t.params = s.params ∧ t.hostq = s.hostq ∧ t.rxin = s.rxin ∧ t.turns = s.turns ∧ t.responses = s.responses ∧
      t.txEpoch = s.txEpoch ∧ t.rxDraws = s.rxDraws) ∧
    ((∀ src, i ≠ .bfxExtract src) → t.bfxRes = s.bfxRes) ∧
    (i ≠ .ckClear → (∀ x, i ≠ .ckByte x) → (∀ src, i ≠ .ckRange src) → i ≠ .fencBuild →
      t.ckA = s.ckA ∧ t.ckB = s.ckB) ∧
    (i ≠ .fencBuild → t.txout = s.txout) ∧
    ((∀ p, i ≠ .syncAck p) → i ≠ .syncRestart →
      receiveSide t = receiveSide s ∧ t.failClass = s.failClass ∧ t.failState = s.failState ∧
      t.failEvent = s.failEvent ∧ t.closed = s.closed ∧ t.evout = s.evout)

/-! ### Receive events -/

/-- After R121: outside the read states an event changes nothing and stays pending; in a read state a step of the receive port
consumes exactly the head; nothing but the receive port changes RXIN; SYNC_ACK without STOP, and SYNC_RESTART, return to
a read state with the event still pending. The spec says that SYNC has no step for an event it does not consume; that
exec answers the state as it is (log 5) and that the step takes the turn (log 4) is the model's choice. -/
def Obligations.EventsAreConsumedOnlyInReadStates : Prop :=
  (∀ (i : Instr) (s : State), i.isEvent = true →
    s.syncState = .dispatch ∨ s.syncState = .failed ∨ s.syncState = .stopped → exec i s = .next s) ∧
  (∀ (s t : State) (ts : List Turn) (w : EventWord) (r : List EventWord),
    s.turns = .receive :: ts → s.rxin = w :: r → step s = .next t →
    (s.syncState = .awaitingMarker ∨ s.syncState = .readingLength ∨ s.syncState = .readingBody → t.rxin = r) ∧
    (s.syncState = .dispatch ∨ s.syncState = .failed ∨ s.syncState = .stopped →
      t = { s with turns := ts })) ∧
  (∀ s t : State, step s = .next t → (∀ ts, s.turns ≠ .receive :: ts) → t.rxin = s.rxin) ∧
  (∀ s : State, s.syncState = .dispatch →
    ∃ t, exec (.syncAck false) s = .next t ∧ t.syncState = .awaitingMarker ∧ t.rxin = s.rxin) ∧
  (∀ s : State, s.syncState = .failed ∨ s.syncState = .stopped →
    ∃ t, exec .syncRestart s = .next t ∧ t.syncState = .awaitingMarker ∧ t.rxin = s.rxin)

/-- R122: EOS, ERR and TIMEOUT in each read state: the session fails with TransportError, and the message read so far
stays as it is. -/
def Obligations.NonByteEventFailsTheSession : Prop :=
  ∀ (s : State) (st : ReadState),
    (st = .awaitingMarker ∧ s.syncState = .awaitingMarker) ∨ (st = .readingLength ∧ s.syncState = .readingLength) ∨
      (st = .readingBody ∧ s.syncState = .readingBody) →
    ∀ (i : Instr) (ev : FailEvent), (i = .rxEos ∧ ev = .eos) ∨ (i = .rxErr ∧ ev = .err) ∨
        (i = .rxTimeout ∧ ev = .timeout) →
      exec i s = .next { s with rxin := s.rxin.tail, syncState := .failed, failClass := .transportError,
                                failState := st, failEvent := ev, closed := true,
                                evout := s.evout ++ [.connClose] }

/-- R123: a byte in a read state is stored at RX_BUF[RX_COUNT], whatever its check then says, RX_COUNT rises by 1, and
the rule's invariants hold before each event. -/
def Obligations.ByteEventIsStoredFirst : Prop :=
  (∀ (s : State) (b : Byte),
    s.syncState = .awaitingMarker ∨ s.syncState = .readingLength ∨ s.syncState = .readingBody →
    s.rxCount.toNat < rxBufBytes s.params →
    ∃ t, exec (.rxByte b) s = .next t ∧ Memory.read t.rxBuf s.rxCount.toNat = some b ∧
      (∀ j, j ≠ s.rxCount.toNat → Memory.read t.rxBuf j = Memory.read s.rxBuf j) ∧
      t.rxCount.toNat = s.rxCount.toNat + 1 ∧ t.rxin = s.rxin.tail) ∧
  (∀ s : State, s.Inv →
    (s.syncState = .awaitingMarker → s.rxCount.toNat = 0) ∧
    (s.syncState = .readingLength → s.rxCount.toNat = 1 ∨ s.rxCount.toNat = 2) ∧
    (s.syncState = .readingBody → 3 ≤ s.rxCount.toNat ∧ s.rxCount.toNat ≤ s.rxLen.toNat + 5) ∧
    (s.syncState = .awaitingMarker ∨ s.syncState = .readingLength ∨ s.syncState = .readingBody →
      s.rxCount.toNat < rxBufBytes s.params))

/-- R124: the marker byte. -/
def Obligations.MarkerByteOpensOrFailsTheSession : Prop :=
  ∀ (s : State) (b : Byte), s.syncState = .awaitingMarker → s.rxCount = 0 →
    (b ≠ s.params.rxMarker →
      exec (.rxByte b) s = .next { s with rxin := s.rxin.tail, rxBuf := Memory.write s.rxBuf 0 b, rxCount := 1,
                                          syncState := .failed, failClass := .protocolViolation,
                                          failState := .awaitingMarker, failEvent := .value, closed := true,
                                          evout := s.evout ++ [.connClose] }) ∧
    (b = s.params.rxMarker →
      exec (.rxByte b) s = .next { s with rxin := s.rxin.tail, rxBuf := Memory.write s.rxBuf 0 b, rxCount := 1,
                                          syncState := .readingLength })

/-- R125 and R127: the two length bytes. The first is summed; the second also gives N, big-endian, which is stored even
when it is rejected, and checked against 0 before the exclusive cap, which no N reaches at its default 204800. -/
def Obligations.LengthBytesAreDecodedAndChecked : Prop :=
  ∀ (s : State) (b : Byte), s.syncState = .readingLength →
    (s.rxCount = 1 →
      exec (.rxByte b) s = .next { s with rxin := s.rxin.tail, rxBuf := Memory.write s.rxBuf 1 b, rxCount := 2,
                                          rxckA := (ckStep (s.rxckA, s.rxckB) b).1,
                                          rxckB := (ckStep (s.rxckA, s.rxckB) b).2 }) ∧
    (s.rxCount = 2 → ∃ n : Half, n.toNat = (s.rxByteAt 1).toNat * 256 + b.toNat ∧ n.toNat < 204800 ∧
      (n.toNat = 0 →
        exec (.rxByte b) s = .next { s with rxin := s.rxin.tail, rxBuf := Memory.write s.rxBuf 2 b, rxCount := 3,
                                            rxckA := (ckStep (s.rxckA, s.rxckB) b).1,
                                            rxckB := (ckStep (s.rxckA, s.rxckB) b).2, rxLen := n,
                                            syncState := .failed, failClass := .protocolViolation,
                                            failState := .readingLength, failEvent := .value, closed := true,
                                            evout := s.evout ++ [.connClose] }) ∧
      (n.toNat ≠ 0 → s.params.maxPayload ≤ n.toNat →
        exec (.rxByte b) s = .next { s with rxin := s.rxin.tail, rxBuf := Memory.write s.rxBuf 2 b, rxCount := 3,
                                            rxckA := (ckStep (s.rxckA, s.rxckB) b).1,
                                            rxckB := (ckStep (s.rxckA, s.rxckB) b).2, rxLen := n,
                                            syncState := .failed, failClass := .resourceLimitExceeded,
                                            failState := .readingLength, failEvent := .value, closed := true,
                                            evout := s.evout ++ [.connClose] }) ∧
      (n.toNat ≠ 0 → n.toNat < s.params.maxPayload →
        exec (.rxByte b) s = .next { s with rxin := s.rxin.tail, rxBuf := Memory.write s.rxBuf 2 b, rxCount := 3,
                                            rxckA := (ckStep (s.rxckA, s.rxckB) b).1,
                                            rxckB := (ckStep (s.rxckA, s.rxckB) b).2, rxLen := n,
                                            syncState := .readingBody }))

/-- R128 and R129: the bytes of the body. Payload bytes are summed and trailer bytes are not; the last trailer byte ends
the message, and only STRICT checks the first two trailer bytes against RXCK. -/
def Obligations.BodyBytesAreCountedAndChecked : Prop :=
  ∀ (s : State) (b : Byte), s.syncState = .readingBody → 3 ≤ s.rxCount.toNat →
    s.rxCount.toNat < rxBufBytes s.params →
    (s.rxCount.toNat < 3 + s.rxLen.toNat →
      exec (.rxByte b) s = .next { s with rxin := s.rxin.tail, rxBuf := Memory.write s.rxBuf s.rxCount.toNat b,
                                          rxCount := s.rxCount + 1,
                                          rxckA := (ckStep (s.rxckA, s.rxckB) b).1,
                                          rxckB := (ckStep (s.rxckA, s.rxckB) b).2 }) ∧
    (3 + s.rxLen.toNat ≤ s.rxCount.toNat → s.rxCount.toNat < s.rxLen.toNat + 5 →
      exec (.rxByte b) s = .next { s with rxin := s.rxin.tail, rxBuf := Memory.write s.rxBuf s.rxCount.toNat b,
                                          rxCount := s.rxCount + 1 }) ∧
    (s.rxCount.toNat = s.rxLen.toNat + 5 →
      (s.ctrl.getLsbD 0 = false ∨
          (s.rxByteAt (3 + s.rxLen.toNat) = s.rxckA ∧ s.rxByteAt (4 + s.rxLen.toNat) = s.rxckB) →
        exec (.rxByte b) s = .next { s with rxin := s.rxin.tail, rxBuf := Memory.write s.rxBuf s.rxCount.toNat b,
                                            rxCount := s.rxCount + 1, syncState := .dispatch }) ∧
      (s.ctrl.getLsbD 0 = true →
          ¬ (s.rxByteAt (3 + s.rxLen.toNat) = s.rxckA ∧ s.rxByteAt (4 + s.rxLen.toNat) = s.rxckB) →
        exec (.rxByte b) s = .next { s with rxin := s.rxin.tail, rxBuf := Memory.write s.rxBuf s.rxCount.toNat b,
                                            rxCount := s.rxCount + 1, syncState := .failed,
                                            failClass := .protocolViolation, failState := .readingBody,
                                            failEvent := .value, closed := true,
                                            evout := s.evout ++ [.connClose] }))

/-- The frame of the four receive events: everything of the host's side, and every byte but the one stored. -/
def Obligations.EventsTouchOnlyTheReceiveSide : Prop :=
  ∀ (i : Instr) (s t : State), i.isEvent = true → exec i s = .next t →
    (t.ctrl = s.ctrl ∧ t.bfxOff = s.bfxOff ∧ t.bfxLen = s.bfxLen ∧ t.bfxRes = s.bfxRes ∧ t.ckStart = s.ckStart ∧
      t.ckEnd = s.ckEnd ∧ t.ckA = s.ckA ∧ t.ckB = s.ckB ∧ t.fencType = s.fencType ∧ t.txLen = s.txLen ∧
      t.cmdErr = s.cmdErr ∧ t.txout = s.txout) ∧
    (∀ a, t.txByteAt a = s.txByteAt a ∧ Memory.read t.txBuf a = Memory.read s.txBuf a) ∧
    ((∀ b, i ≠ .rxByte b) → ∀ a, t.rxByteAt a = s.rxByteAt a ∧ Memory.read t.rxBuf a = Memory.read s.rxBuf a) ∧
    (∀ a, a ≠ s.rxCount.toNat →
      t.rxByteAt a = s.rxByteAt a ∧ Memory.read t.rxBuf a = Memory.read s.rxBuf a) ∧
    (t.params = s.params ∧ t.hostq = s.hostq ∧ t.turns = s.turns ∧ t.responses = s.responses ∧
      t.txEpoch = s.txEpoch ∧ t.rxDraws = s.rxDraws)

/-! ### Sessions -/

/-- R163: the only ways into Failed, each with its record; at the default cap the third never happens. -/
def Obligations.FailureCausesAreTheThirteen : Prop :=
  ∀ s t : State, step s = .next t → s.syncState ≠ .failed → t.syncState = .failed →
    ∃ (ts : List Turn) (w : EventWord) (r : List EventWord),
      s.turns = .receive :: ts ∧ s.rxin = w :: r ∧ (t.failClass, t.failState, t.failEvent) ∈ failureRecords ∧
      ((t.failState = .awaitingMarker ∧ s.syncState = .awaitingMarker) ∨
        (t.failState = .readingLength ∧ s.syncState = .readingLength) ∨
        (t.failState = .readingBody ∧ s.syncState = .readingBody)) ∧
      ((decodeEvent w = .rxEos ∧ t.failClass = .transportError ∧ t.failEvent = .eos) ∨
        (decodeEvent w = .rxErr ∧ t.failClass = .transportError ∧ t.failEvent = .err) ∨
        (decodeEvent w = .rxTimeout ∧ t.failClass = .transportError ∧ t.failEvent = .timeout) ∨
        (∃ b, decodeEvent w = .rxByte b ∧ t.failEvent = .value ∧
          ((s.syncState = .awaitingMarker ∧ b ≠ s.params.rxMarker ∧ t.failClass = .protocolViolation) ∨
            (s.syncState = .readingLength ∧ s.rxCount.toNat = 2 ∧ t.rxLen.toNat = 0 ∧
              t.failClass = .protocolViolation) ∨
            (s.syncState = .readingLength ∧ s.rxCount.toNat = 2 ∧ t.rxLen.toNat ≠ 0 ∧
              s.params.maxPayload ≤ t.rxLen.toNat ∧ t.failClass = .resourceLimitExceeded) ∨
            (s.syncState = .readingBody ∧ s.rxCount.toNat = s.rxLen.toNat + 5 ∧ s.ctrl.getLsbD 0 = true ∧
              ¬ (t.rxByteAt (3 + s.rxLen.toNat) = t.rxckA ∧ t.rxByteAt (4 + s.rxLen.toNat) = t.rxckB) ∧
              t.failClass = .protocolViolation)))) ∧
      (s.params = Params.default → t.failClass ≠ .resourceLimitExceeded)

/-- R7: N never exceeds 65535, and at the default MAX_PAYLOAD no byte ever fails with ResourceLimitExceeded. -/
def Obligations.DefaultCapNeverFires : Prop :=
  ∀ (s t : State) (b : Byte), exec (.rxByte b) s = .next t →
    t.rxLen.toNat ≤ 65535 ∧
    (s.params.maxPayload = 204800 → s.failClass ≠ .resourceLimitExceeded →
      t.failClass ≠ .resourceLimitExceeded) ∧
    (65535 < s.params.maxPayload → s.failClass ≠ .resourceLimitExceeded → t.failClass ≠ .resourceLimitExceeded)

/-- R168 (and Stopped with it): a terminal state is left only by SYNC_RESTART, which clears the record and the message,
or by reset. -/
def Obligations.TerminalStatesAreLeftOnlyByRestartOrReset : Prop :=
  ∀ s t : State, step s = .next t → s.syncState.isTerminal = true →
    t.syncState = s.syncState ∨
    (issuesCommand s 7 ∧ t.syncState = .awaitingMarker ∧ t.failClass = .none ∧ t.failState = .awaitingMarker ∧
      t.failEvent = .none ∧ t.closed = false ∧ t.rxCount = 0 ∧ t.rxLen = 0 ∧ t.rxckA = 0 ∧ t.rxckB = 0) ∨
    (resetsNow s ∧ t.syncState = .awaitingMarker)

/-- R43: EVOUT is empty at power-on and gains exactly one `conn_close` each time SYNC enters a terminal state, and
nothing otherwise. -/
def Obligations.OneCloseEventPerTerminalEntry : Prop :=
  State.reset.evout = [] ∧
  ∀ s t : State, step s = .next t →
    t.evout = s.evout ++
      if s.syncState.isTerminal = false ∧ t.syncState.isTerminal = true then [.connClose] else []

/-- R132: while SYNC is in Dispatch nothing but SYNC_ACK and reset changes the receive side, the whole message of
RX_LEN + 6 bytes stands in RX_BUF with MSG_READY set, and of all commands SYNC_RESTART alone is a STATE_ERROR. -/
def Obligations.DispatchIsStableUntilAcknowledged : Prop :=
  (∀ s t : State, s.syncState = .dispatch → step s = .next t → (∀ w, issuesCommand s w → ∀ p,
      decodeCmd w ≠ .ok (.syncAck p)) → ¬ resetsNow s → receiveSide t = receiveSide s) ∧
  (∀ s : State, s.Inv → s.syncState = .dispatch →
    s.rxCount.toNat = s.rxLen.toNat + 6 ∧ (readCsr .status s).toNat / 65536 % 2 = 1) ∧
  (∀ (w : Word) (s t : State), s.syncState = .dispatch → commandStep w s = .next t →
    (t.cmdErr = .stateError ↔ decodeCmd w = .ok .syncRestart) ∧
    (decodeCmd w = .ok .syncRestart → t = { s with cmdErr := .stateError }))

/-- R128, R135 with R76: in the default mode a whole message, received byte by byte from AwaitingMarker, is dispatched
with every byte stored, N decoded and the checksum of length and payload in RXCK; nothing else changes. -/
def Obligations.WholeMessageIsDispatched : Prop :=
  ∀ (s : State) (hi lo ta tb tc : Byte) (payload : List Byte),
    s.Inv → s.syncState = .awaitingMarker → s.ctrl.getLsbD 0 = false →
    payload.length = hi.toNat * 256 + lo.toNat → 1 ≤ payload.length → payload.length < s.params.maxPayload →
    ∃ t, receiveBytes (messageBytes s.params.rxMarker hi lo payload ta tb tc) s = .next t ∧
      t = { s with rxin := s.rxin.drop (payload.length + 6), syncState := .dispatch, rxLen := hi ++ lo,
                   rxCount := BitVec.ofNat 32 (payload.length + 6), rxBuf := t.rxBuf,
                   rxckA := (cksum ([hi, lo] ++ payload)).1, rxckB := (cksum ([hi, lo] ++ payload)).2 } ∧
      (∀ j, j < payload.length + 6 → Memory.read t.rxBuf j =
        (messageBytes s.params.rxMarker hi lo payload ta tb tc)[j]?) ∧
      (∀ j, payload.length + 6 ≤ j → Memory.read t.rxBuf j = Memory.read s.rxBuf j)

/-- R129 over a whole message: in strict mode it is dispatched exactly when its first two trailer bytes are the checksum
of length and payload, and fails in ReadingBody otherwise; the third trailer byte never matters. -/
def Obligations.StrictModeChecksTheTrailer : Prop :=
  ∀ (s : State) (hi lo ta tb tc : Byte) (payload : List Byte),
    s.Inv → s.syncState = .awaitingMarker → s.ctrl.getLsbD 0 = true →
    payload.length = hi.toNat * 256 + lo.toNat → 1 ≤ payload.length → payload.length < s.params.maxPayload →
    ∃ t, receiveBytes (messageBytes s.params.rxMarker hi lo payload ta tb tc) s = .next t ∧
      ((ta, tb) = cksum ([hi, lo] ++ payload) → t.syncState = .dispatch ∧ t.evout = s.evout) ∧
      ((ta, tb) ≠ cksum ([hi, lo] ++ payload) →
        t.syncState = .failed ∧ t.failClass = .protocolViolation ∧ t.failState = .readingBody ∧
        t.failEvent = .value ∧ t.closed = true ∧ t.evout = s.evout ++ [.connClose])

/-! ### Whole-machine rules -/

/-- R42: TXOUT is empty at power-on, and only FENC_BUILD appends to it, one whole frame per command: the marker bytes,
the type code, the length bytes, the TX_LEN bytes of the payload and the checksum of all but the markers. -/
def Obligations.TxoutGrowsOnlyByWholeFrames : Prop :=
  State.reset.txout = [] ∧
  ∀ s t : State, step s = .next t →
    t.txout = s.txout ∨
    (issuesCommand s 5 ∧ s.txLen.toNat ≤ s.params.txBufBytes ∧ ∃ body : List Byte,
      body = [s.fencType.extractLsb' 8 8, s.fencType.extractLsb' 0 8, BitVec.ofNat 8 s.txLen.toNat,
        if s.ctrl.getLsbD 1 then 0 else BitVec.ofNat 8 (s.txLen.toNat / 256)] ++
          (List.range s.txLen.toNat).map s.txByteAt ∧
      t.txout = s.txout ++ ([s.params.sync1, s.params.sync2] ++ body ++ [(cksum body).1, (cksum body).2]))

/-- R31: CK at 0x20, read only, with both accumulator bytes in their places, and the four commands (and reset) that
alone change it. -/
def Obligations.CkIsWrittenOnlyByItsCommands : Prop :=
  (∀ s : State, (readCsr .ck s).toNat = s.ckA.toNat + 256 * s.ckB.toNat ∧
    hostAccess (.rd 32 0x20) s = .next { s with responses := s.responses ++ [.word (readCsr .ck s)] } ∧
    ∀ v, hostAccess (.wr 32 0x20 v) s = .next { s with responses := s.responses ++ [.done] }) ∧
  readCsr .ck State.reset = 0 ∧
  ∀ s t : State, step s = .next t → ¬ (t.ckA = s.ckA ∧ t.ckB = s.ckB) → ¬ resetsNow s →
    ∃ w, issuesCommand s w ∧ (decodeCmd w = .ok .ckClear ∨ (∃ x, decodeCmd w = .ok (.ckByte x)) ∨
      (∃ src, decodeCmd w = .ok (.ckRange src)) ∨ decodeCmd w = .ok .fencBuild)

/-- R28: BFX_RES, read only at 0x14, takes the result of each BFX_EXTRACT that succeeds, keeps its value in one that
fails, and changes by nothing else (but reset, which clears it). -/
def Obligations.BfxResIsTheLastSuccessfulResult : Prop :=
  readCsr .bfxRes State.reset = 0 ∧
  (∀ s : State,
    hostAccess (.rd 32 0x14) s = .next { s with responses := s.responses ++ [.word s.bfxRes] } ∧
    ∀ v, hostAccess (.wr 32 0x14 v) s = .next { s with responses := s.responses ++ [.done] }) ∧
  (∀ (src : Src) (s t : State), exec (.bfxExtract src) s = .next t →
    (t.cmdErr = .ok → t.bfxRes = extractField (srcByte src s) s.bfxOff.toNat s.bfxLen.toNat) ∧
    (t.cmdErr ≠ .ok → t.bfxRes = s.bfxRes)) ∧
  ∀ s t : State, step s = .next t → t.bfxRes ≠ s.bfxRes →
    (resetsNow s ∧ t.bfxRes = 0) ∨
    ∃ w src, issuesCommand s w ∧ decodeCmd w = .ok (.bfxExtract src) ∧ t.cmdErr = .ok ∧
      t.bfxRes = extractField (srcByte src s) s.bfxOff.toNat s.bfxLen.toNat

/-- R198: CTRL.STRICT is read only by the byte that ends a message and CTRL.LEGACY_LEN8 only by FENC_BUILD: every other
instruction does the same whatever CTRL holds, and leaves CTRL as it is. -/
def Obligations.CtrlIsReadOnlyWhereItIsUsed : Prop :=
  (∀ (i : Instr) (s : State) (c : BitVec 2), i ≠ .fencBuild →
    (∀ b, i = .rxByte b → ¬ (s.syncState = .readingBody ∧ s.rxCount.toNat = s.rxLen.toNat + 5)) →
    ∀ t, exec i s = .next t → exec i { s with ctrl := c } = .next { t with ctrl := c }) ∧
  (∀ (s : State) (c : BitVec 2), c.getLsbD 1 = s.ctrl.getLsbD 1 →
    ∀ t, exec .fencBuild s = .next t → exec .fencBuild { s with ctrl := c } = .next { t with ctrl := c }) ∧
  (∀ (b : Byte) (s : State) (c : BitVec 2), c.getLsbD 0 = s.ctrl.getLsbD 0 →
    ∀ t, exec (.rxByte b) s = .next t → exec (.rxByte b) { s with ctrl := c } = .next { t with ctrl := c })

/-- The parameters are arguments of the machine (log 1): no step changes them. -/
def Obligations.NoStepChangesTheParameters : Prop :=
  ∀ s t : State, step s = .next t → t.params = s.params

/-! ### The host bus -/

/-- R57: the five cases of a bus error, exactly, with the error response and nothing else changed. -/
def Obligations.BusErrorsAreTheFiveCases : Prop :=
  ∀ (s : State) (a : HostAccess),
    let bits := match a with | .rd n _ => n | .wr n _ _ => n
    let addr := match a with | .rd _ x => x.toNat | .wr _ x _ => x.toNat
    let inCsr := addr < 0x38
    let inRx := 0x00100000 ≤ addr ∧ addr < 0x00100000 + rxBufBytes s.params
    let inTx := 0x00200000 ≤ addr ∧ addr < 0x00200000 + s.params.txBufBytes
    let isWrite := match a with | .rd _ _ => False | .wr _ _ _ => True
    let bad := (¬ inCsr ∧ ¬ inRx ∧ ¬ inTx) ∨ (inCsr ∧ bits ≠ 32) ∨ (inCsr ∧ addr % 4 ≠ 0) ∨
      ((inRx ∨ inTx) ∧ bits ≠ 8) ∨ (inRx ∧ isWrite)
    (bad → hostAccess a s = .next { s with responses := s.responses ++ [.busError] }) ∧
    (¬ bad → ∃ t r, hostAccess a s = .next t ∧ t.responses = s.responses ++ [r] ∧ r ≠ .busError)

/-- R22: each CSR at its offset: a 32-bit write keeps exactly the writable bits, an RO CSR ignores it, a read returns the
value with reserved bits 0, CMD reads 0 and a write to it runs the command, every CSR resets to 0, and no other CSR's
write shows in a second one. What a CSR reads is the field of the state the block itself uses (STATUS, whose fields
have a statement of their own, apart), and a write to a CSR other than CMD changes neither buffer nor anything else
beside the RW fields. -/
def Obligations.CsrsKeepTheirWritableBits : Prop :=
  ∀ (s : State) (c : Csr) (x : Word), x.toNat = csrOffset c →
    hostAccess (.rd 32 x) s = .next { s with responses := s.responses ++ [.word (readCsr c s)] } ∧
    readCsr .cmd s = 0 ∧ readCsr c State.reset = 0 ∧
    (c = .cmd → ∀ v : Word, hostAccess (.wr 32 x v) s =
      commandStep v { s with responses := s.responses ++ [.done] }) ∧
    (c ≠ .cmd → ∀ v : Word, ∃ t, hostAccess (.wr 32 x v) s = .next t ∧
      readCsr c t = (if csrWriteMask c = 0 then readCsr c s else v &&& csrWriteMask c) ∧
      (∀ d, d ≠ c → readCsr d t = readCsr d s) ∧
      (csrWriteMask c = 0 → t = { s with responses := s.responses ++ [.done] }) ∧
      (∀ a, Memory.read t.rxBuf a = Memory.read s.rxBuf a ∧ Memory.read t.txBuf a = Memory.read s.txBuf a) ∧
      t = { s with ctrl := t.ctrl, bfxOff := t.bfxOff, bfxLen := t.bfxLen, ckStart := t.ckStart, ckEnd := t.ckEnd,
                   fencType := t.fencType, txLen := t.txLen, responses := s.responses ++ [.done] }) ∧
    (readCsr .ctrl s).toNat = s.ctrl.toNat ∧
    readCsr .bfxOff s = s.bfxOff ∧ (readCsr .bfxLen s).toNat = s.bfxLen.toNat ∧ readCsr .bfxRes s = s.bfxRes ∧
    readCsr .ckStart s = s.ckStart ∧ readCsr .ckEnd s = s.ckEnd ∧
    (readCsr .ck s).toNat = s.ckA.toNat + 256 * s.ckB.toNat ∧
    (readCsr .fencType s).toNat = s.fencType.toNat ∧ readCsr .txLen s = s.txLen ∧
    (readCsr .rxLen s).toNat = s.rxLen.toNat ∧ readCsr .rxCount s = s.rxCount ∧
    (readCsr .rxck s).toNat = s.rxckA.toNat + 256 * s.rxckB.toNat

/-- R56's reads: a host read changes nothing but the response it is given and, for an 8-bit read of a byte of RX_BUF at
or above RX_COUNT, the model's own count of unspecified bytes drawn, which rises by 1 (the model's choice, log 9). -/
def Obligations.HostReadsChangeNothing : Prop :=
  ∀ (s : State) (bits : Nat) (x : Word), ∃ r : BusResponse,
    hostAccess (.rd bits x) s = .next { s with
      responses := s.responses ++ [r],
      rxDraws :=
        if bits = 8 ∧ 0x00100000 + s.rxCount.toNat ≤ x.toNat ∧ x.toNat < 0x00100000 + rxBufBytes s.params then
          s.rxDraws + 1
        else s.rxDraws }

/-- After R54: only 8-bit accesses reach a buffer; TX_BUF[i] reads as the byte last written there, or as some byte if none
has been, and a write to it leaves every other byte as before; RX_BUF below RX_COUNT reads as SYNC stored it, at or above
RX_COUNT some byte is answered, and a write to it is a bus error. That such a read raises the count of bytes drawn is the
model's choice (log 9), and so is that a write's byte is the low 8 bits of its data (log 13). -/
def Obligations.BufferAccessesReadBack : Prop :=
  (∀ (s : State) (bits i : Nat) (x v : Word), bits ≠ 8 →
    (i < rxBufBytes s.params ∧ x.toNat = 0x00100000 + i) ∨ (i < s.params.txBufBytes ∧ x.toNat = 0x00200000 + i) →
    hostAccess (.rd bits x) s = .next { s with responses := s.responses ++ [.busError] } ∧
    hostAccess (.wr bits x v) s = .next { s with responses := s.responses ++ [.busError] }) ∧
  (∀ (s : State) (j : Nat) (y : Word), j < s.params.txBufBytes → y.toNat = 0x00200000 + j →
    ∃ b, hostAccess (.rd 8 y) s = .next { s with responses := s.responses ++ [.byte b] } ∧
      ∀ c, Memory.read s.txBuf j = some c → b = c) ∧
  (∀ (s : State) (i j : Nat) (x y v : Word), i < s.params.txBufBytes → j < s.params.txBufBytes →
    x.toNat = 0x00200000 + i → y.toNat = 0x00200000 + j →
    ∃ t, hostAccess (.wr 8 x v) s = .next t ∧
      t = { s with txBuf := t.txBuf, responses := s.responses ++ [.done] } ∧
      hostAccess (.rd 8 y) t = .next { t with responses := t.responses ++
        [.byte (if j = i then v.extractLsb' 0 8 else s.txByteAt j)] } ∧
      (∀ k, k ≠ i → Memory.read t.txBuf k = Memory.read s.txBuf k)) ∧
  (∀ (s : State) (i : Nat) (x : Word), i < rxBufBytes s.params → x.toNat = 0x00100000 + i →
    (i < s.rxCount.toNat →
      hostAccess (.rd 8 x) s = .next { s with responses := s.responses ++ [.byte (s.rxByteAt i)] }) ∧
    (s.rxCount.toNat ≤ i →
      ∃ b, hostAccess (.rd 8 x) s =
        .next { s with responses := s.responses ++ [.byte b], rxDraws := s.rxDraws + 1 }) ∧
    (∀ v, hostAccess (.wr 8 x v) s = .next { s with responses := s.responses ++ [.busError] }))

/-- R25's table: every field of STATUS stands at its bits, with the code the table gives each of its values, and the
reserved bits read 0. -/
def Obligations.StatusFieldsStandAtTheirBits : Prop :=
  ∀ s : State,
    (readCsr .status s).extractLsb' 0 4 =
      (match s.cmdErr with | .ok => 0 | .outOfRange => 1 | .illegalCommand => 2 | .stateError => 3) ∧
    (readCsr .status s).extractLsb' 4 3 =
      (match s.syncState with
        | .awaitingMarker => 0 | .readingLength => 1 | .readingBody => 2 | .dispatch => 3 | .failed => 4
        | .stopped => 5) ∧
    (readCsr .status s).getLsbD 7 = false ∧
    (readCsr .status s).extractLsb' 8 2 =
      (match s.failClass with
        | .none => 0 | .transportError => 1 | .protocolViolation => 2 | .resourceLimitExceeded => 3) ∧
    (readCsr .status s).extractLsb' 10 2 =
      (match s.failState with | .awaitingMarker => 0 | .readingLength => 1 | .readingBody => 2) ∧
    (readCsr .status s).extractLsb' 12 3 =
      (match s.failEvent with | .none => 0 | .value => 1 | .eos => 2 | .err => 3 | .timeout => 4) ∧
    (readCsr .status s).getLsbD 15 = false ∧
    ((readCsr .status s).getLsbD 16 = true ↔ s.syncState = .dispatch) ∧
    ((readCsr .status s).getLsbD 17 = true ↔ s.syncState = .failed ∨ s.syncState = .stopped) ∧
    (readCsr .status s).getLsbD 18 = s.closed ∧
    ((readCsr .status s).getLsbD 19 = true ↔ s.syncState = .stopped) ∧
    (readCsr .status s).extractLsb' 20 12 = 0

/-! ### Reset and the invariants -/

/-- R46: the power-on values: every CSR reads 0, both output records are empty and no buffer byte is written; a later
reset keeps both records and leaves RXIN. -/
def Obligations.PowerOnValues : Prop :=
  (∀ c : Csr, readCsr c State.reset = 0) ∧ State.reset.syncState = .awaitingMarker ∧
  State.reset.txout = [] ∧ State.reset.evout = [] ∧
  (∀ i, Memory.read State.reset.rxBuf i = none ∧ Memory.read State.reset.txBuf i = none) ∧
  ∀ s : State, s.assertReset.txout = s.txout ∧ s.assertReset.evout = s.evout ∧ s.assertReset.rxin = s.rxin

/-- R190: reset at any time: every CSR reads 0 and SYNC is in AwaitingMarker, no buffer byte keeps a known value, TXOUT
and EVOUT keep their entries with no `conn_close` added, and RXIN is untouched. -/
def Obligations.ResetActsAsTheRuleSays : Prop :=
  State.reset.txout = [] ∧ State.reset.evout = [] ∧
  ∀ (s : State) (ts : List Turn), s.turns = .reset :: ts →
    ∃ t, step s = .next t ∧ (∀ c : Csr, readCsr c t = 0) ∧ t.syncState = .awaitingMarker ∧ t.cmdErr = .ok ∧
      t.failClass = .none ∧ t.failState = .awaitingMarker ∧ t.failEvent = .none ∧ t.closed = false ∧
      (∀ i, Memory.read t.rxBuf i = none ∧ Memory.read t.txBuf i = none) ∧
      t.txout = s.txout ∧ t.evout = s.evout ∧ t.rxin = s.rxin

/-- The invariants hold right after power-on reset. -/
def Obligations.InvariantsHoldAtReset : Prop := State.reset.Inv

/-- Every step keeps the invariants: the buffers' canonical form and bounds, CLOSED = SESSION_END, the failure record,
SYNC's place in the message, RX_LEN decoded, and RXCK the checksum of what was received. -/
def Obligations.EveryStepKeepsTheInvariants : Prop :=
  ∀ s t : State, s.Inv → step s = .next t → t.Inv

/-- From every state that meets the invariants each step gives a next state, never a fault and never a refusal. The spec
says that waiting is the absence of a step (60_exceptions.md rule R178, 70_reset_and_hazards.md rule R201): where nothing
is pending, or an event waits in Dispatch, Failed or Stopped, the next state is the idle step, the model's choice
(log 4), and no claim that the block makes progress. -/
def Obligations.EveryStepCompletesUnderTheInvariants : Prop :=
  ∀ s : State, s.Inv → ∃ t, step s = .next t
end

