-- ==== Sys2Proof/Laws/State.lean ====
section
/-! SUPPORT. One lemma per field of State per named update: what the update leaves in the field. -/
namespace Sys2Proof.Machine

/-! ### setCk -/

@[simp] theorem State.setCk_ctrl (s : State) (c : Byte × Byte) : (s.setCk c).ctrl = s.ctrl := rfl
@[simp] theorem State.setCk_bfxOff (s : State) (c : Byte × Byte) : (s.setCk c).bfxOff = s.bfxOff := rfl
@[simp] theorem State.setCk_bfxLen (s : State) (c : Byte × Byte) : (s.setCk c).bfxLen = s.bfxLen := rfl
@[simp] theorem State.setCk_bfxRes (s : State) (c : Byte × Byte) : (s.setCk c).bfxRes = s.bfxRes := rfl
@[simp] theorem State.setCk_ckStart (s : State) (c : Byte × Byte) : (s.setCk c).ckStart = s.ckStart := rfl
@[simp] theorem State.setCk_ckEnd (s : State) (c : Byte × Byte) : (s.setCk c).ckEnd = s.ckEnd := rfl
@[simp] theorem State.setCk_ckA (s : State) (c : Byte × Byte) : (s.setCk c).ckA = c.1 := rfl
@[simp] theorem State.setCk_ckB (s : State) (c : Byte × Byte) : (s.setCk c).ckB = c.2 := rfl
@[simp] theorem State.setCk_fencType (s : State) (c : Byte × Byte) : (s.setCk c).fencType = s.fencType := rfl
@[simp] theorem State.setCk_txLen (s : State) (c : Byte × Byte) : (s.setCk c).txLen = s.txLen := rfl
@[simp] theorem State.setCk_rxLen (s : State) (c : Byte × Byte) : (s.setCk c).rxLen = s.rxLen := rfl
@[simp] theorem State.setCk_rxCount (s : State) (c : Byte × Byte) : (s.setCk c).rxCount = s.rxCount := rfl
@[simp] theorem State.setCk_rxckA (s : State) (c : Byte × Byte) : (s.setCk c).rxckA = s.rxckA := rfl
@[simp] theorem State.setCk_rxckB (s : State) (c : Byte × Byte) : (s.setCk c).rxckB = s.rxckB := rfl
@[simp] theorem State.setCk_cmdErr (s : State) (c : Byte × Byte) : (s.setCk c).cmdErr = s.cmdErr := rfl
@[simp] theorem State.setCk_syncState (s : State) (c : Byte × Byte) : (s.setCk c).syncState = s.syncState := rfl
@[simp] theorem State.setCk_failClass (s : State) (c : Byte × Byte) : (s.setCk c).failClass = s.failClass := rfl
@[simp] theorem State.setCk_failState (s : State) (c : Byte × Byte) : (s.setCk c).failState = s.failState := rfl
@[simp] theorem State.setCk_failEvent (s : State) (c : Byte × Byte) : (s.setCk c).failEvent = s.failEvent := rfl
@[simp] theorem State.setCk_closed (s : State) (c : Byte × Byte) : (s.setCk c).closed = s.closed := rfl
@[simp] theorem State.setCk_rxBuf (s : State) (c : Byte × Byte) : (s.setCk c).rxBuf = s.rxBuf := rfl
@[simp] theorem State.setCk_txBuf (s : State) (c : Byte × Byte) : (s.setCk c).txBuf = s.txBuf := rfl
@[simp] theorem State.setCk_txout (s : State) (c : Byte × Byte) : (s.setCk c).txout = s.txout := rfl
@[simp] theorem State.setCk_evout (s : State) (c : Byte × Byte) : (s.setCk c).evout = s.evout := rfl
@[simp] theorem State.setCk_params (s : State) (c : Byte × Byte) : (s.setCk c).params = s.params := rfl
@[simp] theorem State.setCk_hostq (s : State) (c : Byte × Byte) : (s.setCk c).hostq = s.hostq := rfl
@[simp] theorem State.setCk_rxin (s : State) (c : Byte × Byte) : (s.setCk c).rxin = s.rxin := rfl
@[simp] theorem State.setCk_turns (s : State) (c : Byte × Byte) : (s.setCk c).turns = s.turns := rfl
@[simp] theorem State.setCk_responses (s : State) (c : Byte × Byte) : (s.setCk c).responses = s.responses := rfl
@[simp] theorem State.setCk_txEpoch (s : State) (c : Byte × Byte) : (s.setCk c).txEpoch = s.txEpoch := rfl
@[simp] theorem State.setCk_rxDraws (s : State) (c : Byte × Byte) : (s.setCk c).rxDraws = s.rxDraws := rfl

/-! ### setCmdErr -/

@[simp] theorem State.setCmdErr_ctrl (s : State) (e : CmdErr) : (s.setCmdErr e).ctrl = s.ctrl := rfl
@[simp] theorem State.setCmdErr_bfxOff (s : State) (e : CmdErr) : (s.setCmdErr e).bfxOff = s.bfxOff := rfl
@[simp] theorem State.setCmdErr_bfxLen (s : State) (e : CmdErr) : (s.setCmdErr e).bfxLen = s.bfxLen := rfl
@[simp] theorem State.setCmdErr_bfxRes (s : State) (e : CmdErr) : (s.setCmdErr e).bfxRes = s.bfxRes := rfl
@[simp] theorem State.setCmdErr_ckStart (s : State) (e : CmdErr) : (s.setCmdErr e).ckStart = s.ckStart := rfl
@[simp] theorem State.setCmdErr_ckEnd (s : State) (e : CmdErr) : (s.setCmdErr e).ckEnd = s.ckEnd := rfl
@[simp] theorem State.setCmdErr_ckA (s : State) (e : CmdErr) : (s.setCmdErr e).ckA = s.ckA := rfl
@[simp] theorem State.setCmdErr_ckB (s : State) (e : CmdErr) : (s.setCmdErr e).ckB = s.ckB := rfl
@[simp] theorem State.setCmdErr_fencType (s : State) (e : CmdErr) : (s.setCmdErr e).fencType = s.fencType := rfl
@[simp] theorem State.setCmdErr_txLen (s : State) (e : CmdErr) : (s.setCmdErr e).txLen = s.txLen := rfl
@[simp] theorem State.setCmdErr_rxLen (s : State) (e : CmdErr) : (s.setCmdErr e).rxLen = s.rxLen := rfl
@[simp] theorem State.setCmdErr_rxCount (s : State) (e : CmdErr) : (s.setCmdErr e).rxCount = s.rxCount := rfl
@[simp] theorem State.setCmdErr_rxckA (s : State) (e : CmdErr) : (s.setCmdErr e).rxckA = s.rxckA := rfl
@[simp] theorem State.setCmdErr_rxckB (s : State) (e : CmdErr) : (s.setCmdErr e).rxckB = s.rxckB := rfl
@[simp] theorem State.setCmdErr_cmdErr (s : State) (e : CmdErr) : (s.setCmdErr e).cmdErr = e := rfl
@[simp] theorem State.setCmdErr_syncState (s : State) (e : CmdErr) : (s.setCmdErr e).syncState = s.syncState := rfl
@[simp] theorem State.setCmdErr_failClass (s : State) (e : CmdErr) : (s.setCmdErr e).failClass = s.failClass := rfl
@[simp] theorem State.setCmdErr_failState (s : State) (e : CmdErr) : (s.setCmdErr e).failState = s.failState := rfl
@[simp] theorem State.setCmdErr_failEvent (s : State) (e : CmdErr) : (s.setCmdErr e).failEvent = s.failEvent := rfl
@[simp] theorem State.setCmdErr_closed (s : State) (e : CmdErr) : (s.setCmdErr e).closed = s.closed := rfl
@[simp] theorem State.setCmdErr_rxBuf (s : State) (e : CmdErr) : (s.setCmdErr e).rxBuf = s.rxBuf := rfl
@[simp] theorem State.setCmdErr_txBuf (s : State) (e : CmdErr) : (s.setCmdErr e).txBuf = s.txBuf := rfl
@[simp] theorem State.setCmdErr_txout (s : State) (e : CmdErr) : (s.setCmdErr e).txout = s.txout := rfl
@[simp] theorem State.setCmdErr_evout (s : State) (e : CmdErr) : (s.setCmdErr e).evout = s.evout := rfl
@[simp] theorem State.setCmdErr_params (s : State) (e : CmdErr) : (s.setCmdErr e).params = s.params := rfl
@[simp] theorem State.setCmdErr_hostq (s : State) (e : CmdErr) : (s.setCmdErr e).hostq = s.hostq := rfl
@[simp] theorem State.setCmdErr_rxin (s : State) (e : CmdErr) : (s.setCmdErr e).rxin = s.rxin := rfl
@[simp] theorem State.setCmdErr_turns (s : State) (e : CmdErr) : (s.setCmdErr e).turns = s.turns := rfl
@[simp] theorem State.setCmdErr_responses (s : State) (e : CmdErr) : (s.setCmdErr e).responses = s.responses := rfl
@[simp] theorem State.setCmdErr_txEpoch (s : State) (e : CmdErr) : (s.setCmdErr e).txEpoch = s.txEpoch := rfl
@[simp] theorem State.setCmdErr_rxDraws (s : State) (e : CmdErr) : (s.setCmdErr e).rxDraws = s.rxDraws := rfl

/-! ### setBfxRes -/

@[simp] theorem State.setBfxRes_ctrl (s : State) (v : Word) : (s.setBfxRes v).ctrl = s.ctrl := rfl
@[simp] theorem State.setBfxRes_bfxOff (s : State) (v : Word) : (s.setBfxRes v).bfxOff = s.bfxOff := rfl
@[simp] theorem State.setBfxRes_bfxLen (s : State) (v : Word) : (s.setBfxRes v).bfxLen = s.bfxLen := rfl
@[simp] theorem State.setBfxRes_bfxRes (s : State) (v : Word) : (s.setBfxRes v).bfxRes = v := rfl
@[simp] theorem State.setBfxRes_ckStart (s : State) (v : Word) : (s.setBfxRes v).ckStart = s.ckStart := rfl
@[simp] theorem State.setBfxRes_ckEnd (s : State) (v : Word) : (s.setBfxRes v).ckEnd = s.ckEnd := rfl
@[simp] theorem State.setBfxRes_ckA (s : State) (v : Word) : (s.setBfxRes v).ckA = s.ckA := rfl
@[simp] theorem State.setBfxRes_ckB (s : State) (v : Word) : (s.setBfxRes v).ckB = s.ckB := rfl
@[simp] theorem State.setBfxRes_fencType (s : State) (v : Word) : (s.setBfxRes v).fencType = s.fencType := rfl
@[simp] theorem State.setBfxRes_txLen (s : State) (v : Word) : (s.setBfxRes v).txLen = s.txLen := rfl
@[simp] theorem State.setBfxRes_rxLen (s : State) (v : Word) : (s.setBfxRes v).rxLen = s.rxLen := rfl
@[simp] theorem State.setBfxRes_rxCount (s : State) (v : Word) : (s.setBfxRes v).rxCount = s.rxCount := rfl
@[simp] theorem State.setBfxRes_rxckA (s : State) (v : Word) : (s.setBfxRes v).rxckA = s.rxckA := rfl
@[simp] theorem State.setBfxRes_rxckB (s : State) (v : Word) : (s.setBfxRes v).rxckB = s.rxckB := rfl
@[simp] theorem State.setBfxRes_cmdErr (s : State) (v : Word) : (s.setBfxRes v).cmdErr = s.cmdErr := rfl
@[simp] theorem State.setBfxRes_syncState (s : State) (v : Word) : (s.setBfxRes v).syncState = s.syncState := rfl
@[simp] theorem State.setBfxRes_failClass (s : State) (v : Word) : (s.setBfxRes v).failClass = s.failClass := rfl
@[simp] theorem State.setBfxRes_failState (s : State) (v : Word) : (s.setBfxRes v).failState = s.failState := rfl
@[simp] theorem State.setBfxRes_failEvent (s : State) (v : Word) : (s.setBfxRes v).failEvent = s.failEvent := rfl
@[simp] theorem State.setBfxRes_closed (s : State) (v : Word) : (s.setBfxRes v).closed = s.closed := rfl
@[simp] theorem State.setBfxRes_rxBuf (s : State) (v : Word) : (s.setBfxRes v).rxBuf = s.rxBuf := rfl
@[simp] theorem State.setBfxRes_txBuf (s : State) (v : Word) : (s.setBfxRes v).txBuf = s.txBuf := rfl
@[simp] theorem State.setBfxRes_txout (s : State) (v : Word) : (s.setBfxRes v).txout = s.txout := rfl
@[simp] theorem State.setBfxRes_evout (s : State) (v : Word) : (s.setBfxRes v).evout = s.evout := rfl
@[simp] theorem State.setBfxRes_params (s : State) (v : Word) : (s.setBfxRes v).params = s.params := rfl
@[simp] theorem State.setBfxRes_hostq (s : State) (v : Word) : (s.setBfxRes v).hostq = s.hostq := rfl
@[simp] theorem State.setBfxRes_rxin (s : State) (v : Word) : (s.setBfxRes v).rxin = s.rxin := rfl
@[simp] theorem State.setBfxRes_turns (s : State) (v : Word) : (s.setBfxRes v).turns = s.turns := rfl
@[simp] theorem State.setBfxRes_responses (s : State) (v : Word) : (s.setBfxRes v).responses = s.responses := rfl
@[simp] theorem State.setBfxRes_txEpoch (s : State) (v : Word) : (s.setBfxRes v).txEpoch = s.txEpoch := rfl
@[simp] theorem State.setBfxRes_rxDraws (s : State) (v : Word) : (s.setBfxRes v).rxDraws = s.rxDraws := rfl

/-! ### emit -/

@[simp] theorem State.emit_ctrl (s : State) (bytes : List Byte) : (s.emit bytes).ctrl = s.ctrl := rfl
@[simp] theorem State.emit_bfxOff (s : State) (bytes : List Byte) : (s.emit bytes).bfxOff = s.bfxOff := rfl
@[simp] theorem State.emit_bfxLen (s : State) (bytes : List Byte) : (s.emit bytes).bfxLen = s.bfxLen := rfl
@[simp] theorem State.emit_bfxRes (s : State) (bytes : List Byte) : (s.emit bytes).bfxRes = s.bfxRes := rfl
@[simp] theorem State.emit_ckStart (s : State) (bytes : List Byte) : (s.emit bytes).ckStart = s.ckStart := rfl
@[simp] theorem State.emit_ckEnd (s : State) (bytes : List Byte) : (s.emit bytes).ckEnd = s.ckEnd := rfl
@[simp] theorem State.emit_ckA (s : State) (bytes : List Byte) : (s.emit bytes).ckA = s.ckA := rfl
@[simp] theorem State.emit_ckB (s : State) (bytes : List Byte) : (s.emit bytes).ckB = s.ckB := rfl
@[simp] theorem State.emit_fencType (s : State) (bytes : List Byte) : (s.emit bytes).fencType = s.fencType := rfl
@[simp] theorem State.emit_txLen (s : State) (bytes : List Byte) : (s.emit bytes).txLen = s.txLen := rfl
@[simp] theorem State.emit_rxLen (s : State) (bytes : List Byte) : (s.emit bytes).rxLen = s.rxLen := rfl
@[simp] theorem State.emit_rxCount (s : State) (bytes : List Byte) : (s.emit bytes).rxCount = s.rxCount := rfl
@[simp] theorem State.emit_rxckA (s : State) (bytes : List Byte) : (s.emit bytes).rxckA = s.rxckA := rfl
@[simp] theorem State.emit_rxckB (s : State) (bytes : List Byte) : (s.emit bytes).rxckB = s.rxckB := rfl
@[simp] theorem State.emit_cmdErr (s : State) (bytes : List Byte) : (s.emit bytes).cmdErr = s.cmdErr := rfl
@[simp] theorem State.emit_syncState (s : State) (bytes : List Byte) : (s.emit bytes).syncState = s.syncState := rfl
@[simp] theorem State.emit_failClass (s : State) (bytes : List Byte) : (s.emit bytes).failClass = s.failClass := rfl
@[simp] theorem State.emit_failState (s : State) (bytes : List Byte) : (s.emit bytes).failState = s.failState := rfl
@[simp] theorem State.emit_failEvent (s : State) (bytes : List Byte) : (s.emit bytes).failEvent = s.failEvent := rfl
@[simp] theorem State.emit_closed (s : State) (bytes : List Byte) : (s.emit bytes).closed = s.closed := rfl
@[simp] theorem State.emit_rxBuf (s : State) (bytes : List Byte) : (s.emit bytes).rxBuf = s.rxBuf := rfl
@[simp] theorem State.emit_txBuf (s : State) (bytes : List Byte) : (s.emit bytes).txBuf = s.txBuf := rfl
@[simp] theorem State.emit_txout (s : State) (bytes : List Byte) : (s.emit bytes).txout = s.txout ++ bytes := rfl
@[simp] theorem State.emit_evout (s : State) (bytes : List Byte) : (s.emit bytes).evout = s.evout := rfl
@[simp] theorem State.emit_params (s : State) (bytes : List Byte) : (s.emit bytes).params = s.params := rfl
@[simp] theorem State.emit_hostq (s : State) (bytes : List Byte) : (s.emit bytes).hostq = s.hostq := rfl
@[simp] theorem State.emit_rxin (s : State) (bytes : List Byte) : (s.emit bytes).rxin = s.rxin := rfl
@[simp] theorem State.emit_turns (s : State) (bytes : List Byte) : (s.emit bytes).turns = s.turns := rfl
@[simp] theorem State.emit_responses (s : State) (bytes : List Byte) : (s.emit bytes).responses = s.responses := rfl
@[simp] theorem State.emit_txEpoch (s : State) (bytes : List Byte) : (s.emit bytes).txEpoch = s.txEpoch := rfl
@[simp] theorem State.emit_rxDraws (s : State) (bytes : List Byte) : (s.emit bytes).rxDraws = s.rxDraws := rfl

/-! ### close -/

@[simp] theorem State.close_ctrl (s : State) : (s.close).ctrl = s.ctrl := rfl
@[simp] theorem State.close_bfxOff (s : State) : (s.close).bfxOff = s.bfxOff := rfl
@[simp] theorem State.close_bfxLen (s : State) : (s.close).bfxLen = s.bfxLen := rfl
@[simp] theorem State.close_bfxRes (s : State) : (s.close).bfxRes = s.bfxRes := rfl
@[simp] theorem State.close_ckStart (s : State) : (s.close).ckStart = s.ckStart := rfl
@[simp] theorem State.close_ckEnd (s : State) : (s.close).ckEnd = s.ckEnd := rfl
@[simp] theorem State.close_ckA (s : State) : (s.close).ckA = s.ckA := rfl
@[simp] theorem State.close_ckB (s : State) : (s.close).ckB = s.ckB := rfl
@[simp] theorem State.close_fencType (s : State) : (s.close).fencType = s.fencType := rfl
@[simp] theorem State.close_txLen (s : State) : (s.close).txLen = s.txLen := rfl
@[simp] theorem State.close_rxLen (s : State) : (s.close).rxLen = s.rxLen := rfl
@[simp] theorem State.close_rxCount (s : State) : (s.close).rxCount = s.rxCount := rfl
@[simp] theorem State.close_rxckA (s : State) : (s.close).rxckA = s.rxckA := rfl
@[simp] theorem State.close_rxckB (s : State) : (s.close).rxckB = s.rxckB := rfl
@[simp] theorem State.close_cmdErr (s : State) : (s.close).cmdErr = s.cmdErr := rfl
@[simp] theorem State.close_syncState (s : State) : (s.close).syncState = s.syncState := rfl
@[simp] theorem State.close_failClass (s : State) : (s.close).failClass = s.failClass := rfl
@[simp] theorem State.close_failState (s : State) : (s.close).failState = s.failState := rfl
@[simp] theorem State.close_failEvent (s : State) : (s.close).failEvent = s.failEvent := rfl
@[simp] theorem State.close_closed (s : State) : (s.close).closed = s.closed := rfl
@[simp] theorem State.close_rxBuf (s : State) : (s.close).rxBuf = s.rxBuf := rfl
@[simp] theorem State.close_txBuf (s : State) : (s.close).txBuf = s.txBuf := rfl
@[simp] theorem State.close_txout (s : State) : (s.close).txout = s.txout := rfl
@[simp] theorem State.close_evout (s : State) : (s.close).evout = s.evout ++ [.connClose] := rfl
@[simp] theorem State.close_params (s : State) : (s.close).params = s.params := rfl
@[simp] theorem State.close_hostq (s : State) : (s.close).hostq = s.hostq := rfl
@[simp] theorem State.close_rxin (s : State) : (s.close).rxin = s.rxin := rfl
@[simp] theorem State.close_turns (s : State) : (s.close).turns = s.turns := rfl
@[simp] theorem State.close_responses (s : State) : (s.close).responses = s.responses := rfl
@[simp] theorem State.close_txEpoch (s : State) : (s.close).txEpoch = s.txEpoch := rfl
@[simp] theorem State.close_rxDraws (s : State) : (s.close).rxDraws = s.rxDraws := rfl

/-! ### respond -/

@[simp] theorem State.respond_ctrl (s : State) (r : BusResponse) : (s.respond r).ctrl = s.ctrl := rfl
@[simp] theorem State.respond_bfxOff (s : State) (r : BusResponse) : (s.respond r).bfxOff = s.bfxOff := rfl
@[simp] theorem State.respond_bfxLen (s : State) (r : BusResponse) : (s.respond r).bfxLen = s.bfxLen := rfl
@[simp] theorem State.respond_bfxRes (s : State) (r : BusResponse) : (s.respond r).bfxRes = s.bfxRes := rfl
@[simp] theorem State.respond_ckStart (s : State) (r : BusResponse) : (s.respond r).ckStart = s.ckStart := rfl
@[simp] theorem State.respond_ckEnd (s : State) (r : BusResponse) : (s.respond r).ckEnd = s.ckEnd := rfl
@[simp] theorem State.respond_ckA (s : State) (r : BusResponse) : (s.respond r).ckA = s.ckA := rfl
@[simp] theorem State.respond_ckB (s : State) (r : BusResponse) : (s.respond r).ckB = s.ckB := rfl
@[simp] theorem State.respond_fencType (s : State) (r : BusResponse) : (s.respond r).fencType = s.fencType := rfl
@[simp] theorem State.respond_txLen (s : State) (r : BusResponse) : (s.respond r).txLen = s.txLen := rfl
@[simp] theorem State.respond_rxLen (s : State) (r : BusResponse) : (s.respond r).rxLen = s.rxLen := rfl
@[simp] theorem State.respond_rxCount (s : State) (r : BusResponse) : (s.respond r).rxCount = s.rxCount := rfl
@[simp] theorem State.respond_rxckA (s : State) (r : BusResponse) : (s.respond r).rxckA = s.rxckA := rfl
@[simp] theorem State.respond_rxckB (s : State) (r : BusResponse) : (s.respond r).rxckB = s.rxckB := rfl
@[simp] theorem State.respond_cmdErr (s : State) (r : BusResponse) : (s.respond r).cmdErr = s.cmdErr := rfl
@[simp] theorem State.respond_syncState (s : State) (r : BusResponse) : (s.respond r).syncState = s.syncState := rfl
@[simp] theorem State.respond_failClass (s : State) (r : BusResponse) : (s.respond r).failClass = s.failClass := rfl
@[simp] theorem State.respond_failState (s : State) (r : BusResponse) : (s.respond r).failState = s.failState := rfl
@[simp] theorem State.respond_failEvent (s : State) (r : BusResponse) : (s.respond r).failEvent = s.failEvent := rfl
@[simp] theorem State.respond_closed (s : State) (r : BusResponse) : (s.respond r).closed = s.closed := rfl
@[simp] theorem State.respond_rxBuf (s : State) (r : BusResponse) : (s.respond r).rxBuf = s.rxBuf := rfl
@[simp] theorem State.respond_txBuf (s : State) (r : BusResponse) : (s.respond r).txBuf = s.txBuf := rfl
@[simp] theorem State.respond_txout (s : State) (r : BusResponse) : (s.respond r).txout = s.txout := rfl
@[simp] theorem State.respond_evout (s : State) (r : BusResponse) : (s.respond r).evout = s.evout := rfl
@[simp] theorem State.respond_params (s : State) (r : BusResponse) : (s.respond r).params = s.params := rfl
@[simp] theorem State.respond_hostq (s : State) (r : BusResponse) : (s.respond r).hostq = s.hostq := rfl
@[simp] theorem State.respond_rxin (s : State) (r : BusResponse) : (s.respond r).rxin = s.rxin := rfl
@[simp] theorem State.respond_turns (s : State) (r : BusResponse) : (s.respond r).turns = s.turns := rfl
@[simp] theorem State.respond_responses (s : State) (r : BusResponse) : (s.respond r).responses = s.responses ++ [r] := rfl
@[simp] theorem State.respond_txEpoch (s : State) (r : BusResponse) : (s.respond r).txEpoch = s.txEpoch := rfl
@[simp] theorem State.respond_rxDraws (s : State) (r : BusResponse) : (s.respond r).rxDraws = s.rxDraws := rfl

/-! ### writeTx -/

@[simp] theorem State.writeTx_ctrl (s : State) (i : Nat) (v : Byte) : (s.writeTx i v).ctrl = s.ctrl := rfl
@[simp] theorem State.writeTx_bfxOff (s : State) (i : Nat) (v : Byte) : (s.writeTx i v).bfxOff = s.bfxOff := rfl
@[simp] theorem State.writeTx_bfxLen (s : State) (i : Nat) (v : Byte) : (s.writeTx i v).bfxLen = s.bfxLen := rfl
@[simp] theorem State.writeTx_bfxRes (s : State) (i : Nat) (v : Byte) : (s.writeTx i v).bfxRes = s.bfxRes := rfl
@[simp] theorem State.writeTx_ckStart (s : State) (i : Nat) (v : Byte) : (s.writeTx i v).ckStart = s.ckStart := rfl
@[simp] theorem State.writeTx_ckEnd (s : State) (i : Nat) (v : Byte) : (s.writeTx i v).ckEnd = s.ckEnd := rfl
@[simp] theorem State.writeTx_ckA (s : State) (i : Nat) (v : Byte) : (s.writeTx i v).ckA = s.ckA := rfl
@[simp] theorem State.writeTx_ckB (s : State) (i : Nat) (v : Byte) : (s.writeTx i v).ckB = s.ckB := rfl
@[simp] theorem State.writeTx_fencType (s : State) (i : Nat) (v : Byte) : (s.writeTx i v).fencType = s.fencType := rfl
@[simp] theorem State.writeTx_txLen (s : State) (i : Nat) (v : Byte) : (s.writeTx i v).txLen = s.txLen := rfl
@[simp] theorem State.writeTx_rxLen (s : State) (i : Nat) (v : Byte) : (s.writeTx i v).rxLen = s.rxLen := rfl
@[simp] theorem State.writeTx_rxCount (s : State) (i : Nat) (v : Byte) : (s.writeTx i v).rxCount = s.rxCount := rfl
@[simp] theorem State.writeTx_rxckA (s : State) (i : Nat) (v : Byte) : (s.writeTx i v).rxckA = s.rxckA := rfl
@[simp] theorem State.writeTx_rxckB (s : State) (i : Nat) (v : Byte) : (s.writeTx i v).rxckB = s.rxckB := rfl
@[simp] theorem State.writeTx_cmdErr (s : State) (i : Nat) (v : Byte) : (s.writeTx i v).cmdErr = s.cmdErr := rfl
@[simp] theorem State.writeTx_syncState (s : State) (i : Nat) (v : Byte) : (s.writeTx i v).syncState = s.syncState := rfl
@[simp] theorem State.writeTx_failClass (s : State) (i : Nat) (v : Byte) : (s.writeTx i v).failClass = s.failClass := rfl
@[simp] theorem State.writeTx_failState (s : State) (i : Nat) (v : Byte) : (s.writeTx i v).failState = s.failState := rfl
@[simp] theorem State.writeTx_failEvent (s : State) (i : Nat) (v : Byte) : (s.writeTx i v).failEvent = s.failEvent := rfl
@[simp] theorem State.writeTx_closed (s : State) (i : Nat) (v : Byte) : (s.writeTx i v).closed = s.closed := rfl
@[simp] theorem State.writeTx_rxBuf (s : State) (i : Nat) (v : Byte) : (s.writeTx i v).rxBuf = s.rxBuf := rfl
@[simp] theorem State.writeTx_txBuf (s : State) (i : Nat) (v : Byte) : (s.writeTx i v).txBuf = Memory.write s.txBuf i v := rfl
@[simp] theorem State.writeTx_txout (s : State) (i : Nat) (v : Byte) : (s.writeTx i v).txout = s.txout := rfl
@[simp] theorem State.writeTx_evout (s : State) (i : Nat) (v : Byte) : (s.writeTx i v).evout = s.evout := rfl
@[simp] theorem State.writeTx_params (s : State) (i : Nat) (v : Byte) : (s.writeTx i v).params = s.params := rfl
@[simp] theorem State.writeTx_hostq (s : State) (i : Nat) (v : Byte) : (s.writeTx i v).hostq = s.hostq := rfl
@[simp] theorem State.writeTx_rxin (s : State) (i : Nat) (v : Byte) : (s.writeTx i v).rxin = s.rxin := rfl
@[simp] theorem State.writeTx_turns (s : State) (i : Nat) (v : Byte) : (s.writeTx i v).turns = s.turns := rfl
@[simp] theorem State.writeTx_responses (s : State) (i : Nat) (v : Byte) : (s.writeTx i v).responses = s.responses := rfl
@[simp] theorem State.writeTx_txEpoch (s : State) (i : Nat) (v : Byte) : (s.writeTx i v).txEpoch = s.txEpoch := rfl
@[simp] theorem State.writeTx_rxDraws (s : State) (i : Nat) (v : Byte) : (s.writeTx i v).rxDraws = s.rxDraws := rfl

/-! ### storeRx -/

@[simp] theorem State.storeRx_ctrl (s : State) (v : Byte) : (s.storeRx v).ctrl = s.ctrl := rfl
@[simp] theorem State.storeRx_bfxOff (s : State) (v : Byte) : (s.storeRx v).bfxOff = s.bfxOff := rfl
@[simp] theorem State.storeRx_bfxLen (s : State) (v : Byte) : (s.storeRx v).bfxLen = s.bfxLen := rfl
@[simp] theorem State.storeRx_bfxRes (s : State) (v : Byte) : (s.storeRx v).bfxRes = s.bfxRes := rfl
@[simp] theorem State.storeRx_ckStart (s : State) (v : Byte) : (s.storeRx v).ckStart = s.ckStart := rfl
@[simp] theorem State.storeRx_ckEnd (s : State) (v : Byte) : (s.storeRx v).ckEnd = s.ckEnd := rfl
@[simp] theorem State.storeRx_ckA (s : State) (v : Byte) : (s.storeRx v).ckA = s.ckA := rfl
@[simp] theorem State.storeRx_ckB (s : State) (v : Byte) : (s.storeRx v).ckB = s.ckB := rfl
@[simp] theorem State.storeRx_fencType (s : State) (v : Byte) : (s.storeRx v).fencType = s.fencType := rfl
@[simp] theorem State.storeRx_txLen (s : State) (v : Byte) : (s.storeRx v).txLen = s.txLen := rfl
@[simp] theorem State.storeRx_rxLen (s : State) (v : Byte) : (s.storeRx v).rxLen = s.rxLen := rfl
@[simp] theorem State.storeRx_rxCount (s : State) (v : Byte) : (s.storeRx v).rxCount = s.rxCount + 1 := rfl
@[simp] theorem State.storeRx_rxckA (s : State) (v : Byte) : (s.storeRx v).rxckA = s.rxckA := rfl
@[simp] theorem State.storeRx_rxckB (s : State) (v : Byte) : (s.storeRx v).rxckB = s.rxckB := rfl
@[simp] theorem State.storeRx_cmdErr (s : State) (v : Byte) : (s.storeRx v).cmdErr = s.cmdErr := rfl
@[simp] theorem State.storeRx_syncState (s : State) (v : Byte) : (s.storeRx v).syncState = s.syncState := rfl
@[simp] theorem State.storeRx_failClass (s : State) (v : Byte) : (s.storeRx v).failClass = s.failClass := rfl
@[simp] theorem State.storeRx_failState (s : State) (v : Byte) : (s.storeRx v).failState = s.failState := rfl
@[simp] theorem State.storeRx_failEvent (s : State) (v : Byte) : (s.storeRx v).failEvent = s.failEvent := rfl
@[simp] theorem State.storeRx_closed (s : State) (v : Byte) : (s.storeRx v).closed = s.closed := rfl
@[simp] theorem State.storeRx_rxBuf (s : State) (v : Byte) : (s.storeRx v).rxBuf = Memory.write s.rxBuf s.rxCount.toNat v := rfl
@[simp] theorem State.storeRx_txBuf (s : State) (v : Byte) : (s.storeRx v).txBuf = s.txBuf := rfl
@[simp] theorem State.storeRx_txout (s : State) (v : Byte) : (s.storeRx v).txout = s.txout := rfl
@[simp] theorem State.storeRx_evout (s : State) (v : Byte) : (s.storeRx v).evout = s.evout := rfl
@[simp] theorem State.storeRx_params (s : State) (v : Byte) : (s.storeRx v).params = s.params := rfl
@[simp] theorem State.storeRx_hostq (s : State) (v : Byte) : (s.storeRx v).hostq = s.hostq := rfl
@[simp] theorem State.storeRx_rxin (s : State) (v : Byte) : (s.storeRx v).rxin = s.rxin := rfl
@[simp] theorem State.storeRx_turns (s : State) (v : Byte) : (s.storeRx v).turns = s.turns := rfl
@[simp] theorem State.storeRx_responses (s : State) (v : Byte) : (s.storeRx v).responses = s.responses := rfl
@[simp] theorem State.storeRx_txEpoch (s : State) (v : Byte) : (s.storeRx v).txEpoch = s.txEpoch := rfl
@[simp] theorem State.storeRx_rxDraws (s : State) (v : Byte) : (s.storeRx v).rxDraws = s.rxDraws := rfl

/-! ### rxCk -/

@[simp] theorem State.rxCk_ctrl (s : State) (b : Byte) : (s.rxCk b).ctrl = s.ctrl := rfl
@[simp] theorem State.rxCk_bfxOff (s : State) (b : Byte) : (s.rxCk b).bfxOff = s.bfxOff := rfl
@[simp] theorem State.rxCk_bfxLen (s : State) (b : Byte) : (s.rxCk b).bfxLen = s.bfxLen := rfl
@[simp] theorem State.rxCk_bfxRes (s : State) (b : Byte) : (s.rxCk b).bfxRes = s.bfxRes := rfl
@[simp] theorem State.rxCk_ckStart (s : State) (b : Byte) : (s.rxCk b).ckStart = s.ckStart := rfl
@[simp] theorem State.rxCk_ckEnd (s : State) (b : Byte) : (s.rxCk b).ckEnd = s.ckEnd := rfl
@[simp] theorem State.rxCk_ckA (s : State) (b : Byte) : (s.rxCk b).ckA = s.ckA := rfl
@[simp] theorem State.rxCk_ckB (s : State) (b : Byte) : (s.rxCk b).ckB = s.ckB := rfl
@[simp] theorem State.rxCk_fencType (s : State) (b : Byte) : (s.rxCk b).fencType = s.fencType := rfl
@[simp] theorem State.rxCk_txLen (s : State) (b : Byte) : (s.rxCk b).txLen = s.txLen := rfl
@[simp] theorem State.rxCk_rxLen (s : State) (b : Byte) : (s.rxCk b).rxLen = s.rxLen := rfl
@[simp] theorem State.rxCk_rxCount (s : State) (b : Byte) : (s.rxCk b).rxCount = s.rxCount := rfl
@[simp] theorem State.rxCk_rxckA (s : State) (b : Byte) : (s.rxCk b).rxckA = (ckStep (s.rxckA, s.rxckB) b).1 := rfl
@[simp] theorem State.rxCk_rxckB (s : State) (b : Byte) : (s.rxCk b).rxckB = (ckStep (s.rxckA, s.rxckB) b).2 := rfl
@[simp] theorem State.rxCk_cmdErr (s : State) (b : Byte) : (s.rxCk b).cmdErr = s.cmdErr := rfl
@[simp] theorem State.rxCk_syncState (s : State) (b : Byte) : (s.rxCk b).syncState = s.syncState := rfl
@[simp] theorem State.rxCk_failClass (s : State) (b : Byte) : (s.rxCk b).failClass = s.failClass := rfl
@[simp] theorem State.rxCk_failState (s : State) (b : Byte) : (s.rxCk b).failState = s.failState := rfl
@[simp] theorem State.rxCk_failEvent (s : State) (b : Byte) : (s.rxCk b).failEvent = s.failEvent := rfl
@[simp] theorem State.rxCk_closed (s : State) (b : Byte) : (s.rxCk b).closed = s.closed := rfl
@[simp] theorem State.rxCk_rxBuf (s : State) (b : Byte) : (s.rxCk b).rxBuf = s.rxBuf := rfl
@[simp] theorem State.rxCk_txBuf (s : State) (b : Byte) : (s.rxCk b).txBuf = s.txBuf := rfl
@[simp] theorem State.rxCk_txout (s : State) (b : Byte) : (s.rxCk b).txout = s.txout := rfl
@[simp] theorem State.rxCk_evout (s : State) (b : Byte) : (s.rxCk b).evout = s.evout := rfl
@[simp] theorem State.rxCk_params (s : State) (b : Byte) : (s.rxCk b).params = s.params := rfl
@[simp] theorem State.rxCk_hostq (s : State) (b : Byte) : (s.rxCk b).hostq = s.hostq := rfl
@[simp] theorem State.rxCk_rxin (s : State) (b : Byte) : (s.rxCk b).rxin = s.rxin := rfl
@[simp] theorem State.rxCk_turns (s : State) (b : Byte) : (s.rxCk b).turns = s.turns := rfl
@[simp] theorem State.rxCk_responses (s : State) (b : Byte) : (s.rxCk b).responses = s.responses := rfl
@[simp] theorem State.rxCk_txEpoch (s : State) (b : Byte) : (s.rxCk b).txEpoch = s.txEpoch := rfl
@[simp] theorem State.rxCk_rxDraws (s : State) (b : Byte) : (s.rxCk b).rxDraws = s.rxDraws := rfl

/-! ### consumeEvent -/

@[simp] theorem State.consumeEvent_ctrl (s : State) : (s.consumeEvent).ctrl = s.ctrl := rfl
@[simp] theorem State.consumeEvent_bfxOff (s : State) : (s.consumeEvent).bfxOff = s.bfxOff := rfl
@[simp] theorem State.consumeEvent_bfxLen (s : State) : (s.consumeEvent).bfxLen = s.bfxLen := rfl
@[simp] theorem State.consumeEvent_bfxRes (s : State) : (s.consumeEvent).bfxRes = s.bfxRes := rfl
@[simp] theorem State.consumeEvent_ckStart (s : State) : (s.consumeEvent).ckStart = s.ckStart := rfl
@[simp] theorem State.consumeEvent_ckEnd (s : State) : (s.consumeEvent).ckEnd = s.ckEnd := rfl
@[simp] theorem State.consumeEvent_ckA (s : State) : (s.consumeEvent).ckA = s.ckA := rfl
@[simp] theorem State.consumeEvent_ckB (s : State) : (s.consumeEvent).ckB = s.ckB := rfl
@[simp] theorem State.consumeEvent_fencType (s : State) : (s.consumeEvent).fencType = s.fencType := rfl
@[simp] theorem State.consumeEvent_txLen (s : State) : (s.consumeEvent).txLen = s.txLen := rfl
@[simp] theorem State.consumeEvent_rxLen (s : State) : (s.consumeEvent).rxLen = s.rxLen := rfl
@[simp] theorem State.consumeEvent_rxCount (s : State) : (s.consumeEvent).rxCount = s.rxCount := rfl
@[simp] theorem State.consumeEvent_rxckA (s : State) : (s.consumeEvent).rxckA = s.rxckA := rfl
@[simp] theorem State.consumeEvent_rxckB (s : State) : (s.consumeEvent).rxckB = s.rxckB := rfl
@[simp] theorem State.consumeEvent_cmdErr (s : State) : (s.consumeEvent).cmdErr = s.cmdErr := rfl
@[simp] theorem State.consumeEvent_syncState (s : State) : (s.consumeEvent).syncState = s.syncState := rfl
@[simp] theorem State.consumeEvent_failClass (s : State) : (s.consumeEvent).failClass = s.failClass := rfl
@[simp] theorem State.consumeEvent_failState (s : State) : (s.consumeEvent).failState = s.failState := rfl
@[simp] theorem State.consumeEvent_failEvent (s : State) : (s.consumeEvent).failEvent = s.failEvent := rfl
@[simp] theorem State.consumeEvent_closed (s : State) : (s.consumeEvent).closed = s.closed := rfl
@[simp] theorem State.consumeEvent_rxBuf (s : State) : (s.consumeEvent).rxBuf = s.rxBuf := rfl
@[simp] theorem State.consumeEvent_txBuf (s : State) : (s.consumeEvent).txBuf = s.txBuf := rfl
@[simp] theorem State.consumeEvent_txout (s : State) : (s.consumeEvent).txout = s.txout := rfl
@[simp] theorem State.consumeEvent_evout (s : State) : (s.consumeEvent).evout = s.evout := rfl
@[simp] theorem State.consumeEvent_params (s : State) : (s.consumeEvent).params = s.params := rfl
@[simp] theorem State.consumeEvent_hostq (s : State) : (s.consumeEvent).hostq = s.hostq := rfl
@[simp] theorem State.consumeEvent_rxin (s : State) : (s.consumeEvent).rxin = s.rxin.tail := rfl
@[simp] theorem State.consumeEvent_turns (s : State) : (s.consumeEvent).turns = s.turns := rfl
@[simp] theorem State.consumeEvent_responses (s : State) : (s.consumeEvent).responses = s.responses := rfl
@[simp] theorem State.consumeEvent_txEpoch (s : State) : (s.consumeEvent).txEpoch = s.txEpoch := rfl
@[simp] theorem State.consumeEvent_rxDraws (s : State) : (s.consumeEvent).rxDraws = s.rxDraws := rfl

/-! ### setSync -/

@[simp] theorem State.setSync_ctrl (s : State) (st : SyncState) : (s.setSync st).ctrl = s.ctrl := rfl
@[simp] theorem State.setSync_bfxOff (s : State) (st : SyncState) : (s.setSync st).bfxOff = s.bfxOff := rfl
@[simp] theorem State.setSync_bfxLen (s : State) (st : SyncState) : (s.setSync st).bfxLen = s.bfxLen := rfl
@[simp] theorem State.setSync_bfxRes (s : State) (st : SyncState) : (s.setSync st).bfxRes = s.bfxRes := rfl
@[simp] theorem State.setSync_ckStart (s : State) (st : SyncState) : (s.setSync st).ckStart = s.ckStart := rfl
@[simp] theorem State.setSync_ckEnd (s : State) (st : SyncState) : (s.setSync st).ckEnd = s.ckEnd := rfl
@[simp] theorem State.setSync_ckA (s : State) (st : SyncState) : (s.setSync st).ckA = s.ckA := rfl
@[simp] theorem State.setSync_ckB (s : State) (st : SyncState) : (s.setSync st).ckB = s.ckB := rfl
@[simp] theorem State.setSync_fencType (s : State) (st : SyncState) : (s.setSync st).fencType = s.fencType := rfl
@[simp] theorem State.setSync_txLen (s : State) (st : SyncState) : (s.setSync st).txLen = s.txLen := rfl
@[simp] theorem State.setSync_rxLen (s : State) (st : SyncState) : (s.setSync st).rxLen = s.rxLen := rfl
@[simp] theorem State.setSync_rxCount (s : State) (st : SyncState) : (s.setSync st).rxCount = s.rxCount := rfl
@[simp] theorem State.setSync_rxckA (s : State) (st : SyncState) : (s.setSync st).rxckA = s.rxckA := rfl
@[simp] theorem State.setSync_rxckB (s : State) (st : SyncState) : (s.setSync st).rxckB = s.rxckB := rfl
@[simp] theorem State.setSync_cmdErr (s : State) (st : SyncState) : (s.setSync st).cmdErr = s.cmdErr := rfl
@[simp] theorem State.setSync_syncState (s : State) (st : SyncState) : (s.setSync st).syncState = st := rfl
@[simp] theorem State.setSync_failClass (s : State) (st : SyncState) : (s.setSync st).failClass = s.failClass := rfl
@[simp] theorem State.setSync_failState (s : State) (st : SyncState) : (s.setSync st).failState = s.failState := rfl
@[simp] theorem State.setSync_failEvent (s : State) (st : SyncState) : (s.setSync st).failEvent = s.failEvent := rfl
@[simp] theorem State.setSync_closed (s : State) (st : SyncState) : (s.setSync st).closed = s.closed := rfl
@[simp] theorem State.setSync_rxBuf (s : State) (st : SyncState) : (s.setSync st).rxBuf = s.rxBuf := rfl
@[simp] theorem State.setSync_txBuf (s : State) (st : SyncState) : (s.setSync st).txBuf = s.txBuf := rfl
@[simp] theorem State.setSync_txout (s : State) (st : SyncState) : (s.setSync st).txout = s.txout := rfl
@[simp] theorem State.setSync_evout (s : State) (st : SyncState) : (s.setSync st).evout = s.evout := rfl
@[simp] theorem State.setSync_params (s : State) (st : SyncState) : (s.setSync st).params = s.params := rfl
@[simp] theorem State.setSync_hostq (s : State) (st : SyncState) : (s.setSync st).hostq = s.hostq := rfl
@[simp] theorem State.setSync_rxin (s : State) (st : SyncState) : (s.setSync st).rxin = s.rxin := rfl
@[simp] theorem State.setSync_turns (s : State) (st : SyncState) : (s.setSync st).turns = s.turns := rfl
@[simp] theorem State.setSync_responses (s : State) (st : SyncState) : (s.setSync st).responses = s.responses := rfl
@[simp] theorem State.setSync_txEpoch (s : State) (st : SyncState) : (s.setSync st).txEpoch = s.txEpoch := rfl
@[simp] theorem State.setSync_rxDraws (s : State) (st : SyncState) : (s.setSync st).rxDraws = s.rxDraws := rfl

/-! ### loadRxLen -/

@[simp] theorem State.loadRxLen_ctrl (s : State) : (s.loadRxLen).ctrl = s.ctrl := rfl
@[simp] theorem State.loadRxLen_bfxOff (s : State) : (s.loadRxLen).bfxOff = s.bfxOff := rfl
@[simp] theorem State.loadRxLen_bfxLen (s : State) : (s.loadRxLen).bfxLen = s.bfxLen := rfl
@[simp] theorem State.loadRxLen_bfxRes (s : State) : (s.loadRxLen).bfxRes = s.bfxRes := rfl
@[simp] theorem State.loadRxLen_ckStart (s : State) : (s.loadRxLen).ckStart = s.ckStart := rfl
@[simp] theorem State.loadRxLen_ckEnd (s : State) : (s.loadRxLen).ckEnd = s.ckEnd := rfl
@[simp] theorem State.loadRxLen_ckA (s : State) : (s.loadRxLen).ckA = s.ckA := rfl
@[simp] theorem State.loadRxLen_ckB (s : State) : (s.loadRxLen).ckB = s.ckB := rfl
@[simp] theorem State.loadRxLen_fencType (s : State) : (s.loadRxLen).fencType = s.fencType := rfl
@[simp] theorem State.loadRxLen_txLen (s : State) : (s.loadRxLen).txLen = s.txLen := rfl
@[simp] theorem State.loadRxLen_rxLen (s : State) : (s.loadRxLen).rxLen = s.rxByteAt 1 ++ s.rxByteAt 2 := rfl
@[simp] theorem State.loadRxLen_rxCount (s : State) : (s.loadRxLen).rxCount = s.rxCount := rfl
@[simp] theorem State.loadRxLen_rxckA (s : State) : (s.loadRxLen).rxckA = s.rxckA := rfl
@[simp] theorem State.loadRxLen_rxckB (s : State) : (s.loadRxLen).rxckB = s.rxckB := rfl
@[simp] theorem State.loadRxLen_cmdErr (s : State) : (s.loadRxLen).cmdErr = s.cmdErr := rfl
@[simp] theorem State.loadRxLen_syncState (s : State) : (s.loadRxLen).syncState = s.syncState := rfl
@[simp] theorem State.loadRxLen_failClass (s : State) : (s.loadRxLen).failClass = s.failClass := rfl
@[simp] theorem State.loadRxLen_failState (s : State) : (s.loadRxLen).failState = s.failState := rfl
@[simp] theorem State.loadRxLen_failEvent (s : State) : (s.loadRxLen).failEvent = s.failEvent := rfl
@[simp] theorem State.loadRxLen_closed (s : State) : (s.loadRxLen).closed = s.closed := rfl
@[simp] theorem State.loadRxLen_rxBuf (s : State) : (s.loadRxLen).rxBuf = s.rxBuf := rfl
@[simp] theorem State.loadRxLen_txBuf (s : State) : (s.loadRxLen).txBuf = s.txBuf := rfl
@[simp] theorem State.loadRxLen_txout (s : State) : (s.loadRxLen).txout = s.txout := rfl
@[simp] theorem State.loadRxLen_evout (s : State) : (s.loadRxLen).evout = s.evout := rfl
@[simp] theorem State.loadRxLen_params (s : State) : (s.loadRxLen).params = s.params := rfl
@[simp] theorem State.loadRxLen_hostq (s : State) : (s.loadRxLen).hostq = s.hostq := rfl
@[simp] theorem State.loadRxLen_rxin (s : State) : (s.loadRxLen).rxin = s.rxin := rfl
@[simp] theorem State.loadRxLen_turns (s : State) : (s.loadRxLen).turns = s.turns := rfl
@[simp] theorem State.loadRxLen_responses (s : State) : (s.loadRxLen).responses = s.responses := rfl
@[simp] theorem State.loadRxLen_txEpoch (s : State) : (s.loadRxLen).txEpoch = s.txEpoch := rfl
@[simp] theorem State.loadRxLen_rxDraws (s : State) : (s.loadRxLen).rxDraws = s.rxDraws := rfl

/-! ### fail -/

@[simp] theorem State.fail_ctrl (s : State) (cls : FailClass) (st : ReadState) (ev : FailEvent) : (s.fail cls st ev).ctrl = s.ctrl := rfl
@[simp] theorem State.fail_bfxOff (s : State) (cls : FailClass) (st : ReadState) (ev : FailEvent) : (s.fail cls st ev).bfxOff = s.bfxOff := rfl
@[simp] theorem State.fail_bfxLen (s : State) (cls : FailClass) (st : ReadState) (ev : FailEvent) : (s.fail cls st ev).bfxLen = s.bfxLen := rfl
@[simp] theorem State.fail_bfxRes (s : State) (cls : FailClass) (st : ReadState) (ev : FailEvent) : (s.fail cls st ev).bfxRes = s.bfxRes := rfl
@[simp] theorem State.fail_ckStart (s : State) (cls : FailClass) (st : ReadState) (ev : FailEvent) : (s.fail cls st ev).ckStart = s.ckStart := rfl
@[simp] theorem State.fail_ckEnd (s : State) (cls : FailClass) (st : ReadState) (ev : FailEvent) : (s.fail cls st ev).ckEnd = s.ckEnd := rfl
@[simp] theorem State.fail_ckA (s : State) (cls : FailClass) (st : ReadState) (ev : FailEvent) : (s.fail cls st ev).ckA = s.ckA := rfl
@[simp] theorem State.fail_ckB (s : State) (cls : FailClass) (st : ReadState) (ev : FailEvent) : (s.fail cls st ev).ckB = s.ckB := rfl
@[simp] theorem State.fail_fencType (s : State) (cls : FailClass) (st : ReadState) (ev : FailEvent) : (s.fail cls st ev).fencType = s.fencType := rfl
@[simp] theorem State.fail_txLen (s : State) (cls : FailClass) (st : ReadState) (ev : FailEvent) : (s.fail cls st ev).txLen = s.txLen := rfl
@[simp] theorem State.fail_rxLen (s : State) (cls : FailClass) (st : ReadState) (ev : FailEvent) : (s.fail cls st ev).rxLen = s.rxLen := rfl
@[simp] theorem State.fail_rxCount (s : State) (cls : FailClass) (st : ReadState) (ev : FailEvent) : (s.fail cls st ev).rxCount = s.rxCount := rfl
@[simp] theorem State.fail_rxckA (s : State) (cls : FailClass) (st : ReadState) (ev : FailEvent) : (s.fail cls st ev).rxckA = s.rxckA := rfl
@[simp] theorem State.fail_rxckB (s : State) (cls : FailClass) (st : ReadState) (ev : FailEvent) : (s.fail cls st ev).rxckB = s.rxckB := rfl
@[simp] theorem State.fail_cmdErr (s : State) (cls : FailClass) (st : ReadState) (ev : FailEvent) : (s.fail cls st ev).cmdErr = s.cmdErr := rfl
@[simp] theorem State.fail_syncState (s : State) (cls : FailClass) (st : ReadState) (ev : FailEvent) : (s.fail cls st ev).syncState = .failed := rfl
@[simp] theorem State.fail_failClass (s : State) (cls : FailClass) (st : ReadState) (ev : FailEvent) : (s.fail cls st ev).failClass = cls := rfl
@[simp] theorem State.fail_failState (s : State) (cls : FailClass) (st : ReadState) (ev : FailEvent) : (s.fail cls st ev).failState = st := rfl
@[simp] theorem State.fail_failEvent (s : State) (cls : FailClass) (st : ReadState) (ev : FailEvent) : (s.fail cls st ev).failEvent = ev := rfl
@[simp] theorem State.fail_closed (s : State) (cls : FailClass) (st : ReadState) (ev : FailEvent) : (s.fail cls st ev).closed = true := rfl
@[simp] theorem State.fail_rxBuf (s : State) (cls : FailClass) (st : ReadState) (ev : FailEvent) : (s.fail cls st ev).rxBuf = s.rxBuf := rfl
@[simp] theorem State.fail_txBuf (s : State) (cls : FailClass) (st : ReadState) (ev : FailEvent) : (s.fail cls st ev).txBuf = s.txBuf := rfl
@[simp] theorem State.fail_txout (s : State) (cls : FailClass) (st : ReadState) (ev : FailEvent) : (s.fail cls st ev).txout = s.txout := rfl
@[simp] theorem State.fail_evout (s : State) (cls : FailClass) (st : ReadState) (ev : FailEvent) : (s.fail cls st ev).evout = s.evout ++ [.connClose] := rfl
@[simp] theorem State.fail_params (s : State) (cls : FailClass) (st : ReadState) (ev : FailEvent) : (s.fail cls st ev).params = s.params := rfl
@[simp] theorem State.fail_hostq (s : State) (cls : FailClass) (st : ReadState) (ev : FailEvent) : (s.fail cls st ev).hostq = s.hostq := rfl
@[simp] theorem State.fail_rxin (s : State) (cls : FailClass) (st : ReadState) (ev : FailEvent) : (s.fail cls st ev).rxin = s.rxin := rfl
@[simp] theorem State.fail_turns (s : State) (cls : FailClass) (st : ReadState) (ev : FailEvent) : (s.fail cls st ev).turns = s.turns := rfl
@[simp] theorem State.fail_responses (s : State) (cls : FailClass) (st : ReadState) (ev : FailEvent) : (s.fail cls st ev).responses = s.responses := rfl
@[simp] theorem State.fail_txEpoch (s : State) (cls : FailClass) (st : ReadState) (ev : FailEvent) : (s.fail cls st ev).txEpoch = s.txEpoch := rfl
@[simp] theorem State.fail_rxDraws (s : State) (cls : FailClass) (st : ReadState) (ev : FailEvent) : (s.fail cls st ev).rxDraws = s.rxDraws := rfl

/-! ### enterStopped -/

@[simp] theorem State.enterStopped_ctrl (s : State) : (s.enterStopped).ctrl = s.ctrl := rfl
@[simp] theorem State.enterStopped_bfxOff (s : State) : (s.enterStopped).bfxOff = s.bfxOff := rfl
@[simp] theorem State.enterStopped_bfxLen (s : State) : (s.enterStopped).bfxLen = s.bfxLen := rfl
@[simp] theorem State.enterStopped_bfxRes (s : State) : (s.enterStopped).bfxRes = s.bfxRes := rfl
@[simp] theorem State.enterStopped_ckStart (s : State) : (s.enterStopped).ckStart = s.ckStart := rfl
@[simp] theorem State.enterStopped_ckEnd (s : State) : (s.enterStopped).ckEnd = s.ckEnd := rfl
@[simp] theorem State.enterStopped_ckA (s : State) : (s.enterStopped).ckA = s.ckA := rfl
@[simp] theorem State.enterStopped_ckB (s : State) : (s.enterStopped).ckB = s.ckB := rfl
@[simp] theorem State.enterStopped_fencType (s : State) : (s.enterStopped).fencType = s.fencType := rfl
@[simp] theorem State.enterStopped_txLen (s : State) : (s.enterStopped).txLen = s.txLen := rfl
@[simp] theorem State.enterStopped_rxLen (s : State) : (s.enterStopped).rxLen = s.rxLen := rfl
@[simp] theorem State.enterStopped_rxCount (s : State) : (s.enterStopped).rxCount = s.rxCount := rfl
@[simp] theorem State.enterStopped_rxckA (s : State) : (s.enterStopped).rxckA = s.rxckA := rfl
@[simp] theorem State.enterStopped_rxckB (s : State) : (s.enterStopped).rxckB = s.rxckB := rfl
@[simp] theorem State.enterStopped_cmdErr (s : State) : (s.enterStopped).cmdErr = s.cmdErr := rfl
@[simp] theorem State.enterStopped_syncState (s : State) : (s.enterStopped).syncState = .stopped := rfl
@[simp] theorem State.enterStopped_failClass (s : State) : (s.enterStopped).failClass = s.failClass := rfl
@[simp] theorem State.enterStopped_failState (s : State) : (s.enterStopped).failState = s.failState := rfl
@[simp] theorem State.enterStopped_failEvent (s : State) : (s.enterStopped).failEvent = s.failEvent := rfl
@[simp] theorem State.enterStopped_closed (s : State) : (s.enterStopped).closed = true := rfl
@[simp] theorem State.enterStopped_rxBuf (s : State) : (s.enterStopped).rxBuf = s.rxBuf := rfl
@[simp] theorem State.enterStopped_txBuf (s : State) : (s.enterStopped).txBuf = s.txBuf := rfl
@[simp] theorem State.enterStopped_txout (s : State) : (s.enterStopped).txout = s.txout := rfl
@[simp] theorem State.enterStopped_evout (s : State) : (s.enterStopped).evout = s.evout ++ [.connClose] := rfl
@[simp] theorem State.enterStopped_params (s : State) : (s.enterStopped).params = s.params := rfl
@[simp] theorem State.enterStopped_hostq (s : State) : (s.enterStopped).hostq = s.hostq := rfl
@[simp] theorem State.enterStopped_rxin (s : State) : (s.enterStopped).rxin = s.rxin := rfl
@[simp] theorem State.enterStopped_turns (s : State) : (s.enterStopped).turns = s.turns := rfl
@[simp] theorem State.enterStopped_responses (s : State) : (s.enterStopped).responses = s.responses := rfl
@[simp] theorem State.enterStopped_txEpoch (s : State) : (s.enterStopped).txEpoch = s.txEpoch := rfl
@[simp] theorem State.enterStopped_rxDraws (s : State) : (s.enterStopped).rxDraws = s.rxDraws := rfl

/-! ### awaitMessage -/

@[simp] theorem State.awaitMessage_ctrl (s : State) : (s.awaitMessage).ctrl = s.ctrl := rfl
@[simp] theorem State.awaitMessage_bfxOff (s : State) : (s.awaitMessage).bfxOff = s.bfxOff := rfl
@[simp] theorem State.awaitMessage_bfxLen (s : State) : (s.awaitMessage).bfxLen = s.bfxLen := rfl
@[simp] theorem State.awaitMessage_bfxRes (s : State) : (s.awaitMessage).bfxRes = s.bfxRes := rfl
@[simp] theorem State.awaitMessage_ckStart (s : State) : (s.awaitMessage).ckStart = s.ckStart := rfl
@[simp] theorem State.awaitMessage_ckEnd (s : State) : (s.awaitMessage).ckEnd = s.ckEnd := rfl
@[simp] theorem State.awaitMessage_ckA (s : State) : (s.awaitMessage).ckA = s.ckA := rfl
@[simp] theorem State.awaitMessage_ckB (s : State) : (s.awaitMessage).ckB = s.ckB := rfl
@[simp] theorem State.awaitMessage_fencType (s : State) : (s.awaitMessage).fencType = s.fencType := rfl
@[simp] theorem State.awaitMessage_txLen (s : State) : (s.awaitMessage).txLen = s.txLen := rfl
@[simp] theorem State.awaitMessage_rxLen (s : State) : (s.awaitMessage).rxLen = 0 := rfl
@[simp] theorem State.awaitMessage_rxCount (s : State) : (s.awaitMessage).rxCount = 0 := rfl
@[simp] theorem State.awaitMessage_rxckA (s : State) : (s.awaitMessage).rxckA = 0 := rfl
@[simp] theorem State.awaitMessage_rxckB (s : State) : (s.awaitMessage).rxckB = 0 := rfl
@[simp] theorem State.awaitMessage_cmdErr (s : State) : (s.awaitMessage).cmdErr = s.cmdErr := rfl
@[simp] theorem State.awaitMessage_syncState (s : State) : (s.awaitMessage).syncState = .awaitingMarker := rfl
@[simp] theorem State.awaitMessage_failClass (s : State) : (s.awaitMessage).failClass = s.failClass := rfl
@[simp] theorem State.awaitMessage_failState (s : State) : (s.awaitMessage).failState = s.failState := rfl
@[simp] theorem State.awaitMessage_failEvent (s : State) : (s.awaitMessage).failEvent = s.failEvent := rfl
@[simp] theorem State.awaitMessage_closed (s : State) : (s.awaitMessage).closed = s.closed := rfl
@[simp] theorem State.awaitMessage_rxBuf (s : State) : (s.awaitMessage).rxBuf = s.rxBuf := rfl
@[simp] theorem State.awaitMessage_txBuf (s : State) : (s.awaitMessage).txBuf = s.txBuf := rfl
@[simp] theorem State.awaitMessage_txout (s : State) : (s.awaitMessage).txout = s.txout := rfl
@[simp] theorem State.awaitMessage_evout (s : State) : (s.awaitMessage).evout = s.evout := rfl
@[simp] theorem State.awaitMessage_params (s : State) : (s.awaitMessage).params = s.params := rfl
@[simp] theorem State.awaitMessage_hostq (s : State) : (s.awaitMessage).hostq = s.hostq := rfl
@[simp] theorem State.awaitMessage_rxin (s : State) : (s.awaitMessage).rxin = s.rxin := rfl
@[simp] theorem State.awaitMessage_turns (s : State) : (s.awaitMessage).turns = s.turns := rfl
@[simp] theorem State.awaitMessage_responses (s : State) : (s.awaitMessage).responses = s.responses := rfl
@[simp] theorem State.awaitMessage_txEpoch (s : State) : (s.awaitMessage).txEpoch = s.txEpoch := rfl
@[simp] theorem State.awaitMessage_rxDraws (s : State) : (s.awaitMessage).rxDraws = s.rxDraws := rfl

/-! ### clearFailure -/

@[simp] theorem State.clearFailure_ctrl (s : State) : (s.clearFailure).ctrl = s.ctrl := rfl
@[simp] theorem State.clearFailure_bfxOff (s : State) : (s.clearFailure).bfxOff = s.bfxOff := rfl
@[simp] theorem State.clearFailure_bfxLen (s : State) : (s.clearFailure).bfxLen = s.bfxLen := rfl
@[simp] theorem State.clearFailure_bfxRes (s : State) : (s.clearFailure).bfxRes = s.bfxRes := rfl
@[simp] theorem State.clearFailure_ckStart (s : State) : (s.clearFailure).ckStart = s.ckStart := rfl
@[simp] theorem State.clearFailure_ckEnd (s : State) : (s.clearFailure).ckEnd = s.ckEnd := rfl
@[simp] theorem State.clearFailure_ckA (s : State) : (s.clearFailure).ckA = s.ckA := rfl
@[simp] theorem State.clearFailure_ckB (s : State) : (s.clearFailure).ckB = s.ckB := rfl
@[simp] theorem State.clearFailure_fencType (s : State) : (s.clearFailure).fencType = s.fencType := rfl
@[simp] theorem State.clearFailure_txLen (s : State) : (s.clearFailure).txLen = s.txLen := rfl
@[simp] theorem State.clearFailure_rxLen (s : State) : (s.clearFailure).rxLen = s.rxLen := rfl
@[simp] theorem State.clearFailure_rxCount (s : State) : (s.clearFailure).rxCount = s.rxCount := rfl
@[simp] theorem State.clearFailure_rxckA (s : State) : (s.clearFailure).rxckA = s.rxckA := rfl
@[simp] theorem State.clearFailure_rxckB (s : State) : (s.clearFailure).rxckB = s.rxckB := rfl
@[simp] theorem State.clearFailure_cmdErr (s : State) : (s.clearFailure).cmdErr = s.cmdErr := rfl
@[simp] theorem State.clearFailure_syncState (s : State) : (s.clearFailure).syncState = s.syncState := rfl
@[simp] theorem State.clearFailure_failClass (s : State) : (s.clearFailure).failClass = .none := rfl
@[simp] theorem State.clearFailure_failState (s : State) : (s.clearFailure).failState = .awaitingMarker := rfl
@[simp] theorem State.clearFailure_failEvent (s : State) : (s.clearFailure).failEvent = .none := rfl
@[simp] theorem State.clearFailure_closed (s : State) : (s.clearFailure).closed = false := rfl
@[simp] theorem State.clearFailure_rxBuf (s : State) : (s.clearFailure).rxBuf = s.rxBuf := rfl
@[simp] theorem State.clearFailure_txBuf (s : State) : (s.clearFailure).txBuf = s.txBuf := rfl
@[simp] theorem State.clearFailure_txout (s : State) : (s.clearFailure).txout = s.txout := rfl
@[simp] theorem State.clearFailure_evout (s : State) : (s.clearFailure).evout = s.evout := rfl
@[simp] theorem State.clearFailure_params (s : State) : (s.clearFailure).params = s.params := rfl
@[simp] theorem State.clearFailure_hostq (s : State) : (s.clearFailure).hostq = s.hostq := rfl
@[simp] theorem State.clearFailure_rxin (s : State) : (s.clearFailure).rxin = s.rxin := rfl
@[simp] theorem State.clearFailure_turns (s : State) : (s.clearFailure).turns = s.turns := rfl
@[simp] theorem State.clearFailure_responses (s : State) : (s.clearFailure).responses = s.responses := rfl
@[simp] theorem State.clearFailure_txEpoch (s : State) : (s.clearFailure).txEpoch = s.txEpoch := rfl
@[simp] theorem State.clearFailure_rxDraws (s : State) : (s.clearFailure).rxDraws = s.rxDraws := rfl

/-! ### restartSession -/

@[simp] theorem State.restartSession_ctrl (s : State) : (s.restartSession).ctrl = s.ctrl := rfl
@[simp] theorem State.restartSession_bfxOff (s : State) : (s.restartSession).bfxOff = s.bfxOff := rfl
@[simp] theorem State.restartSession_bfxLen (s : State) : (s.restartSession).bfxLen = s.bfxLen := rfl
@[simp] theorem State.restartSession_bfxRes (s : State) : (s.restartSession).bfxRes = s.bfxRes := rfl
@[simp] theorem State.restartSession_ckStart (s : State) : (s.restartSession).ckStart = s.ckStart := rfl
@[simp] theorem State.restartSession_ckEnd (s : State) : (s.restartSession).ckEnd = s.ckEnd := rfl
@[simp] theorem State.restartSession_ckA (s : State) : (s.restartSession).ckA = s.ckA := rfl
@[simp] theorem State.restartSession_ckB (s : State) : (s.restartSession).ckB = s.ckB := rfl
@[simp] theorem State.restartSession_fencType (s : State) : (s.restartSession).fencType = s.fencType := rfl
@[simp] theorem State.restartSession_txLen (s : State) : (s.restartSession).txLen = s.txLen := rfl
@[simp] theorem State.restartSession_rxLen (s : State) : (s.restartSession).rxLen = 0 := rfl
@[simp] theorem State.restartSession_rxCount (s : State) : (s.restartSession).rxCount = 0 := rfl
@[simp] theorem State.restartSession_rxckA (s : State) : (s.restartSession).rxckA = 0 := rfl
@[simp] theorem State.restartSession_rxckB (s : State) : (s.restartSession).rxckB = 0 := rfl
@[simp] theorem State.restartSession_cmdErr (s : State) : (s.restartSession).cmdErr = s.cmdErr := rfl
@[simp] theorem State.restartSession_syncState (s : State) : (s.restartSession).syncState = .awaitingMarker := rfl
@[simp] theorem State.restartSession_failClass (s : State) : (s.restartSession).failClass = .none := rfl
@[simp] theorem State.restartSession_failState (s : State) : (s.restartSession).failState = .awaitingMarker := rfl
@[simp] theorem State.restartSession_failEvent (s : State) : (s.restartSession).failEvent = .none := rfl
@[simp] theorem State.restartSession_closed (s : State) : (s.restartSession).closed = false := rfl
@[simp] theorem State.restartSession_rxBuf (s : State) : (s.restartSession).rxBuf = s.rxBuf := rfl
@[simp] theorem State.restartSession_txBuf (s : State) : (s.restartSession).txBuf = s.txBuf := rfl
@[simp] theorem State.restartSession_txout (s : State) : (s.restartSession).txout = s.txout := rfl
@[simp] theorem State.restartSession_evout (s : State) : (s.restartSession).evout = s.evout := rfl
@[simp] theorem State.restartSession_params (s : State) : (s.restartSession).params = s.params := rfl
@[simp] theorem State.restartSession_hostq (s : State) : (s.restartSession).hostq = s.hostq := rfl
@[simp] theorem State.restartSession_rxin (s : State) : (s.restartSession).rxin = s.rxin := rfl
@[simp] theorem State.restartSession_turns (s : State) : (s.restartSession).turns = s.turns := rfl
@[simp] theorem State.restartSession_responses (s : State) : (s.restartSession).responses = s.responses := rfl
@[simp] theorem State.restartSession_txEpoch (s : State) : (s.restartSession).txEpoch = s.txEpoch := rfl
@[simp] theorem State.restartSession_rxDraws (s : State) : (s.restartSession).rxDraws = s.rxDraws := rfl

/-! ### assertReset -/

@[simp] theorem State.assertReset_ctrl (s : State) : (s.assertReset).ctrl = 0 := rfl
@[simp] theorem State.assertReset_bfxOff (s : State) : (s.assertReset).bfxOff = 0 := rfl
@[simp] theorem State.assertReset_bfxLen (s : State) : (s.assertReset).bfxLen = 0 := rfl
@[simp] theorem State.assertReset_bfxRes (s : State) : (s.assertReset).bfxRes = 0 := rfl
@[simp] theorem State.assertReset_ckStart (s : State) : (s.assertReset).ckStart = 0 := rfl
@[simp] theorem State.assertReset_ckEnd (s : State) : (s.assertReset).ckEnd = 0 := rfl
@[simp] theorem State.assertReset_ckA (s : State) : (s.assertReset).ckA = 0 := rfl
@[simp] theorem State.assertReset_ckB (s : State) : (s.assertReset).ckB = 0 := rfl
@[simp] theorem State.assertReset_fencType (s : State) : (s.assertReset).fencType = 0 := rfl
@[simp] theorem State.assertReset_txLen (s : State) : (s.assertReset).txLen = 0 := rfl
@[simp] theorem State.assertReset_rxLen (s : State) : (s.assertReset).rxLen = 0 := rfl
@[simp] theorem State.assertReset_rxCount (s : State) : (s.assertReset).rxCount = 0 := rfl
@[simp] theorem State.assertReset_rxckA (s : State) : (s.assertReset).rxckA = 0 := rfl
@[simp] theorem State.assertReset_rxckB (s : State) : (s.assertReset).rxckB = 0 := rfl
@[simp] theorem State.assertReset_cmdErr (s : State) : (s.assertReset).cmdErr = .ok := rfl
@[simp] theorem State.assertReset_syncState (s : State) : (s.assertReset).syncState = .awaitingMarker := rfl
@[simp] theorem State.assertReset_failClass (s : State) : (s.assertReset).failClass = .none := rfl
@[simp] theorem State.assertReset_failState (s : State) : (s.assertReset).failState = .awaitingMarker := rfl
@[simp] theorem State.assertReset_failEvent (s : State) : (s.assertReset).failEvent = .none := rfl
@[simp] theorem State.assertReset_closed (s : State) : (s.assertReset).closed = false := rfl
@[simp] theorem State.assertReset_rxBuf (s : State) : (s.assertReset).rxBuf = [] := rfl
@[simp] theorem State.assertReset_txBuf (s : State) : (s.assertReset).txBuf = [] := rfl
@[simp] theorem State.assertReset_txout (s : State) : (s.assertReset).txout = s.txout := rfl
@[simp] theorem State.assertReset_evout (s : State) : (s.assertReset).evout = s.evout := rfl
@[simp] theorem State.assertReset_params (s : State) : (s.assertReset).params = s.params := rfl
@[simp] theorem State.assertReset_hostq (s : State) : (s.assertReset).hostq = s.hostq := rfl
@[simp] theorem State.assertReset_rxin (s : State) : (s.assertReset).rxin = s.rxin := rfl
@[simp] theorem State.assertReset_turns (s : State) : (s.assertReset).turns = s.turns := rfl
@[simp] theorem State.assertReset_responses (s : State) : (s.assertReset).responses = s.responses := rfl
@[simp] theorem State.assertReset_txEpoch (s : State) : (s.assertReset).txEpoch = s.txEpoch + 1 := rfl
@[simp] theorem State.assertReset_rxDraws (s : State) : (s.assertReset).rxDraws = s.rxDraws := rfl

/-! ### drawRx -/

@[simp] theorem State.drawRx_ctrl (s : State) : s.drawRx.ctrl = s.ctrl := rfl
@[simp] theorem State.drawRx_bfxOff (s : State) : s.drawRx.bfxOff = s.bfxOff := rfl
@[simp] theorem State.drawRx_bfxLen (s : State) : s.drawRx.bfxLen = s.bfxLen := rfl
@[simp] theorem State.drawRx_bfxRes (s : State) : s.drawRx.bfxRes = s.bfxRes := rfl
@[simp] theorem State.drawRx_ckStart (s : State) : s.drawRx.ckStart = s.ckStart := rfl
@[simp] theorem State.drawRx_ckEnd (s : State) : s.drawRx.ckEnd = s.ckEnd := rfl
@[simp] theorem State.drawRx_ckA (s : State) : s.drawRx.ckA = s.ckA := rfl
@[simp] theorem State.drawRx_ckB (s : State) : s.drawRx.ckB = s.ckB := rfl
@[simp] theorem State.drawRx_fencType (s : State) : s.drawRx.fencType = s.fencType := rfl
@[simp] theorem State.drawRx_txLen (s : State) : s.drawRx.txLen = s.txLen := rfl
@[simp] theorem State.drawRx_rxLen (s : State) : s.drawRx.rxLen = s.rxLen := rfl
@[simp] theorem State.drawRx_rxCount (s : State) : s.drawRx.rxCount = s.rxCount := rfl
@[simp] theorem State.drawRx_rxckA (s : State) : s.drawRx.rxckA = s.rxckA := rfl
@[simp] theorem State.drawRx_rxckB (s : State) : s.drawRx.rxckB = s.rxckB := rfl
@[simp] theorem State.drawRx_cmdErr (s : State) : s.drawRx.cmdErr = s.cmdErr := rfl
@[simp] theorem State.drawRx_syncState (s : State) : s.drawRx.syncState = s.syncState := rfl
@[simp] theorem State.drawRx_failClass (s : State) : s.drawRx.failClass = s.failClass := rfl
@[simp] theorem State.drawRx_failState (s : State) : s.drawRx.failState = s.failState := rfl
@[simp] theorem State.drawRx_failEvent (s : State) : s.drawRx.failEvent = s.failEvent := rfl
@[simp] theorem State.drawRx_closed (s : State) : s.drawRx.closed = s.closed := rfl
@[simp] theorem State.drawRx_rxBuf (s : State) : s.drawRx.rxBuf = s.rxBuf := rfl
@[simp] theorem State.drawRx_txBuf (s : State) : s.drawRx.txBuf = s.txBuf := rfl
@[simp] theorem State.drawRx_txout (s : State) : s.drawRx.txout = s.txout := rfl
@[simp] theorem State.drawRx_evout (s : State) : s.drawRx.evout = s.evout := rfl
@[simp] theorem State.drawRx_params (s : State) : s.drawRx.params = s.params := rfl
@[simp] theorem State.drawRx_hostq (s : State) : s.drawRx.hostq = s.hostq := rfl
@[simp] theorem State.drawRx_rxin (s : State) : s.drawRx.rxin = s.rxin := rfl
@[simp] theorem State.drawRx_turns (s : State) : s.drawRx.turns = s.turns := rfl
@[simp] theorem State.drawRx_responses (s : State) : s.drawRx.responses = s.responses := rfl
@[simp] theorem State.drawRx_txEpoch (s : State) : s.drawRx.txEpoch = s.txEpoch := rfl
@[simp] theorem State.drawRx_rxDraws (s : State) : s.drawRx.rxDraws = s.rxDraws + 1 := rfl

/-! ### storeCsr: the fields no CSR write reaches -/

@[simp] theorem storeCsr_bfxRes (c : Csr) (v : Word) (s : State) : (storeCsr c v s).bfxRes = s.bfxRes := by cases c <;> rfl
@[simp] theorem storeCsr_ckA (c : Csr) (v : Word) (s : State) : (storeCsr c v s).ckA = s.ckA := by cases c <;> rfl
@[simp] theorem storeCsr_ckB (c : Csr) (v : Word) (s : State) : (storeCsr c v s).ckB = s.ckB := by cases c <;> rfl
@[simp] theorem storeCsr_rxLen (c : Csr) (v : Word) (s : State) : (storeCsr c v s).rxLen = s.rxLen := by cases c <;> rfl
@[simp] theorem storeCsr_rxCount (c : Csr) (v : Word) (s : State) : (storeCsr c v s).rxCount = s.rxCount := by cases c <;> rfl
@[simp] theorem storeCsr_rxckA (c : Csr) (v : Word) (s : State) : (storeCsr c v s).rxckA = s.rxckA := by cases c <;> rfl
@[simp] theorem storeCsr_rxckB (c : Csr) (v : Word) (s : State) : (storeCsr c v s).rxckB = s.rxckB := by cases c <;> rfl
@[simp] theorem storeCsr_cmdErr (c : Csr) (v : Word) (s : State) : (storeCsr c v s).cmdErr = s.cmdErr := by cases c <;> rfl
@[simp] theorem storeCsr_syncState (c : Csr) (v : Word) (s : State) : (storeCsr c v s).syncState = s.syncState := by cases c <;> rfl
@[simp] theorem storeCsr_failClass (c : Csr) (v : Word) (s : State) : (storeCsr c v s).failClass = s.failClass := by cases c <;> rfl
@[simp] theorem storeCsr_failState (c : Csr) (v : Word) (s : State) : (storeCsr c v s).failState = s.failState := by cases c <;> rfl
@[simp] theorem storeCsr_failEvent (c : Csr) (v : Word) (s : State) : (storeCsr c v s).failEvent = s.failEvent := by cases c <;> rfl
@[simp] theorem storeCsr_closed (c : Csr) (v : Word) (s : State) : (storeCsr c v s).closed = s.closed := by cases c <;> rfl
@[simp] theorem storeCsr_rxBuf (c : Csr) (v : Word) (s : State) : (storeCsr c v s).rxBuf = s.rxBuf := by cases c <;> rfl
@[simp] theorem storeCsr_txBuf (c : Csr) (v : Word) (s : State) : (storeCsr c v s).txBuf = s.txBuf := by cases c <;> rfl
@[simp] theorem storeCsr_txout (c : Csr) (v : Word) (s : State) : (storeCsr c v s).txout = s.txout := by cases c <;> rfl
@[simp] theorem storeCsr_evout (c : Csr) (v : Word) (s : State) : (storeCsr c v s).evout = s.evout := by cases c <;> rfl
@[simp] theorem storeCsr_params (c : Csr) (v : Word) (s : State) : (storeCsr c v s).params = s.params := by cases c <;> rfl
@[simp] theorem storeCsr_hostq (c : Csr) (v : Word) (s : State) : (storeCsr c v s).hostq = s.hostq := by cases c <;> rfl
@[simp] theorem storeCsr_rxin (c : Csr) (v : Word) (s : State) : (storeCsr c v s).rxin = s.rxin := by cases c <;> rfl
@[simp] theorem storeCsr_turns (c : Csr) (v : Word) (s : State) : (storeCsr c v s).turns = s.turns := by cases c <;> rfl
@[simp] theorem storeCsr_responses (c : Csr) (v : Word) (s : State) : (storeCsr c v s).responses = s.responses := by cases c <;> rfl
@[simp] theorem storeCsr_txEpoch (c : Csr) (v : Word) (s : State) : (storeCsr c v s).txEpoch = s.txEpoch := by cases c <;> rfl
@[simp] theorem storeCsr_rxDraws (c : Csr) (v : Word) (s : State) : (storeCsr c v s).rxDraws = s.rxDraws := by cases c <;> rfl

end Sys2Proof.Machine
end

