-- ==== Sys2Proof/Laws/Memory.lean ====
section
/-! SUPPORT. The laws of a byte buffer: what a read after a write gives, and that every memory operation keeps the
canonical form. -/
namespace Sys2Proof.Machine

/-- A write is seen at its own index and at no other. -/
theorem Memory.read_write (m : Memory) (i j : Nat) (v : Byte) :
    Memory.read (Memory.write m i v) j = if j = i then some v else Memory.read m j := by
  induction m with
  | nil => simp [Memory.write, Memory.read]
  | cons c m ih =>
    obtain ⟨k, b⟩ := c
    simp only [Memory.write]
    split
    · simp only [Memory.read]
    · split
      · subst_vars; simp only [Memory.read]
        by_cases hj : j = k <;> simp [hj]
      · simp only [Memory.read, ih]
        by_cases hj : j = k
        · subst hj; simp; omega
        · simp [hj]

/-- The indices listed after a write are the written one and those listed before. -/
theorem Memory.mem_write {m : Memory} {i : Nat} {v : Byte} {c : Host.Cell} (h : c ∈ Memory.write m i v) :
    c = (i, v) ∨ c ∈ m := by
  induction m with
  | nil => simpa [Memory.write] using h
  | cons d m ih =>
    obtain ⟨k, b⟩ := d
    simp only [Memory.write] at h
    split at h
    · simp only [List.mem_cons] at h ⊢; tauto
    · split at h
      · simp only [List.mem_cons] at h ⊢; tauto
      · simp only [List.mem_cons] at h ⊢
        rcases h with h | h
        · tauto
        · have := ih h; tauto

/-- A write keeps the indices strictly rising. -/
theorem Memory.write_pairwise {m : Memory} (i : Nat) (v : Byte) (h : (m.map Prod.fst).Pairwise (· < ·)) :
    ((Memory.write m i v).map Prod.fst).Pairwise (· < ·) := by
  induction m with
  | nil => simp [Memory.write]
  | cons d m ih =>
    obtain ⟨k, b⟩ := d
    have hd := h
    simp only [List.map_cons, List.pairwise_cons] at h
    simp only [Memory.write]
    split
    · simp only [List.map_cons, List.pairwise_cons, List.mem_cons]
      refine ⟨?_, h⟩
      rintro a (rfl | ha)
      · assumption
      · have := h.1 a ha; omega
    · split
      · subst_vars; simpa using hd
      · simp only [List.map_cons, List.pairwise_cons]
        refine ⟨?_, ih h.2⟩
        intro a ha
        obtain ⟨c, hc, rfl⟩ := List.mem_map.1 ha
        rcases Memory.mem_write hc with rfl | hc
        · simp only; omega
        · exact h.1 _ (List.mem_map_of_mem hc)

/-- No entry says what an unlisted index says: an unlisted index holds no byte. -/
theorem Memory.listed_ne_unlisted (c : Host.Cell) : some c.2 ≠ Memory.unlisted c.1 := by
  simp [Memory.unlisted]

/-- A write keeps the canonical form. -/
theorem Memory.wf_write {m : Memory} (i : Nat) (v : Byte) (h : Memory.wf m) : Memory.wf (Memory.write m i v) :=
  ⟨Memory.write_pairwise i v h.1, fun c _ => Memory.listed_ne_unlisted c⟩

/-- The empty buffer is in canonical form. -/
theorem Memory.wf_nil : Memory.wf [] := by simp [Memory.wf]

/-- Both buffers of the reset state are in canonical form. -/
theorem reset_buffers_wf : Memory.wf State.reset.rxBuf ∧ Memory.wf State.reset.txBuf :=
  ⟨Memory.wf_nil, Memory.wf_nil⟩

/-- SYNC's store keeps RX_BUF in canonical form. -/
theorem storeRx_rxWf {s : State} (b : Byte) (h : Memory.wf s.rxBuf) : Memory.wf (s.storeRx b).rxBuf := by
  simpa using Memory.wf_write _ b h

/-- The host's write keeps TX_BUF in canonical form. -/
theorem writeTx_txWf {s : State} (i : Nat) (v : Byte) (h : Memory.wf s.txBuf) : Memory.wf (s.writeTx i v).txBuf := by
  simpa using Memory.wf_write i v h

/-- Reset leaves both buffers in canonical form. -/
theorem assertReset_wf (s : State) : Memory.wf s.assertReset.rxBuf ∧ Memory.wf s.assertReset.txBuf :=
  ⟨Memory.wf_nil, Memory.wf_nil⟩

/-- Two states with the same RX_BUF and the same draw number read the same bytes of it. -/
theorem rxByteAt_congr {s t : State} (h : t.rxBuf = s.rxBuf) (hd : t.rxDraws = s.rxDraws) (i : Nat) :
    t.rxByteAt i = s.rxByteAt i := by
  simp [State.rxByteAt, h, hd]

/-- A byte of RX_BUF that is stored reads the same whatever has been drawn since. -/
theorem rxByteAt_stored {s t : State} (h : t.rxBuf = s.rxBuf) {i : Nat} (hi : (Memory.read s.rxBuf i).isSome = true) :
    t.rxByteAt i = s.rxByteAt i := by
  obtain ⟨b, hb⟩ := Option.isSome_iff_exists.1 hi
  simp [State.rxByteAt, h, hb]

/-- Two states with the same TX_BUF and the same reset number read the same bytes of it. -/
theorem txByteAt_congr {s t : State} (h : t.txBuf = s.txBuf) (he : t.txEpoch = s.txEpoch) (i : Nat) :
    t.txByteAt i = s.txByteAt i := by
  simp [State.txByteAt, h, he]

/-- The byte just stored is the one read at its index; every other index reads as before. -/
theorem rxByteAt_storeRx (s : State) (b : Byte) (j : Nat) :
    (s.storeRx b).rxByteAt j = if j = s.rxCount.toNat then b else s.rxByteAt j := by
  simp only [State.rxByteAt, State.storeRx_rxBuf, State.storeRx_rxDraws, Memory.read_write]
  split <;> simp

/-- The byte just written is the one read at its index; every other index reads as before. -/
theorem txByteAt_writeTx (s : State) (i : Nat) (v : Byte) (j : Nat) :
    (s.writeTx i v).txByteAt j = if j = i then v else s.txByteAt j := by
  simp only [State.txByteAt, State.writeTx_txBuf, State.writeTx_txEpoch, Memory.read_write]
  split <;> simp

end Sys2Proof.Machine
end

