-- ==== Sys2Proof/Laws/Ops.lean ====
section
/-! SUPPORT. What the shared operations over bytes and bits compute: the checksum fold, a slice, the extraction loop. -/
namespace Sys2Proof.Machine

/-- Both checksum bytes of one step, as naturals (00_scope.md rule R14). -/
theorem ckStep_toNat (c : Byte × Byte) (x : Byte) :
    (ckStep c x).1.toNat = (c.1.toNat + x.toNat) % 256 ∧
    (ckStep c x).2.toNat = (c.2.toNat + (c.1.toNat + x.toNat) % 256) % 256 := by
  simp [ckStep, BitVec.toNat_add]

/-- A checksum taken over one more byte is one more step. -/
theorem cksum_concat (l : List Byte) (x : Byte) : cksum (l ++ [x]) = ckStep (cksum l) x := by
  simp [cksum]

@[simp] theorem cksum_nil : cksum [] = (0, 0) := rfl

@[simp] theorem sliceBytes_length (rd : Nat → Byte) (a b : Nat) : (sliceBytes rd a b).length = b - a := by
  simp [sliceBytes]

/-- Element i of a slice is the byte at first + i. -/
theorem sliceBytes_getElem (rd : Nat → Byte) (a b i : Nat) (h : i < (sliceBytes rd a b).length) :
    (sliceBytes rd a b)[i] = rd (a + i) := by
  simp [sliceBytes]

/-- A slice whose end moves up by one gains the byte there. -/
theorem sliceBytes_succ (rd : Nat → Byte) {a b : Nat} (h : a ≤ b) :
    sliceBytes rd a (b + 1) = sliceBytes rd a b ++ [rd b] := by
  have : b + 1 - a = (b - a) + 1 := by omega
  simp only [sliceBytes, this, List.range'_concat, List.map_append, List.map_cons, List.map_nil, Nat.one_mul]
  congr 3
  omega

/-- A slice with no element. -/
theorem sliceBytes_empty (rd : Nat → Byte) {a b : Nat} (h : b ≤ a) : sliceBytes rd a b = [] := by
  simp [sliceBytes, Nat.sub_eq_zero_of_le h]

/-- A slice depends only on the bytes in its range. -/
theorem sliceBytes_congr {rd rd' : Nat → Byte} {a b : Nat} (h : ∀ i, a ≤ i → i < b → rd i = rd' i) :
    sliceBytes rd a b = sliceBytes rd' a b := by
  simp only [sliceBytes]
  apply List.map_congr_left
  intro i hi
  rw [List.mem_range'_1] at hi
  exact h i hi.1 (by omega)

/-- One turn of the extraction loop, as naturals: the value doubles and takes the next bit. -/
theorem extractLoop_concat (rd : Nat → Byte) (v : Word) (p n : Nat) :
    extractLoop rd v p (n + 1) =
      (extractLoop rd v p n <<< 1) ||| BitVec.zeroExtend 32 (BitVec.ofBool (bufBit rd (p + n))) := by
  induction n generalizing v p with
  | zero => simp [extractLoop]
  | succ n ih => rw [extractLoop, ih]; simp [extractLoop, Nat.add_comm 1 n, Nat.add_assoc]

/-- Shifting in a bit doubles the value modulo 2^32 and adds the bit. -/
theorem shiftIn_toNat (v : Word) (b : Bool) :
    ((v <<< 1) ||| BitVec.zeroExtend 32 (BitVec.ofBool b)).toNat = (2 * v.toNat) % 2 ^ 32 + b.toNat := by
  have h : (v <<< 1) ||| BitVec.zeroExtend 32 (BitVec.ofBool b)
      = (v <<< 1) + BitVec.zeroExtend 32 (BitVec.ofBool b) := by
    rw [BitVec.add_eq_or_of_and_eq_zero]
    ext i hi
    cases b
    · simp
    · simp only [BitVec.getElem_and, BitVec.getElem_shiftLeft]
      simp +contextual
  have hv := v.isLt
  rw [h, BitVec.toNat_add]
  cases b <;> simp [Nat.shiftLeft_eq] <;> omega

/-- A value extracted over `n` positions is below 2^n. -/
theorem extractField_lt (rd : Nat → Byte) (o n : Nat) : (extractField rd o n).toNat < 2 ^ n := by
  induction n with
  | zero => simp [extractField, extractLoop]
  | succ n ih =>
    rw [extractField] at ih ⊢
    rw [extractLoop_concat, shiftIn_toNat]
    have hm := Nat.mod_le (2 * (extractLoop rd 0 o n).toNat) (2 ^ 32)
    have hb : (bufBit rd (o + n)).toNat ≤ 1 := Bool.toNat_le _
    rw [Nat.pow_succ]; omega

end Sys2Proof.Machine
end

