-- ==== Sys2Proof/Laws/Bits.lean ====
section
/-! SUPPORT. A buffer as one long big-endian number: the number its first bits make, the number its first bytes make,
and what an extraction is in terms of them. -/
namespace Sys2Proof.Machine

/-- The number the first `p` bits of a buffer make, most significant first. -/
def bitPrefix (rd : Nat → Byte) : Nat → Nat
  | 0 => 0
  | p + 1 => 2 * bitPrefix rd p + (bufBit rd p).toNat

/-- The number the first `m` bytes of a buffer make, big-endian. -/
def bytePrefix (rd : Nat → Byte) : Nat → Nat
  | 0 => 0
  | m + 1 => 256 * bytePrefix rd m + (rd m).toNat

/-- Extracting `n` bits at `o` continues the prefix at `o`. -/
theorem bitPrefix_extract (rd : Nat → Byte) (o : Nat) : ∀ n, n ≤ 32 →
    bitPrefix rd (o + n) = bitPrefix rd o * 2 ^ n + (extractField rd o n).toNat := by
  intro n
  induction n with
  | zero => intro _; simp [extractField, extractLoop]
  | succ n ih =>
    intro hn
    have h := ih (by omega)
    have hl := extractField_lt rd o n
    have hp : 2 ^ n ≤ 2 ^ 31 := Nat.pow_le_pow_right (by omega) (by omega)
    rw [extractField] at *
    rw [extractLoop_concat, shiftIn_toNat, ← Nat.add_assoc, bitPrefix, h, Nat.mod_eq_of_lt (by omega), Nat.pow_succ]
    ring

/-- Inside byte `m`, the bit prefix is the byte prefix continued by the byte's high bits. -/
theorem bitPrefix_inside (rd : Nat → Byte) (m j : Nat) (hj : j ≤ 8) (h : bitPrefix rd (8 * m) = bytePrefix rd m) :
    bitPrefix rd (8 * m + j) = bytePrefix rd m * 2 ^ j + (rd m).toNat / 2 ^ (8 - j) := by
  induction j with
  | zero => have := (rd m).isLt; simp [h]; omega
  | succ j ih =>
    rw [← Nat.add_assoc, bitPrefix, ih (by omega)]
    have hb : bufBit rd (8 * m + j) = (rd m).getLsbD (7 - j) := by
      unfold bufBit
      rw [show (8 * m + j) / 8 = m by omega, show (8 * m + j) % 8 = j by omega]
    rw [hb, BitVec.getLsbD, Nat.testBit]
    generalize (rd m).toNat = x
    have e : 8 - j = (7 - j) + 1 := by omega
    rw [e, show 8 - (j + 1) = 7 - j by omega, Nat.shiftRight_eq_div_pow, Nat.pow_succ 2 (7 - j),
      ← Nat.div_div_eq_div_mul]
    generalize x / 2 ^ (7 - j) = y
    have hy : (1 &&& y != 0).toNat = y % 2 := by
      rw [Nat.one_and_eq_mod_two]
      rcases Nat.mod_two_eq_zero_or_one y with h | h <;> simp [h]
    rw [Nat.pow_succ, hy, Nat.mul_add,
      show 2 * (bytePrefix rd m * 2 ^ j) = bytePrefix rd m * (2 ^ j * 2) by ring]
    omega

/-- At a byte boundary the two prefixes agree. -/
theorem bitPrefix_bytes (rd : Nat → Byte) (m : Nat) : bitPrefix rd (8 * m) = bytePrefix rd m := by
  induction m with
  | zero => rfl
  | succ m ih =>
    rw [show 8 * (m + 1) = 8 * m + 8 by ring, bitPrefix_inside rd m 8 (by omega) ih, bytePrefix]
    simp
    ring

/-- An extraction is its bit prefix, cut to its length. -/
theorem extractField_toNat (rd : Nat → Byte) (o n : Nat) (h : n ≤ 32) :
    (extractField rd o n).toNat = bitPrefix rd (o + n) % 2 ^ n := by
  rw [bitPrefix_extract rd o n h, Nat.mul_add_mod_self_right, Nat.mod_eq_of_lt (extractField_lt rd o n)]

end Sys2Proof.Machine
end

