-- ==== Sys2Proof/Laws/Bus.lean ====
section
/-! SUPPORT. What the address map says of each window, and what each host access that is no bus error does. -/
namespace Sys2Proof.Machine

/-- Each CSR is the one its own offset names. -/
theorem csrAt_offset (c : Csr) : csrAt (csrOffset c) = some c := by cases c <;> decide

/-- The offset of a CSR, as a bus address. -/
theorem csrOffset_toNat (c : Csr) : (BitVec.ofNat 32 (csrOffset c)).toNat = csrOffset c := by cases c <;> decide

/-- A misaligned address names no CSR. -/
theorem csrAt_misaligned {a : Nat} (h : a % 4 ≠ 0) : csrAt a = none := by
  unfold csrAt
  rw [List.find?_eq_none]
  intro c _
  cases c <;> simp [csrOffset] <;> omega

/-- Every aligned address of the window names one. -/
theorem csrAt_aligned {a : Nat} (h : a % 4 = 0) (h' : a < 0x38) : ∃ c, csrAt a = some c := by
  have all : ∀ a < 0x38, a % 4 = 0 → (csrAt a).isSome = true := by decide
  exact Option.isSome_iff_exists.1 (all a h' h)

/-- RX_BUF never reaches past its window's 65541 bytes, so the three windows are apart. -/
theorem rxBufBytes_le (p : Params) : rxBufBytes p ≤ 65541 := by unfold rxBufBytes; omega

theorem regionOf_csr (p : Params) {a : Nat} (h : a < 0x38) : regionOf p a = .csr := by
  simp [regionOf, csrWindowEnd, h]

theorem regionOf_rx (p : Params) {i : Nat} (h : i < rxBufBytes p) : regionOf p (rxBufBase + i) = .rx i := by
  unfold regionOf csrWindowEnd rxBufBase
  rw [if_neg (by omega), if_pos (by omega), Nat.add_sub_cancel_left]

theorem regionOf_tx (p : Params) {i : Nat} (h : i < p.txBufBytes) : regionOf p (txBufBase + i) = .tx i := by
  have := rxBufBytes_le p
  unfold regionOf csrWindowEnd rxBufBase txBufBase
  rw [if_neg (by omega), if_neg (by omega), if_pos (by omega), Nat.add_sub_cancel_left]

/-- The offset of a CSR lies in the CSR window. -/
theorem regionOf_offset (p : Params) (c : Csr) : regionOf p (csrOffset c) = .csr :=
  regionOf_csr p (by cases c <;> decide)

/-- A 32-bit write to CMD is the command step. -/
theorem hostAccess_cmd (s : State) (x v : Word) (hx : x.toNat = csrOffset .cmd) :
    hostAccess (.wr 32 x v) s = commandStep v (s.respond .done) := by
  simp [hostAccess, hostWrite, hx, regionOf_offset, csrAt_offset, writeCsr]

/-- A 32-bit write to any other CSR stores what that CSR keeps. -/
theorem hostAccess_csr (s : State) {c : Csr} (x v : Word) (hx : x.toNat = csrOffset c) (hc : c ≠ .cmd) :
    hostAccess (.wr 32 x v) s = .next ((storeCsr c v s).respond .done) := by
  simp [hostAccess, hostWrite, hx, regionOf_offset, csrAt_offset, writeCsr, hc]

/-- An 8-bit write into the TX_BUF window stores its low byte. -/
theorem hostAccess_tx (s : State) {i : Nat} (x v : Word) (hx : x.toNat = txBufBase + i) (hi : i < s.params.txBufBytes) :
    hostAccess (.wr 8 x v) s = .next ((s.writeTx i (v.extractLsb' 0 8)).respond .done) := by
  simp [hostAccess, hostWrite, hx, regionOf_tx s.params hi]

/-- A step on the host's turn with an access pending. -/
theorem step_host {s : State} {ts : List Turn} {a : HostAccess} {q : List HostAccess}
    (h : s.turns = .host :: ts) (h' : s.hostq = a :: q) :
    step s = hostAccess a { s with turns := ts, hostq := q } := by
  simp [step, nextTurn, h, agentTurn, hostTurn, h']

end Sys2Proof.Machine
end

