-- ==== Sys2Proof/Laws/Decode.lean ====
section
/-! SUPPORT. What the decoder of command words can answer, said once, with the row of the table it answers from. -/
namespace Sys2Proof.Machine

/-- The nine answers of the decoder, each with its row of 30_encoding.md rule R72. -/
theorem decodeCmd_cases (w : Word) :
    (w &&& 0xFFFFFFFF = 0x00000000 ∧ decodeCmd w = .ok .nop) ∨
    (w &&& 0xFFFFFEFF = 0x00000001 ∧ decodeCmd w = .ok (.bfxExtract (cmdSrc w))) ∨
    (w &&& 0xFFFFFFFF = 0x00000002 ∧ decodeCmd w = .ok .ckClear) ∨
    (w &&& 0xFF00FFFF = 0x00000003 ∧ decodeCmd w = .ok (.ckByte (cmdImm8 w))) ∨
    (w &&& 0xFFFFFEFF = 0x00000004 ∧ decodeCmd w = .ok (.ckRange (cmdSrc w))) ∨
    (w &&& 0xFFFFFFFF = 0x00000005 ∧ decodeCmd w = .ok .fencBuild) ∨
    (w &&& 0xFFFFFDFF = 0x00000006 ∧ decodeCmd w = .ok (.syncAck (cmdStop w))) ∨
    (w &&& 0xFFFFFFFF = 0x00000007 ∧ decodeCmd w = .ok .syncRestart) ∨
    ((∀ r ∈ commandRows, w &&& r.1 ≠ r.2) ∧ decodeCmd w = .error (illegalReason w)) := by
  unfold decodeCmd
  split_ifs with h0 h1 h2 h3 h4 h5 h6 h7
  · exact .inl ⟨h0, rfl⟩
  · exact .inr (.inl ⟨h1, rfl⟩)
  · exact .inr (.inr (.inl ⟨h2, rfl⟩))
  · exact .inr (.inr (.inr (.inl ⟨h3, rfl⟩)))
  · exact .inr (.inr (.inr (.inr (.inl ⟨h4, rfl⟩))))
  · exact .inr (.inr (.inr (.inr (.inr (.inl ⟨h5, rfl⟩)))))
  · exact .inr (.inr (.inr (.inr (.inr (.inr (.inl ⟨h6, rfl⟩))))))
  · exact .inr (.inr (.inr (.inr (.inr (.inr (.inr (.inl ⟨h7, rfl⟩)))))))
  · refine .inr (.inr (.inr (.inr (.inr (.inr (.inr (.inr ⟨?_, rfl⟩)))))))
    intro r hr
    simp only [commandRows, List.mem_cons, List.not_mem_nil, or_false] at hr
    rcases hr with rfl | rfl | rfl | rfl | rfl | rfl | rfl | rfl <;> assumption

/-- A mask that keeps the whole opcode byte fixes it. -/
theorem opcode_of_row {w m v : Word} (hm : m.toNat % 256 = 255) (h : w &&& m = v) :
    w.toNat % 256 = v.toNat % 256 := by
  subst h
  have h1 : (w.toNat &&& m.toNat) % 256 = w.toNat % 256 &&& m.toNat % 256 := by
    simpa using Nat.and_mod_two_pow (a := w.toNat) (b := m.toNat) (n := 8)
  have h2 := Nat.and_two_pow_sub_one_eq_mod (w.toNat % 256) 8
  simp only [Nat.reducePow, Nat.add_one_sub_one, Nat.mod_mod] at h2
  rw [BitVec.toNat_and, h1, hm, h2]

/-- The opcode byte each row of rule R72 fixes. -/
theorem row_opcodes (w : Word) :
    (w &&& 0xFFFFFFFF = 0x00000000 → w.toNat % 256 = 0) ∧ (w &&& 0xFFFFFEFF = 0x00000001 → w.toNat % 256 = 1) ∧
    (w &&& 0xFFFFFFFF = 0x00000002 → w.toNat % 256 = 2) ∧ (w &&& 0xFF00FFFF = 0x00000003 → w.toNat % 256 = 3) ∧
    (w &&& 0xFFFFFEFF = 0x00000004 → w.toNat % 256 = 4) ∧ (w &&& 0xFFFFFFFF = 0x00000005 → w.toNat % 256 = 5) ∧
    (w &&& 0xFFFFFDFF = 0x00000006 → w.toNat % 256 = 6) ∧ (w &&& 0xFFFFFFFF = 0x00000007 → w.toNat % 256 = 7) := by
  refine ⟨?_, ?_, ?_, ?_, ?_, ?_, ?_, ?_⟩ <;> intro h <;> simpa using opcode_of_row (by decide) h

/-- SRC = 1 names TX_BUF (rule R73). -/
theorem cmdSrc_eq_iff (w : Word) (src : Src) : cmdSrc w = src ↔ w.getLsbD 8 = decide (src = .tx) := by
  unfold cmdSrc
  cases src <;> cases w.getLsbD 8 <;> simp

/-- IMM8 as a number (rule R71). -/
theorem cmdImm8_eq_iff (w : Word) (x : Byte) : cmdImm8 w = x ↔ w.toNat / 65536 % 256 = x.toNat := by
  rw [← BitVec.toNat_inj]
  simp [cmdImm8, Nat.shiftRight_eq_div_pow]

/-- A word is what its mask keeps together with what it drops. -/
theorem word_of_masked {w m v : Word} (h : w &&& m = v) : w = v ||| (w &&& ~~~m) := by
  subst h
  ext i hi
  simp only [BitVec.getElem_or, BitVec.getElem_and, BitVec.getElem_not]
  cases w[i] <;> simp

/-- A full mask keeps the whole word. -/
theorem word_of_full_mask {w v : Word} (h : w &&& 0xFFFFFFFF = v) : w = v := by
  have hm : (0xFFFFFFFF : Word) = BitVec.allOnes 32 := by decide
  rwa [hm, BitVec.and_allOnes] at h

/-- The decoder of command words answers no receive event. -/
theorem decodeCmd_isEvent {w : Word} {i : Instr} (h : decodeCmd w = .ok i) : i.isEvent = false := by
  unfold decodeCmd at h
  split_ifs at h <;> (cases h; rfl)

/-- The decoder of event words answers a receive event. -/
theorem decodeEvent_isEvent (w : EventWord) : (decodeEvent w).isEvent = true := by
  unfold decodeEvent
  split_ifs <;> rfl

end Sys2Proof.Machine
end

