-- ==== Sys2Proof/Laws/Exec.lean ====
section
/-! SUPPORT. What each shared step can do, said once: one inversion lemma for a received byte, a non-byte event, a host
access and a whole step. Later proofs cite these instead of unfolding the machine. -/
namespace Sys2Proof.Machine

/-- A non-byte event either fails the session in the read state it arrives in, or stays pending. -/
theorem transportFailure_cases {ev : FailEvent} {s : State} {o : Host.Outcome State Fault Refusal}
    (h : transportFailure ev s = o) :
    (∃ st, s.syncState.readState? = some st ∧ o = .next (s.consumeEvent.fail .transportError st ev)) ∨
    (s.syncState.readState? = none ∧ o = .next s) := by
  subst h
  unfold transportFailure
  cases s.syncState.readState? <;> simp

/-- A received byte is stored and acted on in a read state with room for it, faults in one without, and stays pending
in any other state. -/
theorem execRxByte_cases {b : Byte} {s : State} {o : Host.Outcome State Fault Refusal} (h : execRxByte b s = o) :
    (∃ st, s.syncState.readState? = some st ∧ s.rxCount.toNat < rxBufBytes s.params ∧
      o = .next (byteAction st s.rxCount.toNat b (s.consumeEvent.storeRx b))) ∨
    (s.syncState.readState?.isSome = true ∧ rxBufBytes s.params ≤ s.rxCount.toNat ∧ o = .fault .rxBufOverrun) ∨
    (s.syncState.readState? = none ∧ o = .next s) := by
  subst h
  unfold execRxByte
  cases s.syncState.readState? with
  | none => simp
  | some st =>
    by_cases hk : s.rxCount.toNat < rxBufBytes s.params
    · simp [hk]
    · simp only [hk, ↓reduceIte]
      exact .inr (.inl ⟨rfl, by omega, trivial⟩)

/-- The states `byteAction` works from: the byte stored, then summed or not, then the length decoded or not. -/
theorem byteAction_cases (st : ReadState) (k : Nat) (b : Byte) (s : State) :
    (∃ u, (u = s ∨ u = s.rxCk b ∨ u = (s.rxCk b).loadRxLen) ∧
      (byteAction st k b s = u ∨
        (∃ x, x ≠ SyncState.failed ∧ x ≠ SyncState.stopped ∧ byteAction st k b s = u.setSync x) ∨
        ∃ cls, (cls, st, FailEvent.value) ∈ failureRecords ∧ byteAction st k b s = u.fail cls st .value)) := by
  cases st with
  | awaitingMarker =>
    simp only [byteAction, markerAction]
    split
    · exact ⟨s, .inl rfl, .inr (.inr ⟨_, by decide, rfl⟩)⟩
    · exact ⟨s, .inl rfl, .inr (.inl ⟨.readingLength, by decide, by decide, rfl⟩)⟩
  | readingLength =>
    simp only [byteAction, lengthAction, lengthCheck]
    split
    · refine ⟨(s.rxCk b).loadRxLen, .inr (.inr rfl), ?_⟩
      split
      · exact .inr (.inr ⟨_, by decide, rfl⟩)
      · split
        · exact .inr (.inr ⟨_, by decide, rfl⟩)
        · exact .inr (.inl ⟨.readingBody, by decide, by decide, rfl⟩)
    · exact ⟨s.rxCk b, .inr (.inl rfl), .inl rfl⟩
  | readingBody =>
    have hu : bodySum k b s = s ∨ bodySum k b s = s.rxCk b := by unfold bodySum; split <;> simp
    refine ⟨bodySum k b s, by tauto, ?_⟩
    simp only [byteAction, bodyAction, messageEnd]
    split
    · split
      · exact .inr (.inr ⟨_, by decide, rfl⟩)
      · exact .inr (.inl ⟨.dispatch, by decide, by decide, rfl⟩)
    · exact .inl rfl

/-- SYNC_ACK in Dispatch. -/
theorem execSyncAck_dispatch (p : Bool) {s : State} (h : s.syncState = .dispatch) :
    execSyncAck p s = commandOk (if p then s.enterStopped else s.awaitMessage) := by
  unfold execSyncAck
  rw [h]

/-- SYNC_ACK anywhere else. -/
theorem execSyncAck_error (p : Bool) {s : State} (h : s.syncState ≠ .dispatch) :
    execSyncAck p s = commandError .stateError s := by
  unfold execSyncAck
  cases hs : s.syncState <;> first | exact absurd hs h | rfl

/-- SYNC_RESTART in a terminal state. -/
theorem execSyncRestart_terminal {s : State} (h : s.syncState = .failed ∨ s.syncState = .stopped) :
    execSyncRestart s = commandOk s.restartSession := by
  unfold execSyncRestart
  rcases h with h | h <;> rw [h]

/-- SYNC_RESTART anywhere else. -/
theorem execSyncRestart_error {s : State} (h1 : s.syncState ≠ .failed) (h2 : s.syncState ≠ .stopped) :
    execSyncRestart s = commandError .stateError s := by
  unfold execSyncRestart
  cases hs : s.syncState <;> first | exact absurd hs h1 | exact absurd hs h2 | rfl

/-- A next state is one state. -/
theorem next_eq {a b : State} (h : (Host.Outcome.next a : Host.Outcome State Fault Refusal) = .next b) : b = a := by
  injection h with h
  exact h.symm

/-- What a command can do: report an error and no more, or its own update and OK. -/
theorem exec_command_cases {i : Instr} {s t : State} (hi : i.isEvent = false) (h : exec i s = .next t) :
    (∃ e, t = s.setCmdErr e) ∨
    (∃ src v, i = .bfxExtract src ∧ t = (s.setBfxRes v).setCmdErr .ok) ∨
    (∃ c, (i = .ckClear ∨ (∃ x, i = .ckByte x) ∨ ∃ src, i = .ckRange src) ∧ t = (s.setCk c).setCmdErr .ok) ∨
    (∃ l c, i = .fencBuild ∧ t = ((s.emit l).setCk c).setCmdErr .ok) ∨
    (∃ p, i = .syncAck p ∧ (t = s.enterStopped.setCmdErr .ok ∨ t = s.awaitMessage.setCmdErr .ok)) ∨
    (i = .syncRestart ∧ t = s.restartSession.setCmdErr .ok) := by
  cases i with
  | nop => exact .inl ⟨_, next_eq h⟩
  | bfxExtract src =>
    simp only [exec, execBfxExtract] at h
    split at h
    · exact .inl ⟨_, next_eq h⟩
    · exact .inr (.inl ⟨_, _, rfl, next_eq h⟩)
  | ckClear => exact .inr (.inr (.inl ⟨_, .inl rfl, next_eq h⟩))
  | ckByte x => exact .inr (.inr (.inl ⟨_, .inr (.inl ⟨_, rfl⟩), next_eq h⟩))
  | ckRange src =>
    simp only [exec, execCkRange] at h
    split at h
    · exact .inl ⟨_, next_eq h⟩
    · exact .inr (.inr (.inl ⟨_, .inr (.inr ⟨_, rfl⟩), next_eq h⟩))
  | fencBuild =>
    simp only [exec, execFencBuild] at h
    split at h
    · exact .inl ⟨_, next_eq h⟩
    · exact .inr (.inr (.inr (.inl ⟨_, _, rfl, next_eq h⟩)))
  | syncAck p =>
    by_cases hd : s.syncState = .dispatch
    · rw [exec, execSyncAck_dispatch _ hd] at h
      refine .inr (.inr (.inr (.inr (.inl ⟨p, rfl, ?_⟩))))
      cases p
      · exact .inr (next_eq h)
      · exact .inl (next_eq h)
    · rw [exec, execSyncAck_error _ hd] at h
      exact .inl ⟨_, next_eq h⟩
  | syncRestart =>
    by_cases ht : s.syncState = .failed ∨ s.syncState = .stopped
    · rw [exec, execSyncRestart_terminal ht] at h
      exact .inr (.inr (.inr (.inr (.inr ⟨rfl, next_eq h⟩))))
    · rw [exec, execSyncRestart_error (fun h => ht (.inl h)) (fun h => ht (.inr h))] at h
      exact .inl ⟨_, next_eq h⟩
  | rxByte _ => simp [Instr.isEvent] at hi
  | rxEos => simp [Instr.isEvent] at hi
  | rxErr => simp [Instr.isEvent] at hi
  | rxTimeout => simp [Instr.isEvent] at hi

/-- What a receive event can do: stay pending, fail the session, or store its byte and act on it. -/
theorem exec_event_cases {i : Instr} {s t : State} (hi : i.isEvent = true) (h : exec i s = .next t) :
    (s.syncState.readState? = none ∧ t = s) ∨
    (∃ st ev, s.syncState.readState? = some st ∧
      ((i = .rxEos ∧ ev = .eos) ∨ (i = .rxErr ∧ ev = .err) ∨ (i = .rxTimeout ∧ ev = .timeout)) ∧
      t = s.consumeEvent.fail .transportError st ev) ∨
    (∃ st b, s.syncState.readState? = some st ∧ i = .rxByte b ∧ s.rxCount.toNat < rxBufBytes s.params ∧
      t = byteAction st s.rxCount.toNat b (s.consumeEvent.storeRx b)) := by
  have nonByte : ∀ ev, ((i = .rxEos ∧ ev = .eos) ∨ (i = .rxErr ∧ ev = .err) ∨ (i = .rxTimeout ∧ ev = .timeout)) →
      transportFailure ev s = .next t → (s.syncState.readState? = none ∧ t = s) ∨
      (∃ st ev, s.syncState.readState? = some st ∧
        ((i = .rxEos ∧ ev = .eos) ∨ (i = .rxErr ∧ ev = .err) ∨ (i = .rxTimeout ∧ ev = .timeout)) ∧
        t = s.consumeEvent.fail .transportError st ev) := by
    intro ev hev h
    rcases transportFailure_cases h with ⟨st, a, h⟩ | ⟨a, h⟩
    · exact .inr ⟨st, ev, a, hev, next_eq h.symm⟩
    · exact .inl ⟨a, next_eq h.symm⟩
  cases i with
  | rxByte b =>
    rcases execRxByte_cases h with ⟨st, a, k, h⟩ | ⟨_, _, h⟩ | ⟨a, h⟩
    · exact .inr (.inr ⟨st, b, a, rfl, k, next_eq h.symm⟩)
    · cases h
    · exact .inl ⟨a, next_eq h.symm⟩
  | rxEos => exact (nonByte .eos (by simp) h).imp_right .inl
  | rxErr => exact (nonByte .err (by simp) h).imp_right .inl
  | rxTimeout => exact (nonByte .timeout (by simp) h).imp_right .inl
  | nop => simp [Instr.isEvent] at hi
  | bfxExtract _ => simp [Instr.isEvent] at hi
  | ckClear => simp [Instr.isEvent] at hi
  | ckByte _ => simp [Instr.isEvent] at hi
  | ckRange _ => simp [Instr.isEvent] at hi
  | fencBuild => simp [Instr.isEvent] at hi
  | syncAck _ => simp [Instr.isEvent] at hi
  | syncRestart => simp [Instr.isEvent] at hi

/-- What acting on a stored byte can write: SYNC's own registers, its record and EVOUT. -/
theorem byteAction_frame (st : ReadState) (k : Nat) (b : Byte) (s : State) :
    byteAction st k b s =
      { s with rxLen := (byteAction st k b s).rxLen, rxckA := (byteAction st k b s).rxckA,
               rxckB := (byteAction st k b s).rxckB, syncState := (byteAction st k b s).syncState,
               failClass := (byteAction st k b s).failClass, failState := (byteAction st k b s).failState,
               failEvent := (byteAction st k b s).failEvent, closed := (byteAction st k b s).closed,
               evout := (byteAction st k b s).evout } := by
  obtain ⟨u, hu, h⟩ := byteAction_cases st k b s
  rcases hu with rfl | rfl | rfl <;> rcases h with h | ⟨x, _, _, h⟩ | ⟨c, _, h⟩ <;> simp only [h] <;> rfl

/-- The states a receive event stays pending in. -/
theorem readState?_eq_none_iff (st : SyncState) :
    st.readState? = none ↔ st = .dispatch ∨ st = .failed ∨ st = .stopped := by
  cases st <;> simp [SyncState.readState?]

/-- The three read states. -/
theorem readState?_isSome_iff (st : SyncState) :
    st.readState?.isSome = true ↔ st = .awaitingMarker ∨ st = .readingLength ∨ st = .readingBody := by
  cases st <;> simp [SyncState.readState?]

/-- A command never faults and is never refused; what each command does is its meaning's own equation. -/
theorem commandStep_next (w : Word) (s : State) : ∃ t, commandStep w s = .next t := by
  unfold commandStep
  cases hd : decodeCmd w with
  | error e => exact ⟨_, rfl⟩
  | ok i =>
    have key : ∀ j : Instr, j.isEvent = false → ∃ t, exec j s = .next t := by
      intro j hj
      cases j with
      | nop => exact ⟨_, rfl⟩
      | bfxExtract src => simp only [exec, execBfxExtract]; split <;> exact ⟨_, rfl⟩
      | ckClear => exact ⟨_, rfl⟩
      | ckByte x => exact ⟨_, rfl⟩
      | ckRange src => simp only [exec, execCkRange]; split <;> exact ⟨_, rfl⟩
      | fencBuild => simp only [exec, execFencBuild]; split <;> exact ⟨_, rfl⟩
      | syncAck p => simp only [exec, execSyncAck]; split <;> exact ⟨_, rfl⟩
      | syncRestart => simp only [exec, execSyncRestart]; split <;> exact ⟨_, rfl⟩
      | rxByte _ => simp [Instr.isEvent] at hj
      | rxEos => simp [Instr.isEvent] at hj
      | rxErr => simp [Instr.isEvent] at hj
      | rxTimeout => simp [Instr.isEvent] at hj
    refine key i ?_
    unfold decodeCmd at hd
    split_ifs at hd <;> (cases hd; rfl)

/-- The address CMD is named by is 0 alone. -/
theorem csrAt_cmd {addr : Nat} (h : csrAt addr = some .cmd) : addr = 0 := by
  have := List.find?_some h
  exact (by simpa [csrOffset] using this : 0 = addr).symm

/-- What a host access can do: an error response, a read's response, a TX_BUF write, a CSR write, or the command step. -/
theorem hostAccess_cases (a : HostAccess) (s : State) :
    hostAccess a s = .next (s.respond .busError) ∨
    (∃ c, hostAccess a s = .next (s.respond (.word (readCsr c s)))) ∨
    (∃ b, hostAccess a s = .next (s.respond (.byte b))) ∨
    (∃ b, hostAccess a s = .next (s.drawRx.respond (.byte b))) ∨
    (∃ i v, i < s.params.txBufBytes ∧ hostAccess a s = .next ((s.writeTx i v).respond .done)) ∨
    (∃ c v, hostAccess a s = .next ((storeCsr c v s).respond .done)) ∨
    (∃ w, a = .wr 32 0 w ∧ hostAccess a s = commandStep w (s.respond .done)) := by
  cases a with
  | rd bits addr =>
    simp only [hostAccess, hostRead]
    cases regionOf s.params addr.toNat with
    | csr =>
      simp only
      split
      · cases csrAt addr.toNat with
        | none => exact .inl rfl
        | some c => exact .inr (.inl ⟨c, rfl⟩)
      · exact .inl rfl
    | rx i =>
      simp only [hostReadRx]
      split
      · split
        · exact .inr (.inr (.inl ⟨_, rfl⟩))
        · exact .inr (.inr (.inr (.inl ⟨_, rfl⟩)))
      · exact .inl rfl
    | tx i =>
      simp only
      split
      · exact .inr (.inr (.inl ⟨_, rfl⟩))
      · exact .inl rfl
    | unmapped => exact .inl rfl
  | wr bits addr data =>
    simp only [hostAccess, hostWrite]
    cases hr : regionOf s.params addr.toNat with
    | csr =>
      simp only
      split
      next hb =>
        cases hc : csrAt addr.toNat with
        | none => exact .inl rfl
        | some c =>
          simp only [writeCsr]
          split
          next hcmd =>
            have h0 : addr = 0#32 := BitVec.eq_of_toNat_eq (csrAt_cmd (hcmd ▸ hc))
            exact .inr (.inr (.inr (.inr (.inr (.inr ⟨data, by subst hb h0; rfl, rfl⟩)))))
          next => exact .inr (.inr (.inr (.inr (.inr (.inl ⟨c, data, rfl⟩)))))
      next => exact .inl rfl
    | rx i => exact .inl rfl
    | tx i =>
      have hi : i < s.params.txBufBytes := by
        unfold regionOf at hr
        split_ifs at hr with _ _ h3
        injection hr with hr
        omega
      simp only
      split
      · exact .inr (.inr (.inr (.inr (.inl ⟨i, _, hi, rfl⟩))))
      · exact .inl rfl
    | unmapped => exact .inl rfl

/-- What one step can do: nothing, a host access, a receive event offered to SYNC, or reset. -/
theorem step_cases (s : State) :
    (s.turns = [] ∧ step s = .next s) ∨
    (∃ ts, s.turns = .host :: ts ∧ s.hostq = [] ∧ step s = .next { s with turns := ts }) ∨
    (∃ ts a q, s.turns = .host :: ts ∧ s.hostq = a :: q ∧
      step s = hostAccess a { s with turns := ts, hostq := q }) ∨
    (∃ ts, s.turns = .receive :: ts ∧ s.rxin = [] ∧ step s = .next { s with turns := ts }) ∨
    (∃ ts w r, s.turns = .receive :: ts ∧ s.rxin = w :: r ∧
      step s = exec (decodeEvent w) { s with turns := ts }) ∨
    (∃ ts, s.turns = .reset :: ts ∧ step s = .next { s with turns := ts }.assertReset) := by
  unfold step nextTurn
  cases hts : s.turns with
  | nil => simp
  | cons t ts =>
    cases t with
    | host =>
      cases hq : s.hostq with
      | nil => simp [agentTurn, hostTurn]
      | cons a q => simp [agentTurn, hostTurn]
    | receive =>
      cases hr : s.rxin with
      | nil => simp [agentTurn, receiveTurn]
      | cons w r => simp [agentTurn, receiveTurn]
    | reset => simp [agentTurn]

end Sys2Proof.Machine
end

