-- ==== Sys2Proof/Laws/PerInstr.lean ====
section
/-! SUPPORT. The family EncodedRow: every instruction's own word stands in its row of the opcode table. -/
namespace Sys2Proof.Laws.EncodedRow
open Sys2Proof Sys2Proof.Machine

/-- The (mask, match) row of a command (30_encoding.md rule R72), and the KIND of a receive event (rule R74). -/
def row : Instr → (Word × Word) ⊕ BitVec 2
  | .nop => .inl (0xFFFFFFFF, 0x00000000)
  | .bfxExtract _ => .inl (0xFFFFFEFF, 0x00000001)
  | .ckClear => .inl (0xFFFFFFFF, 0x00000002)
  | .ckByte _ => .inl (0xFF00FFFF, 0x00000003)
  | .ckRange _ => .inl (0xFFFFFEFF, 0x00000004)
  | .fencBuild => .inl (0xFFFFFFFF, 0x00000005)
  | .syncAck _ => .inl (0xFFFFFDFF, 0x00000006)
  | .syncRestart => .inl (0xFFFFFFFF, 0x00000007)
  | .rxByte _ => .inr 0
  | .rxEos => .inr 1
  | .rxErr => .inr 2
  | .rxTimeout => .inr 3

/-- The instruction's encoded word has the format of its row and satisfies it. -/
def Statement (i : Instr) : Prop :=
  match row i, encode i with
  | .inl r, .cmd32 w => r ∈ commandRows ∧ w &&& r.1 = r.2
  | .inr k, .rxevt10 w => w.extractLsb' 8 2 = k
  | .inl _, .rxevt10 _ => False
  | .inr _, .cmd32 _ => False

theorem nop : Statement .nop := ⟨by decide, by decide⟩
theorem bfxExtract (src : Src) : Statement (.bfxExtract src) := by cases src <;> exact ⟨by decide, by decide⟩
theorem ckClear : Statement .ckClear := ⟨by decide, by decide⟩
theorem ckByte (imm8 : Byte) : Statement (.ckByte imm8) := by
  have h : ∀ x : Byte, cmdWord 0x03 0 0 x &&& 0xFF00FFFF = 0x00000003 := by decide +kernel
  exact ⟨by decide, h imm8⟩
theorem ckRange (src : Src) : Statement (.ckRange src) := by cases src <;> exact ⟨by decide, by decide⟩
theorem fencBuild : Statement .fencBuild := ⟨by decide, by decide⟩
theorem syncAck (stop : Bool) : Statement (.syncAck stop) := by cases stop <;> exact ⟨by decide, by decide⟩
theorem syncRestart : Statement .syncRestart := ⟨by decide, by decide⟩
theorem rxByte (data : Byte) : Statement (.rxByte data) := by
  have h : ∀ x : Byte, (eventWord 0 x).extractLsb' 8 2 = 0 := by decide +kernel
  exact h data
theorem rxEos : Statement .rxEos := rfl
theorem rxErr : Statement .rxErr := rfl
theorem rxTimeout : Statement .rxTimeout := rfl

end Sys2Proof.Laws.EncodedRow
end

