-- ==== Sys2Proof/Tests/Slice0.lean ====
section
/-! SUPPORT. The model's own tests: the parameter checks, the decoding of words written out from the spec's tables, one
step of each instruction with the values of spec/95_test_vectors.md, and for every statement with hypotheses a concrete
state and operands that meet them. -/
namespace Sys2Proof.Tests
open Sys2Proof Sys2Proof.Machine

/-! ### Helpers -/

/-- A buffer holding these bytes from index 0 on. -/
def listed (l : List Byte) : Memory := (l.zipIdx).map (fun c => (c.2, c.1))

/-- What is read from the next state of an outcome, if there is one. -/
def after {α : Type} (o : Host.Outcome State Fault Refusal) (f : State → α) : Option α :=
  match o with
  | .next t => some (f t)
  | .fault _ => none
  | .refused _ => none

/-- TX_BUF = `12 34 56 78 9A`, TX_LEN = 5 (95 section 2.3). -/
def tx5 : State := { State.reset with txBuf := listed [0x12, 0x34, 0x56, 0x78, 0x9A], txLen := 5 }

/-- MAX_PAYLOAD = 16 (95 E5), SYNC in AwaitingMarker, something in the host's accumulator. -/
def idle : State := { State.reset with params := { Params.default with maxPayload := 16 }, ckA := 7 }

/-- `D3` received. -/
def opened : State := { idle with syncState := .readingLength, rxCount := 1, rxBuf := listed [0xD3] }

/-- `D3 00` received. -/
def halfLength : State := { opened with rxCount := 2, rxBuf := listed [0xD3, 0x00] }

/-- `D3 00 02 07 08 01 02` received (95 section 2.6): the last trailer byte is still to come. -/
def inBody : State :=
  { State.reset with syncState := .readingBody, rxCount := 7, rxLen := 2, rxckA := 0x11, rxckB := 0x1C,
                     rxBuf := listed [0xD3, 0x00, 0x02, 0x07, 0x08, 0x01, 0x02] }

/-- `D3 00 04 DE AD BE EF 3C FE 55` received (95 section 2.6), with inputs still to come. -/
def dispatched : State :=
  { State.reset with syncState := .dispatch, rxCount := 10, rxLen := 4, rxckA := 0x3C, rxckB := 0xFE,
                     rxBuf := listed [0xD3, 0x00, 0x04, 0xDE, 0xAD, 0xBE, 0xEF, 0x3C, 0xFE, 0x55],
                     turns := [.host, .receive], hostq := [.wr 32 0 0x00000006], rxin := [0x100] }

/-- A session that ended in Stopped. -/
def ended : State := { dispatched with syncState := .stopped, closed := true, evout := [.connClose] }

/-- A session that failed on its first byte (95 E4). -/
def failedAtMarker : State :=
  { State.reset with syncState := .failed, failClass := .protocolViolation, failEvent := .value, closed := true,
                     rxCount := 1, rxBuf := listed [0xD4], evout := [.connClose],
                     turns := [.host], hostq := [.wr 32 0 0x00000007] }

/-- `s` with one command word as the host's next access, on the host's turn. -/
def issuing (w : Word) (s : State) : State := { s with turns := [.host], hostq := [.wr 32 0 w] }

/-- `s` with one event word at the head of RXIN, on the receive port's turn. -/
def offering (w : EventWord) (s : State) : State := { s with turns := [.receive], rxin := [w] }

/-! ### Well-formedness smoke tests (00_scope.md rule R6) -/

theorem test_default_params_legal : Params.default.Legal := by decide
theorem test_maxPayload_zero_refused : ¬ ({ Params.default with maxPayload := 0 } : Params).Legal := by decide
theorem test_maxPayload_too_big_refused : ¬ ({ Params.default with maxPayload := 4294967296 } : Params).Legal := by
  decide
theorem test_txBufBytes_too_big_refused : ¬ ({ Params.default with txBufBytes := 65536 } : Params).Legal := by decide

/-! ### Decoding, the words written out from rules R71, R72 and R74 -/

theorem test_decode_nop : decodeTableWord 32 0x00000000 = some .nop := by decide
theorem test_decode_bfx_rx : decodeTableWord 32 0x00000001 = some (.bfxExtract .rx) := by decide
theorem test_decode_bfx_tx : decodeTableWord 32 0x00000101 = some (.bfxExtract .tx) := by decide
theorem test_decode_ckClear : decodeTableWord 32 0x00000002 = some .ckClear := by decide
theorem test_decode_ckByte : decodeTableWord 32 0x00A50003 = some (.ckByte 0xA5) := by decide
theorem test_decode_ckRange_rx : decodeTableWord 32 0x00000004 = some (.ckRange .rx) := by decide
theorem test_decode_ckRange_tx : decodeTableWord 32 0x00000104 = some (.ckRange .tx) := by decide
theorem test_decode_fencBuild : decodeTableWord 32 0x00000005 = some .fencBuild := by decide
theorem test_decode_syncAck : decodeTableWord 32 0x00000006 = some (.syncAck false) := by decide
theorem test_decode_syncAck_stop : decodeTableWord 32 0x00000206 = some (.syncAck true) := by decide
theorem test_decode_syncRestart : decodeTableWord 32 0x00000007 = some .syncRestart := by decide
theorem test_decode_rxByte : decodeTableWord 16 0x0D3 = some (.rxByte 0xD3) := by decide
theorem test_decode_rxEos : decodeTableWord 16 0x100 = some .rxEos := by decide
theorem test_decode_rxErr : decodeTableWord 16 0x2A5 = some .rxErr := by decide
theorem test_decode_rxTimeout : decodeTableWord 16 0x300 = some .rxTimeout := by decide
/-- The ILLEGAL words of 95 section 2.1. -/
theorem test_decode_illegal :
    [0x201, 0x01000003, 0x103, 0x106, 0x8, 0xFF, 0x400, 0x10000, 0x80000001].map (decodeTableWord 32) =
      List.replicate 9 none := by decide

/-! ### One step of each instruction -/

/-- 95 section 2.1: a `nop` after an error gives CMD_ERR = OK. -/
theorem test_nop : after (exec .nop { tx5 with cmdErr := .illegalCommand }) State.cmdErr = some .ok := by decide
/-- 95 section 2.3: (4, 32) gives 0x23456789. -/
theorem test_bfxExtract : after (exec (.bfxExtract .tx) { tx5 with bfxOff := 4, bfxLen := 32 })
    (fun t => (t.bfxRes, t.cmdErr)) = some (0x23456789, .ok) := by decide
/-- 95 section 2.3: (39, 2) is OUT_OF_RANGE and leaves BFX_RES. -/
theorem test_bfxExtract_range : after (exec (.bfxExtract .tx) { tx5 with bfxOff := 39, bfxLen := 2, bfxRes := 5 })
    (fun t => (t.bfxRes, t.cmdErr)) = some (5, .outOfRange) := by decide
/-- 95 section 2.4. -/
theorem test_ckClear : after (exec .ckClear { tx5 with ckA := 3, ckB := 7 }) (readCsr .ck) = some 0 := by decide
/-- 95 section 2.4: from (0xFF, 0xFF), `ck.b 0x01` gives (0x00, 0xFF). -/
theorem test_ckByte : after (exec (.ckByte 1) { tx5 with ckA := 0xFF, ckB := 0xFF }) (readCsr .ck) =
    some 0x0000FF00 := by decide
/-- 95 section 2.4: bytes [1, 3) give 0xBE8A. -/
theorem test_ckRange : after (exec (.ckRange .tx) { tx5 with ckStart := 1, ckEnd := 3 }) (readCsr .ck) =
    some 0xBE8A := by decide
/-- 95 section 2.4: bytes [0, 6) are OUT_OF_RANGE. -/
theorem test_ckRange_range : after (exec (.ckRange .tx) { tx5 with ckEnd := 6 }) State.cmdErr =
    some .outOfRange := by decide
/-- 95 E1: the frame of "secret". -/
theorem test_fencBuild : after (exec .fencBuild { State.reset with
      txBuf := listed [0x73, 0x65, 0x63, 0x72, 0x65, 0x74], txLen := 6, fencType := 0xE001 })
    (fun t => (t.txout, readCsr .ck t)) =
    some ([0xB5, 0x62, 0xE0, 0x01, 0x06, 0x00, 0x73, 0x65, 0x63, 0x72, 0x65, 0x74, 0x6D, 0xC4], 0xC46D) := by decide
/-- 95 section 2.5: TX_LEN = 65536 is OUT_OF_RANGE, nothing emitted. -/
theorem test_fencBuild_range : after (exec .fencBuild { tx5 with txLen := 65536 }) (fun t => (t.cmdErr, t.txout)) =
    some (.outOfRange, []) := by decide
/-- 95 section 2.7: `sync.ack` in Dispatch. -/
theorem test_syncAck : after (exec (.syncAck false) dispatched)
    (fun t => (readCsr .status t, readCsr .rxCount t, readCsr .rxck t)) = some (0, 0, 0) := by decide
/-- 95 section 2.7: `sync.ack stop` in Dispatch. -/
theorem test_syncAck_stop : after (exec (.syncAck true) dispatched)
    (fun t => (readCsr .status t, t.rxCount, t.evout)) = some (0x000E0050, 10, [.connClose]) := by decide
/-- 95 section 2.7: `sync.rst` in Failed. -/
theorem test_syncRestart : after (exec .syncRestart failedAtMarker) (fun t => (readCsr .status t, t.evout)) =
    some (0, [.connClose]) := by decide
/-- 95 section 2.7: `sync.rst` in Dispatch. -/
theorem test_syncRestart_error : after (exec .syncRestart dispatched) (readCsr .status) = some 0x00010033 := by decide
/-- 95 E4: a wrong first byte. -/
theorem test_rxByte_marker : after (exec (.rxByte 0xD4) State.reset)
    (fun t => (readCsr .status t, t.rxCount, Memory.read t.rxBuf 0, t.evout)) =
    some (0x00061240, 1, some 0xD4, [.connClose]) := by decide
/-- 95 E5: N = 16 = MAX_PAYLOAD fails. -/
theorem test_rxByte_cap : after (exec (.rxByte 0x10) halfLength)
    (fun t => (readCsr .status t, t.rxLen, readCsr .rxck t)) = some (0x00061740, 16, 0x1010) := by decide
/-- 95 E7: EOS in AwaitingMarker. -/
theorem test_rxEos : after (exec .rxEos State.reset) (readCsr .status) = some 0x00062140 := by decide
/-- 95 section 2.6: EOS in Dispatch stays pending. -/
theorem test_rxEos_pending : after (exec .rxEos dispatched) (fun t => (readCsr .status t, t.rxin)) =
    some (0x00010030, [0x100]) := by decide
/-- 95 section 2.6: `D3 ERR`. -/
theorem test_rxErr : after (exec .rxErr opened) (readCsr .status) = some 0x00063540 := by decide
/-- 95 section 2.6: TIMEOUT in ReadingBody. -/
theorem test_rxTimeout : after (exec .rxTimeout inBody) (readCsr .status) = some 0x00064940 := by decide

/-! ### The placed instruction is the next one to run (logs 3 and 15) -/

theorem test_withFetchWord_cmd : after (step (State.reset.withFetchWord 32 0x00FF0003)) (readCsr .ck) =
    some 0x0000FFFF := by decide
theorem test_withFetchWord_event : after (step (State.reset.withFetchWord 16 0x0D3)) (readCsr .status) =
    some 0x00000010 := by decide

/-! ### The invariants hold of states that a session reaches -/

theorem idle_inv : idle.Inv where
  legal := by decide
  rxWf := by decide
  txWf := by decide
  rxInside := by decide
  txInside := by decide
  closedIsEnd := by decide
  failure := by decide
  countInside := by decide
  stored := by decide
  lengthDecoded := by decide
  runningCk := by decide
  position := ⟨by decide, by decide⟩

theorem opened_inv : opened.Inv where
  legal := by decide
  rxWf := by decide
  txWf := by decide
  rxInside := by decide
  txInside := by decide
  closedIsEnd := by decide
  failure := by decide
  countInside := by decide
  stored := by decide
  lengthDecoded := by decide
  runningCk := by decide
  position := ⟨by decide, by decide, by decide⟩

theorem inBody_inv : inBody.Inv where
  legal := by decide
  rxWf := by decide
  txWf := by decide
  rxInside := by decide
  txInside := by decide
  closedIsEnd := by decide
  failure := by decide
  countInside := by decide
  stored := by decide
  lengthDecoded := by decide
  runningCk := by decide
  position := ⟨by decide, by decide, ⟨by decide, by decide⟩, by decide⟩

theorem dispatched_inv : dispatched.Inv where
  legal := by decide
  rxWf := by decide
  txWf := by decide
  rxInside := by decide
  txInside := by decide
  closedIsEnd := by decide
  failure := by decide
  countInside := by decide
  stored := by decide
  lengthDecoded := by decide
  runningCk := by decide
  position := ⟨by decide, ⟨by decide, by decide⟩, by decide⟩

/-! ### A concrete state and operands for every statement with hypotheses -/

/-- EncodeOfDecodeIsTheWord. -/
theorem witness_encodeOfDecode :
    decodeCmd 0x00000206 = .ok (.syncAck true) ∧ (0x0D3 : EventWord) &&& 0x300 = 0 := by decide
/-- IllegalWordsAreTheThreeCases: each way of being illegal, at the edge of its range. -/
theorem witness_illegalWords :
    decodeCmd 0x00000008 = .error .unknownOpcode ∧ decodeCmd 0x000000FF = .error .unknownOpcode ∧
    decodeCmd 0x00000400 = .error .reservedBit ∧ decodeCmd 0x80000001 = .error .reservedBit ∧
    decodeCmd 0x00000103 = .error .unusedField ∧ decodeCmd 0x00000201 = .error .unusedField ∧
    decodeCmd 0x00010000 = .error .unusedField := by decide
/-- EventWordDecodesByKind: both ends of each KIND. -/
theorem witness_eventKinds :
    (0x000 : EventWord).toNat / 256 = 0 ∧ (0x0FF : EventWord).toNat / 256 = 0 ∧
    (0x100 : EventWord).toNat / 256 = 1 ∧ (0x1FF : EventWord).toNat / 256 = 1 ∧
    (0x200 : EventWord).toNat / 256 = 2 ∧ (0x2FF : EventWord).toNat / 256 = 2 ∧
    (0x300 : EventWord).toNat / 256 = 3 ∧ (0x3FF : EventWord).toNat / 256 = 3 := by decide
/-- StepRunsTheDecodedCommand, its two clauses. -/
theorem witness_stepCommand :
    dispatched.turns = .host :: [.receive] ∧ dispatched.hostq = .wr 32 0 0x00000006 :: [] ∧
    decodeCmd 0x00000006 = .ok (.syncAck false) ∧ decodeCmd 0x00000106 = .error .unusedField := by decide
/-- StepRunsTheDecodedEvent. -/
theorem witness_stepEvent : (offering 0x100 idle).turns = .receive :: [] ∧ (offering 0x100 idle).rxin = 0x100 :: [] := by
  decide
/-- StepIdlesWhenNothingIsPending, its three clauses. -/
theorem witness_stepIdle :
    idle.turns = [] ∧
    (({ idle with turns := [.host] } : State).turns = .host :: [] ∧ ({ idle with turns := [.host] } : State).hostq = []) ∧
    (({ idle with turns := [.receive] } : State).turns = .receive :: [] ∧
      ({ idle with turns := [.receive] } : State).rxin = []) := by decide
/-- NopReportsOkAndNothingElse and CkClearZeroesTheAccumulator: illegal words of their opcodes. -/
theorem witness_nop_ckClear :
    ((0x00000100 : Word) ≠ 0 ∧ (0x00000100 : Word).toNat % 256 = 0) ∧
    ((0x00000102 : Word) ≠ 2 ∧ (0x00000102 : Word).toNat % 256 = 2) := by decide
/-- ChecksumProperties: equal sequences. -/
theorem witness_checksum : ([1, 2] : List Byte) = [1, 2] := rfl
/-- CkRangeFollowsItsRule: TX_LEN one past the storage; CK_END one past the bytes; CK_END at the last byte; an empty
range past the end. -/
theorem witness_ckRange :
    (Src.tx = .tx ∧ ({ tx5 with txLen := 65536 } : State).params.txBufBytes < ({ tx5 with txLen := 65536 } : State).txLen.toNat) ∧
    (({ tx5 with ckEnd := 6 } : State).ckStart.toNat < ({ tx5 with ckEnd := 6 } : State).ckEnd.toNat ∧
      srcLen .tx { tx5 with ckEnd := 6 } < ({ tx5 with ckEnd := 6 } : State).ckEnd.toNat) ∧
    ((Src.tx = .tx → tx5.txLen.toNat ≤ tx5.params.txBufBytes) ∧
      (({ tx5 with ckEnd := 5 } : State).ckStart.toNat < ({ tx5 with ckEnd := 5 } : State).ckEnd.toNat →
        ({ tx5 with ckEnd := 5 } : State).ckEnd.toNat ≤ srcLen .tx { tx5 with ckEnd := 5 })) ∧
    (({ tx5 with ckStart := 9, ckEnd := 9 } : State).ckStart.toNat < ({ tx5 with ckStart := 9, ckEnd := 9 } : State).ckEnd.toNat →
      ({ tx5 with ckStart := 9, ckEnd := 9 } : State).ckEnd.toNat ≤ srcLen .tx { tx5 with ckStart := 9, ckEnd := 9 }) := by
  decide

/-- `dispatched` with the CK_RANGE operands that cover length and payload. -/
def summing : State := { dispatched with ckStart := 1, ckEnd := 7 }

/-- CkRangeReproducesTheReceiveChecksum. -/
theorem witness_ckRangeRx :
    summing.Inv ∧ summing.syncState = .dispatch ∧ summing.ckStart.toNat = 1 ∧
    summing.ckEnd.toNat = 3 + summing.rxLen.toNat :=
  have h := dispatched_inv
  ⟨⟨h.legal, h.rxWf, h.txWf, h.rxInside, h.txInside, h.closedIsEnd, h.failure, h.countInside, h.stored,
    h.lengthDecoded, h.runningCk, h.position⟩, by decide, by decide, by decide⟩
/-- BfxExtractReturnsTheClosedForm: the longest field up to the last bit, and the empty field at the end. -/
theorem witness_bfxClosedForm :
    (∀ s ∈ [({ tx5 with bfxOff := 8, bfxLen := 32 } : State), { tx5 with bfxOff := 40 }, { tx5 with bfxOff := 39, bfxLen := 1 }],
      (Src.tx = .tx → s.txLen.toNat ≤ s.params.txBufBytes) ∧ s.bfxLen.toNat ≤ 32 ∧
      s.bfxOff.toNat + s.bfxLen.toNat ≤ 8 * srcLen .tx s) ∧
    ({ tx5 with bfxOff := 40 } : State).bfxLen.toNat = 0 ∧
    1 ≤ ({ tx5 with bfxOff := 39, bfxLen := 1 } : State).bfxLen.toNat := by decide
/-- BfxExtractRangeCheck: each of the three conditions, just met, and none of them. -/
theorem witness_bfxRange :
    (Src.tx = .tx ∧ ({ tx5 with txLen := 65536 } : State).params.txBufBytes < ({ tx5 with txLen := 65536 } : State).txLen.toNat) ∧
    32 < ({ tx5 with bfxLen := 33 } : State).bfxLen.toNat ∧
    8 * srcLen .tx { tx5 with bfxOff := 41 } < ({ tx5 with bfxOff := 41 } : State).bfxOff.toNat + 0 ∧
    ¬ ((Src.tx = .tx ∧ tx5.params.txBufBytes < tx5.txLen.toNat) ∨ 32 < tx5.bfxLen.toNat ∨
      8 * srcLen .tx tx5 < tx5.bfxOff.toNat + tx5.bfxLen.toNat) := by decide
/-- SyncHeaderReadsAreBfxFields: the byte that opens a message and one that does not; the second length byte at N = 0,
under MAX_PAYLOAD = 16 and at it. -/
theorem witness_headerReads :
    (idle.syncState = .awaitingMarker ∧ idle.rxCount = 0 ∧ halfLength.syncState = .readingLength ∧
      halfLength.rxCount = 2) ∧
    [0xD3, 0xD4].map (fun b => after (exec (.rxByte b) idle) State.syncState) =
      [some .readingLength, some .failed] ∧
    [0x00, 0x0F, 0x10].map (fun b => after (exec (.rxByte b) halfLength) State.syncState) =
      [some .failed, some .readingBody, some .failed] := by decide
/-- SyncHeaderReadsAreBfxFields and EventsTouchOnlyTheReceiveSide: a receive event that answers a next state. -/
theorem witness_eventNext : Instr.rxEos.isEvent = true ∧ ∃ t, exec .rxEos opened = .next t := ⟨rfl, _, rfl⟩
/-- LittleEndianRoundTripIsByteWise: 95 E8, 0x160DC080 stored as `80 C0 0D 16`. -/
theorem witness_littleEndian :
    ∀ j, j < 4 → ([0x80, 0xC0, 0x0D, 0x16].getD (0 + j) (0 : Byte)).toNat = (0x160DC080 : Word).toNat / 256 ^ j % 256 := by
  decide
/-- FencBuildEmitsTheFrameLayout and CorrectedModeNeverTruncatesALength: both sides of the storage's size. -/
theorem witness_fencBuild :
    tx5.params.Legal ∧
    (({ tx5 with txLen := 65535 } : State).txLen.toNat ≤ tx5.params.txBufBytes ∧ tx5.ctrl.getLsbD 1 = false) ∧
    tx5.params.txBufBytes < ({ tx5 with txLen := 65536 } : State).txLen.toNat := by decide
/-- LegacyLengthDiffersFrom256On: both sides of L = 256. -/
theorem witness_legacyLength :
    ({ tx5 with txLen := 255 } : State).params.Legal ∧
    ({ tx5 with txLen := 255 } : State).txLen.toNat ≤ tx5.params.txBufBytes ∧
    ({ tx5 with txLen := 256 } : State).txLen.toNat ≤ tx5.params.txBufBytes ∧
    (0 : BitVec 2).getLsbD 1 = false ∧ (2 : BitVec 2).getLsbD 1 = true := by decide

/-- The expansion of `frame` for one payload byte, waiting to be performed. -/
def framing : State :=
  { State.reset with hostq := pseudoFrame 0xE0 0x01 [0x41] ++ [], turns := List.replicate (1 + 3) .host ++ [] }

/-- FrameExpansionBuildsTheFrame. -/
theorem witness_frame :
    framing.params.Legal ∧ [(0x41 : Byte)].length ≤ framing.params.txBufBytes ∧ framing.ctrl.getLsbD 1 = false ∧
    framing.hostq = pseudoFrame 0xE0 0x01 [0x41] ++ [] ∧
    framing.turns = List.replicate ([(0x41 : Byte)].length + 3) .host ++ [] := by decide
/-- SyncAckEndsADispatch and SyncRestartBeginsANewSession: each state their clauses name. -/
theorem witness_syncCommands :
    dispatched.syncState = .dispatch ∧ idle.syncState ≠ .dispatch ∧
    failedAtMarker.syncState = .failed ∧ ended.syncState = .stopped ∧
    (dispatched.syncState ≠ .failed ∧ dispatched.syncState ≠ .stopped) := by decide
/-- CommandStepReportsExactlyItsCause: each code is the result of some command. -/
theorem witness_commandStep :
    after (commandStep 0x00000000 idle) State.cmdErr = some .ok ∧
    after (commandStep 0x00000104 { tx5 with ckEnd := 6 }) State.cmdErr = some .outOfRange ∧
    after (commandStep 0x00000008 idle) State.cmdErr = some .illegalCommand ∧
    after (commandStep 0x00000006 idle) State.cmdErr = some .stateError ∧
    after (commandStep 0x00000007 dispatched) State.cmdErr = some .stateError := by decide
/-- CmdErrIsTheLastCommandsResult: a step that is no command, and a reset. -/
theorem witness_cmdErr :
    ((∃ t, step (offering 0x100 idle) = .next t) ∧ (∀ w, ¬ issuesCommand (offering 0x100 idle) w) ∧
      ¬ resetsNow (offering 0x100 idle)) ∧
    (∃ t, step { idle with turns := [.reset] } = .next t) ∧ resetsNow { idle with turns := [.reset] } := by
  refine ⟨⟨⟨_, rfl⟩, ?_, ?_⟩, ⟨_, rfl⟩, [], rfl⟩
  · rintro w ⟨ts, q, h, _⟩
    simp [offering] at h
  · rintro ⟨ts, h⟩
    simp [offering] at h
/-- CommandsTouchOnlyTheirOwnState. -/
theorem witness_commandNext : Instr.fencBuild.isEvent = false ∧ ∃ t, exec .fencBuild tx5 = .next t := ⟨rfl, _, rfl⟩
/-- EventsAreConsumedOnlyInReadStates, its three clauses. -/
theorem witness_eventsConsumed :
    (Instr.rxErr.isEvent = true ∧ dispatched.syncState = .dispatch ∧ failedAtMarker.syncState = .failed ∧
      ended.syncState = .stopped) ∧
    ((offering 0x100 idle).turns = .receive :: [] ∧ (offering 0x100 idle).rxin = 0x100 :: [] ∧
      ∃ t, step (offering 0x100 idle) = .next t) ∧
    ((∃ t, step dispatched = .next t) ∧ ∀ ts, dispatched.turns ≠ .receive :: ts) := by
  refine ⟨by decide, ⟨rfl, rfl, _, rfl⟩, ⟨_, rfl⟩, fun ts h => ?_⟩
  simp [dispatched] at h
/-- NonByteEventFailsTheSession: each read state and each event. -/
theorem witness_nonByte :
    (idle.syncState = .awaitingMarker ∧ opened.syncState = .readingLength ∧ inBody.syncState = .readingBody) ∧
    (Instr.rxEos = .rxEos ∧ Instr.rxErr = .rxErr ∧ Instr.rxTimeout = .rxTimeout) := by decide
/-- ByteEventIsStoredFirst: a read state with room for the byte, the last byte of RX_BUF included; and the invariants. -/
theorem witness_byteStored :
    (inBody.syncState = .readingBody ∧ inBody.rxCount.toNat < rxBufBytes inBody.params) ∧
    ({ idle with rxCount := 20 } : State).rxCount.toNat + 1 = rxBufBytes idle.params ∧
    (idle.Inv ∧ idle.syncState = .awaitingMarker) ∧ (opened.Inv ∧ opened.syncState = .readingLength) ∧
    (inBody.Inv ∧ inBody.syncState = .readingBody) :=
  ⟨by decide, by decide, ⟨idle_inv, rfl⟩, ⟨opened_inv, rfl⟩, inBody_inv, rfl⟩
/-- MarkerByteOpensOrFailsTheSession, both clauses. -/
theorem witness_marker :
    idle.syncState = .awaitingMarker ∧ idle.rxCount = 0 ∧ (0xD4 : Byte) ≠ idle.params.rxMarker ∧
    (0xD3 : Byte) = idle.params.rxMarker := by decide
/-- LengthBytesAreDecodedAndChecked: the first length byte; N = 0; N at and just under MAX_PAYLOAD = 16. -/
theorem witness_length :
    (opened.syncState = .readingLength ∧ opened.rxCount = 1) ∧
    (halfLength.syncState = .readingLength ∧ halfLength.rxCount = 2 ∧ (halfLength.rxByteAt 1).toNat * 256 + 0 = 0) ∧
    halfLength.params.maxPayload ≤ (halfLength.rxByteAt 1).toNat * 256 + (0x10 : Byte).toNat ∧
    (halfLength.rxByteAt 1).toNat * 256 + (0x0F : Byte).toNat < halfLength.params.maxPayload := by decide
/-- BodyBytesAreCountedAndChecked: the last payload byte, the first two trailer bytes, and the last one, with the check
off, passed and failed. -/
theorem witness_body :
    (inBody.syncState = .readingBody ∧ 3 ≤ ({ inBody with rxCount := 4 } : State).rxCount.toNat ∧
      inBody.rxCount.toNat < rxBufBytes inBody.params) ∧
    ({ inBody with rxCount := 4 } : State).rxCount.toNat < 3 + inBody.rxLen.toNat ∧
    (3 + inBody.rxLen.toNat ≤ ({ inBody with rxCount := 5 } : State).rxCount.toNat ∧
      ({ inBody with rxCount := 6 } : State).rxCount.toNat < inBody.rxLen.toNat + 5) ∧
    (inBody.rxCount.toNat = inBody.rxLen.toNat + 5 ∧ inBody.ctrl.getLsbD 0 = false ∧
      (({ inBody with rxckA := 1, rxckB := 2 } : State).rxByteAt 5 = 1 ∧
        ({ inBody with rxckA := 1, rxckB := 2 } : State).rxByteAt 6 = 2) ∧
      ({ inBody with ctrl := 1 } : State).ctrl.getLsbD 0 = true ∧
      ¬ (inBody.rxByteAt (3 + inBody.rxLen.toNat) = inBody.rxckA ∧
        inBody.rxByteAt (4 + inBody.rxLen.toNat) = inBody.rxckB)) := by decide
/-- FailureCausesAreTheThirteen: a step into Failed for each class, the default parameters among them. -/
theorem witness_failure :
    (idle.syncState ≠ .failed ∧ opened.syncState ≠ .failed ∧ halfLength.syncState ≠ .failed ∧
      inBody.syncState ≠ .failed ∧ inBody.params = Params.default) ∧
    (after (step (offering 0x0D4 idle)) (fun t => (t.syncState, t.failClass)) = some (.failed, .protocolViolation) ∧
      after (step (offering 0x010 halfLength)) (fun t => (t.syncState, t.failClass)) =
        some (.failed, .resourceLimitExceeded) ∧
      after (step (offering 0x000 { inBody with ctrl := 1 })) (fun t => (t.syncState, t.failClass)) =
        some (.failed, .protocolViolation) ∧
      after (step (offering 0x300 opened)) (fun t => (t.syncState, t.failClass)) = some (.failed, .transportError)) := by
  decide
/-- DefaultCapNeverFires: the largest N at the default cap. -/
theorem witness_defaultCap :
    (∃ t, exec (.rxByte 0xFF) { halfLength with params := Params.default, rxBuf := listed [0xD3, 0xFF] } = .next t) ∧
    Params.default.maxPayload = 204800 ∧ 65535 < ({ Params.default with maxPayload := 65536 } : Params).maxPayload ∧
    halfLength.failClass ≠ .resourceLimitExceeded := ⟨⟨_, rfl⟩, by decide, by decide, by decide⟩
/-- TerminalStatesAreLeftOnlyByRestartOrReset: staying, a restart and a reset. -/
theorem witness_terminal :
    (failedAtMarker.syncState.isTerminal = true ∧ ended.syncState.isTerminal = true) ∧
    (∃ t, step failedAtMarker = .next t) ∧ (∃ t, step ended = .next t) ∧
    (∃ t, step { ended with turns := [.reset] } = .next t) := ⟨by decide, ⟨_, rfl⟩, ⟨_, rfl⟩, ⟨_, rfl⟩⟩
/-- OneCloseEventPerTerminalEntry, TxoutGrowsOnlyByWholeFrames, NoStepChangesTheParameters and
EveryStepKeepsTheInvariants: steps that answer a next state, one of them entering Failed, one emitting a frame. -/
theorem witness_steps :
    (∃ t, step (offering 0x300 opened) = .next t) ∧ (∃ t, step (issuing 0x00000005 tx5) = .next t) ∧
    dispatched.Inv ∧ (∃ t, step dispatched = .next t) := ⟨⟨_, rfl⟩, ⟨_, rfl⟩, dispatched_inv, _, rfl⟩
/-- DispatchIsStableUntilAcknowledged, its three clauses. -/
theorem witness_dispatch :
    (dispatched.syncState = .dispatch ∧ (∃ t, step (offering 0x0D3 dispatched) = .next t) ∧
      (∀ w, issuesCommand (offering 0x0D3 dispatched) w → ∀ p, decodeCmd w ≠ .ok (.syncAck p)) ∧
      ¬ resetsNow (offering 0x0D3 dispatched)) ∧
    dispatched.Inv := by
  refine ⟨⟨rfl, ⟨_, rfl⟩, ?_, ?_⟩, dispatched_inv⟩
  · rintro w ⟨ts, q, h, _⟩
    simp [offering] at h
  · rintro ⟨ts, h⟩
    simp [offering] at h
/-- WholeMessageIsDispatched and StrictModeChecksTheTrailer: the shortest payload and the longest under MAX_PAYLOAD = 16;
`D3 00 01 41` sums to (0x42, 0x43). -/
theorem witness_message :
    (idle.Inv ∧ idle.syncState = .awaitingMarker ∧ idle.ctrl.getLsbD 0 = false ∧
      [(0x41 : Byte)].length = (0 : Byte).toNat * 256 + (1 : Byte).toNat ∧ 1 ≤ [(0x41 : Byte)].length ∧
      (List.replicate 15 (0 : Byte)).length = (0 : Byte).toNat * 256 + (15 : Byte).toNat ∧
      (List.replicate 15 (0 : Byte)).length < idle.params.maxPayload) ∧
    ({ idle with ctrl := 1 } : State).ctrl.getLsbD 0 = true ∧
    ((0x42, 0x43) : Byte × Byte) = cksum ([0, 1] ++ [0x41]) ∧
    ((0x42, 0x44) : Byte × Byte) ≠ cksum ([0, 1] ++ [0x41]) :=
  ⟨⟨idle_inv, by decide, by decide, by decide, by decide, by decide, by decide⟩, by decide, by decide, by decide⟩
/-- StrictModeChecksTheTrailer: the strict mode's state meets the invariants too. -/
theorem witness_strictInv : ({ idle with ctrl := 1 } : State).Inv :=
  have h := idle_inv
  ⟨h.legal, h.rxWf, h.txWf, h.rxInside, h.txInside, h.closedIsEnd, h.failure, h.countInside, h.stored,
    h.lengthDecoded, h.runningCk, h.position⟩
/-- CkIsWrittenOnlyByItsCommands and BfxResIsTheLastSuccessfulResult: steps that change CK and BFX_RES. -/
theorem witness_results :
    (after (step (issuing 0x00010003 tx5)) (fun t => (t.ckA, t.ckB)) = some (1, 1) ∧ (tx5.ckA, tx5.ckB) = (0, 0)) ∧
    (∀ ts, (issuing 0x00010003 tx5).turns ≠ .reset :: ts) ∧
    (after (step (issuing 0x00000101 { tx5 with bfxLen := 8 })) State.bfxRes = some 0x12 ∧ tx5.bfxRes = 0) :=
  ⟨by decide, fun ts h => by simp [issuing] at h, by decide⟩
/-- CtrlIsReadOnlyWhereItIsUsed, its three clauses. -/
theorem witness_ctrl :
    (Instr.rxByte 0 ≠ .fencBuild ∧
      ¬ (opened.syncState = .readingBody ∧ opened.rxCount.toNat = opened.rxLen.toNat + 5)) ∧
    ((1 : BitVec 2).getLsbD 1 = (0 : BitVec 2).getLsbD 1 ∧ (2 : BitVec 2).getLsbD 0 = (0 : BitVec 2).getLsbD 0) ∧
    (∃ t, exec (.rxByte 0) opened = .next t) ∧ (∃ t, exec .fencBuild tx5 = .next t) ∧
    (∃ t, exec (.rxByte 0) inBody = .next t) := ⟨by decide, by decide, ⟨_, rfl⟩, ⟨_, rfl⟩, ⟨_, rfl⟩⟩
/-- BusErrorsAreTheFiveCases: 95 section 2.2's accesses at the edge of each case, and just inside. -/
theorem witness_busErrors :
    [HostAccess.rd 32 0x38, .rd 8 0x110005, .rd 8 0x20FFFF, .rd 8 0x04, .rd 32 0x02, .rd 32 0x200000,
      .wr 8 0x100000 0x12].map (fun a => after (hostAccess a State.reset) State.responses) =
        List.replicate 7 (some [.busError]) ∧
    [HostAccess.rd 32 0x34, .wr 8 0x20FFFE 0x12].map (fun a => after (hostAccess a State.reset) State.responses) =
      [some [.word 0], some [.done]] := by decide
/-- CsrsKeepTheirWritableBits: an RW CSR and an RO one. -/
theorem witness_csrs :
    (0x08 : Word).toNat = csrOffset .ctrl ∧ Csr.ctrl ≠ .cmd ∧ (0x14 : Word).toNat = csrOffset .bfxRes ∧
    Csr.bfxRes ≠ .cmd ∧ csrWriteMask .bfxRes = 0 := by decide
/-- HostReadsChangeNothing: reads just below and at RX_COUNT, at the last byte of RX_BUF and one past it, and one of
another width: only those at or above RX_COUNT and inside the storage draw a byte. -/
theorem witness_hostReads :
    rxBufBytes dispatched.params = 65541 ∧
    [(8, 0x00100009), (8, 0x0010000A), (8, 0x00110004), (8, 0x00110005), (32, 0x0010000A)].map
        (fun a => after (hostAccess (.rd a.1 a.2) dispatched) State.rxDraws) =
      [some 0, some 1, some 1, some 0, some 0] := by decide
/-- BufferAccessesReadBack, the widths: an access of no 8 bits at the last byte of each buffer. -/
theorem witness_bufferWidths :
    (32 : Nat) ≠ 8 ∧ (0x00110004 : Word).toNat = 0x00100000 + 65540 ∧ 65540 < rxBufBytes dispatched.params ∧
    (0x0020FFFE : Word).toNat = 0x00200000 + 65534 ∧ 65534 < tx5.params.txBufBytes := by decide
/-- BufferAccessesReadBack: the first and the last byte of TX_BUF; RX_BUF below and at RX_COUNT. -/
theorem witness_buffers :
    (0 < tx5.params.txBufBytes ∧ 65534 < tx5.params.txBufBytes ∧ (0x00200000 : Word).toNat = 0x00200000 + 0 ∧
      (0x0020FFFE : Word).toNat = 0x00200000 + 65534) ∧
    (9 < dispatched.rxCount.toNat ∧ dispatched.rxCount.toNat ≤ 10 ∧ 10 < rxBufBytes dispatched.params ∧
      (0x00100009 : Word).toNat = 0x00100000 + 9 ∧ (0x0010000A : Word).toNat = 0x00100000 + 10) := by decide
/-- ResetActsAsTheRuleSays. -/
theorem witness_reset : ({ dispatched with turns := [.reset] } : State).turns = .reset :: [] := rfl
/-- EveryStepCompletesUnderTheInvariants. -/
theorem witness_inv : dispatched.Inv ∧ inBody.Inv := ⟨dispatched_inv, inBody_inv⟩

end Sys2Proof.Tests
end

section
/-! When a received byte can fail with ResourceLimitExceeded: only where the length check finds N at or above
MAX_PAYLOAD, and N is 16 bits wide (00_scope.md rule R7). -/
namespace Sys2Proof.Machine

/-- RX_LEN is a u16 (00_scope.md rule R7, 10_state.md rule R34). -/
theorem State.rxLen_toNat_le (s : State) : s.rxLen.toNat ≤ 65535 := Nat.le_of_lt_succ s.rxLen.isLt

/-- The marker byte never fails the session for its size (rule R124). -/
theorem markerAction_failClass (b : Byte) (s : State) :
    (markerAction b s).failClass = .protocolViolation ∨ (markerAction b s).failClass = s.failClass := by
  unfold markerAction
  split <;> simp

/-- The length check records ResourceLimitExceeded only for a length at or above MAX_PAYLOAD (rule R127). -/
theorem lengthCheck_resourceLimit {n : Nat} {s : State}
    (h : (lengthCheck n s).failClass = .resourceLimitExceeded) :
    s.failClass = .resourceLimitExceeded ∨ s.params.maxPayload ≤ n := by
  unfold lengthCheck at h
  split at h
  · simp at h
  · split at h
    next hcap => exact .inr hcap
    next => exact .inl (by simpa using h)

/-- The length check keeps RX_LEN, whatever it decides. -/
@[simp] theorem lengthCheck_rxLen (n : Nat) (s : State) : (lengthCheck n s).rxLen = s.rxLen := by
  unfold lengthCheck
  split_ifs <;> simp

/-- A length byte records ResourceLimitExceeded only if the decoded N is at or above MAX_PAYLOAD (rule R125). -/
theorem lengthAction_resourceLimit {k : Nat} {b : Byte} {s : State}
    (h : (lengthAction k b s).failClass = .resourceLimitExceeded) :
    s.failClass = .resourceLimitExceeded ∨ s.params.maxPayload ≤ (lengthAction k b s).rxLen.toNat := by
  unfold lengthAction at h ⊢
  split at h
  next hk => simpa [hk] using lengthCheck_resourceLimit h
  next => exact .inl (by simpa using h)

/-- Summing a body byte keeps the recorded class. -/
@[simp] theorem bodySum_failClass (k : Nat) (b : Byte) (s : State) : (bodySum k b s).failClass = s.failClass := by
  unfold bodySum
  split <;> simp

/-- A body byte never fails the session for its size (rules R128 and R129). -/
theorem bodyAction_failClass (k : Nat) (b : Byte) (s : State) :
    (bodyAction k b s).failClass = .protocolViolation ∨ (bodyAction k b s).failClass = s.failClass := by
  unfold bodyAction messageEnd
  split_ifs <;> simp

/-- The one way a byte newly records ResourceLimitExceeded: it completes a length at or above MAX_PAYLOAD. -/
theorem byteAction_resourceLimit {st : ReadState} {k : Nat} {b : Byte} {s : State}
    (h : (byteAction st k b s).failClass = .resourceLimitExceeded) :
    s.failClass = .resourceLimitExceeded ∨
      (st = .readingLength ∧ s.params.maxPayload ≤ (byteAction st k b s).rxLen.toNat) := by
  cases st with
  | awaitingMarker =>
    rcases markerAction_failClass b s with hc | hc
    · cases hc.symm.trans h
    · exact .inl (hc.symm.trans h)
  | readingLength => exact (lengthAction_resourceLimit h).imp_right fun hcap => ⟨rfl, hcap⟩
  | readingBody =>
    rcases bodyAction_failClass k b s with hc | hc
    · cases hc.symm.trans h
    · exact .inl (hc.symm.trans h)

/-- A byte event newly records ResourceLimitExceeded only where the RX_LEN it leaves is at or above MAX_PAYLOAD. -/
theorem exec_rxByte_resourceLimit {b : Byte} {s t : State} (h : exec (.rxByte b) s = .next t)
    (hc : t.failClass = .resourceLimitExceeded) :
    s.failClass = .resourceLimitExceeded ∨ s.params.maxPayload ≤ t.rxLen.toNat := by
  rcases execRxByte_cases h with ⟨st, -, -, ht⟩ | ⟨-, -, ht⟩ | ⟨-, ht⟩
  · rw [next_eq ht.symm] at hc ⊢
    simpa using (byteAction_resourceLimit hc).imp_right And.right
  · cases ht
  · exact .inl (next_eq ht.symm ▸ hc)

/-- A cap no 16-bit length reaches never fires (rule R7). -/
theorem exec_rxByte_not_resourceLimit {b : Byte} {s t : State} (h : exec (.rxByte b) s = .next t)
    (hcap : 65535 < s.params.maxPayload) (hs : s.failClass ≠ .resourceLimitExceeded) :
    t.failClass ≠ .resourceLimitExceeded := by
  intro hc
  rcases exec_rxByte_resourceLimit h hc with hold | hlen
  · exact hs hold
  · have := t.rxLen_toNat_le
    omega

end Sys2Proof.Machine

namespace Sys2Proof
open Machine

/-- Settles O38: N is 16 bits wide, and only an N at or above MAX_PAYLOAD is rejected as too large. -/
theorem defaultCapNeverFires : Obligations.DefaultCapNeverFires := by
  intro s t b h
  refine ⟨t.rxLen_toNat_le, fun hdefault => ?_, exec_rxByte_not_resourceLimit h⟩
  exact exec_rxByte_not_resourceLimit h (by omega)

end Sys2Proof
end

section
/-! What one step changes, by the way it acts: a command runs from the state its CMD write leaves, a receive event
writes SYNC's side alone, a bus access without a command writes the host's side alone, and the rest is reset. -/
namespace Sys2Proof.Machine

/-- The state a command runs from, when its CMD write is the host's next access (44_command_control.md rule R150). -/
def State.issued (s : State) : State :=
  { s with turns := s.turns.tail, hostq := s.hostq.tail, responses := s.responses ++ [.done] }

/-- `t` differs from `s` only in what a bus access without a command, or an idle turn, can write: the fields of the RW
CSRs, TX_BUF and the model's own fields. -/
def hostSideOnly (s t : State) : Prop :=
  t = { s with ctrl := t.ctrl, bfxOff := t.bfxOff, bfxLen := t.bfxLen, ckStart := t.ckStart, ckEnd := t.ckEnd,
               fencType := t.fencType, txLen := t.txLen, txBuf := t.txBuf, hostq := t.hostq, turns := t.turns,
               responses := t.responses, rxDraws := t.rxDraws }

/-- `t` differs from `s` only in what a receive event can write: SYNC's registers and record, RX_BUF, EVOUT, RXIN, and
the turn taken. -/
def receiveSideOnly (s t : State) : Prop :=
  t = { s with rxBuf := t.rxBuf, rxCount := t.rxCount, rxLen := t.rxLen, rxckA := t.rxckA, rxckB := t.rxckB,
               syncState := t.syncState, failClass := t.failClass, failState := t.failState,
               failEvent := t.failEvent, closed := t.closed, evout := t.evout, rxin := t.rxin, turns := t.turns }

/-- A write to a CSR other than CMD, with its answer, stores in the RW fields alone (10_state.md rule R22). -/
theorem storeCsr_respond_frame (c : Csr) (v : Word) (s : State) :
    (storeCsr c v s).respond .done =
      { s with ctrl := (storeCsr c v s).ctrl, bfxOff := (storeCsr c v s).bfxOff, bfxLen := (storeCsr c v s).bfxLen,
               ckStart := (storeCsr c v s).ckStart, ckEnd := (storeCsr c v s).ckEnd,
               fencType := (storeCsr c v s).fencType, txLen := (storeCsr c v s).txLen,
               responses := s.responses ++ [.done] } := by
  cases c <;> rfl

/-- A host access either is the command step of a CMD write or keeps to the host's side. -/
theorem hostAccess_command_or_hostSide {a : HostAccess} {s t : State} (h : hostAccess a s = .next t) :
    (∃ w, a = .wr 32 0 w ∧ commandStep w (s.respond .done) = .next t) ∨ hostSideOnly s t := by
  rcases hostAccess_cases a s with e | ⟨c, e⟩ | ⟨b, e⟩ | ⟨b, e⟩ | ⟨i, v, -, e⟩ | ⟨c, v, e⟩ | ⟨w, ha, e⟩
  case inr.inr.inr.inr.inr.inr => exact .inl ⟨w, ha, e ▸ h⟩
  all_goals
    right
    obtain rfl := next_eq (e.symm.trans h)
  case inr.inr.inr.inr.inr.inl => cases c <;> rfl
  all_goals rfl

/-- A receive event keeps to SYNC's side. -/
theorem exec_event_receiveSide {i : Instr} {s t : State} (hi : i.isEvent = true) (h : exec i s = .next t) :
    receiveSideOnly s t := by
  rcases exec_event_cases hi h with ⟨-, rfl⟩ | ⟨st, ev, -, -, rfl⟩ | ⟨st, b, -, -, -, rfl⟩
  · rfl
  · rfl
  · unfold receiveSideOnly
    rw [byteAction_frame]
    rfl

/-- What one step can do: run an issued command, run the head event of RXIN, reset, or keep to the host's side. -/
theorem step_next_cases {s t : State} (h : step s = .next t) :
    (∃ w, issuesCommand s w ∧ commandStep w s.issued = .next t) ∨
    (∃ w r, s.rxin = w :: r ∧ exec (decodeEvent w) { s with turns := s.turns.tail } = .next t) ∨
    (resetsNow s ∧ t = { s with turns := s.turns.tail }.assertReset) ∨
    hostSideOnly s t := by
  rcases step_cases s with ⟨-, e⟩ | ⟨ts, -, -, e⟩ | ⟨ts, a, q, ht, hq, e⟩ | ⟨ts, -, -, e⟩ | ⟨ts, w, r, ht, hr, e⟩ |
    ⟨ts, ht, e⟩ <;> rw [e] at h
  · exact .inr (.inr (.inr (next_eq h ▸ rfl)))
  · exact .inr (.inr (.inr (next_eq h ▸ rfl)))
  · rcases hostAccess_command_or_hostSide h with ⟨w, rfl, hc⟩ | hs
    · exact .inl ⟨w, ⟨ts, q, ht, hq⟩, by simpa [State.issued, State.respond, ht, hq] using hc⟩
    · exact .inr (.inr (.inr hs))
  · exact .inr (.inr (.inr (next_eq h ▸ rfl)))
  · exact .inr (.inl ⟨w, r, hr, by simpa [ht] using h⟩)
  · exact .inr (.inr (.inl ⟨⟨ts, ht⟩, by simpa [ht] using next_eq h⟩))

/-- What the command step can do: report an illegal word, or run the command the word decodes to. -/
theorem commandStep_cases {w : Word} {s t : State} (h : commandStep w s = .next t) :
    t = s.setCmdErr .illegalCommand ∨ ∃ i, i.isEvent = false ∧ decodeCmd w = .ok i ∧ exec i s = .next t := by
  unfold commandStep at h
  cases hd : decodeCmd w with
  | ok i =>
    rw [hd] at h
    exact .inr ⟨i, decodeCmd_isEvent hd, rfl, h⟩
  | error e =>
    rw [hd] at h
    exact .inl (next_eq h)

/-- The outputs of the host's commands: BFX_RES, the checksum accumulator and TXOUT. -/
def commandOutputs (s : State) : Word × Byte × Byte × List Byte := (s.bfxRes, s.ckA, s.ckB, s.txout)

/-- The outputs agree when each of the four does. -/
theorem commandOutputs_eq_iff {s t : State} : commandOutputs t = commandOutputs s ↔
    t.bfxRes = s.bfxRes ∧ t.ckA = s.ckA ∧ t.ckB = s.ckB ∧ t.txout = s.txout := by
  simp [commandOutputs]

/-- The host's side holds no output of the commands. -/
theorem hostSideOnly.commandOutputs_eq {s t : State} (h : hostSideOnly s t) :
    commandOutputs t = commandOutputs s := by
  unfold hostSideOnly at h
  rw [h]
  rfl

/-- The host's side does not hold SYNC_STATE. -/
theorem hostSideOnly.syncState_eq {s t : State} (h : hostSideOnly s t) : t.syncState = s.syncState := by
  unfold hostSideOnly at h
  rw [h]

/-- The host's side does not hold EVOUT. -/
theorem hostSideOnly.evout_eq {s t : State} (h : hostSideOnly s t) : t.evout = s.evout := by
  unfold hostSideOnly at h
  rw [h]

/-- SYNC's side holds no output of the commands. -/
theorem receiveSideOnly.commandOutputs_eq {s t : State} (h : receiveSideOnly s t) :
    commandOutputs t = commandOutputs s := by
  unfold receiveSideOnly at h
  rw [h]
  rfl

/-- A step that runs no command and is no reset keeps every output of the commands. -/
theorem step_commandOutputs {s t : State} (h : step s = .next t) :
    (∃ w i, issuesCommand s w ∧ i.isEvent = false ∧ decodeCmd w = .ok i ∧ exec i s.issued = .next t) ∨
    (resetsNow s ∧ t = { s with turns := s.turns.tail }.assertReset) ∨
    commandOutputs t = commandOutputs s := by
  rcases step_next_cases h with ⟨w, hw, hc⟩ | ⟨w, -, -, he⟩ | hr | hs
  · rcases commandStep_cases hc with rfl | ⟨i, hi, hd, hx⟩
    · exact .inr (.inr rfl)
    · exact .inl ⟨w, i, hw, hi, hd, hx⟩
  · exact .inr (.inr (exec_event_receiveSide (decodeEvent_isEvent w) he).commandOutputs_eq)
  · exact .inr (.inl hr)
  · exact .inr (.inr hs.commandOutputs_eq)

end Sys2Proof.Machine
end

section
/-! TXOUT (10_state.md rule R42): FENC_BUILD alone appends to it. -/
namespace Sys2Proof.Machine

/-- FENC_BUILD rejects a TX_LEN past the storage, or emits the whole frame with its checksum (rules R111 and R113). -/
theorem exec_fencBuild_cases {s t : State} (h : exec .fencBuild s = .next t) :
    t = s.setCmdErr .outOfRange ∨
    (s.txLen.toNat ≤ s.params.txBufBytes ∧ t = ((s.emit (fencFrame s)).setCk (fencCk s)).setCmdErr .ok) := by
  simp only [exec, execFencBuild] at h
  split at h
  next => exact .inl (next_eq h)
  next hlen => exact .inr ⟨by simpa [txLenTooLong] using hlen, next_eq h⟩

/-- A command keeps TXOUT, or is a FENC_BUILD that appends its frame. -/
theorem exec_command_txout {i : Instr} {s t : State} (hi : i.isEvent = false) (h : exec i s = .next t) :
    t.txout = s.txout ∨
    (i = .fencBuild ∧ s.txLen.toNat ≤ s.params.txBufBytes ∧ t.txout = s.txout ++ fencFrame s) := by
  rcases exec_command_cases hi h with ⟨e, rfl⟩ | ⟨src, v, -, rfl⟩ | ⟨c, -, rfl⟩ | ⟨l, c, rfl, -⟩ | ⟨p, -, rfl | rfl⟩ |
    ⟨-, rfl⟩
  case inr.inr.inr.inl =>
    rcases exec_fencBuild_cases h with rfl | ⟨hlen, rfl⟩
    · exact .inl rfl
    · exact .inr ⟨rfl, hlen, rfl⟩
  all_goals exact .inl rfl

/-- The one word of FENC_BUILD (30_encoding.md rule R72). -/
theorem word_of_decodeCmd_fencBuild {w : Word} (h : decodeCmd w = .ok .fencBuild) : w = 5 := by
  rcases decodeCmd_cases w with ⟨-, e⟩ | ⟨-, e⟩ | ⟨-, e⟩ | ⟨-, e⟩ | ⟨-, e⟩ | ⟨hw, -⟩ | ⟨-, e⟩ | ⟨-, e⟩ | ⟨-, e⟩
  case inr.inr.inr.inr.inr.inl => exact word_of_full_mask hw
  all_goals
    rw [e] at h
    cases h

/-- A slice from the start of a buffer lists its first bytes. -/
theorem sliceBytes_zero (rd : Nat → Byte) (n : Nat) : sliceBytes rd 0 n = (List.range n).map rd := by
  simp [sliceBytes, List.range_eq_range']

/-- A byte keeps a number modulo 256. -/
theorem byte_ofNat_mod (n : Nat) : BitVec.ofNat 8 (n % 256) = BitVec.ofNat 8 n :=
  BitVec.eq_of_toNat_eq (by simp)

/-- The part of the frame the checksum covers, with the length bytes as TX_LEN's low and high byte (rules R110, R112). -/
theorem fencBody_eq (s : State) :
    fencBody s = [s.fencType.extractLsb' 8 8, s.fencType.extractLsb' 0 8, BitVec.ofNat 8 s.txLen.toNat,
      if s.ctrl.getLsbD 1 then 0 else BitVec.ofNat 8 (s.txLen.toNat / 256)] ++
        (List.range s.txLen.toNat).map s.txByteAt := by
  simp only [fencBody, fencType0, fencType1, fencLen0, fencLen1, ctrlLegacyLen8, fencPayload, sliceBytes_zero,
    byte_ofNat_mod]

end Sys2Proof.Machine

namespace Sys2Proof
open Machine

/-- Settles O44: only the command FENC_BUILD writes TXOUT, and what it appends is its frame. -/
theorem txoutGrowsOnlyByWholeFrames : Obligations.TxoutGrowsOnlyByWholeFrames := by
  refine ⟨rfl, fun s t h => ?_⟩
  rcases step_commandOutputs h with ⟨w, i, hw, hi, hd, hx⟩ | ⟨-, rfl⟩ | hkeep
  · rcases exec_command_txout hi hx with hkeep | ⟨rfl, hlen, hframe⟩
    · exact .inl hkeep
    · exact .inr ⟨word_of_decodeCmd_fencBuild hd ▸ hw, hlen, fencBody s, fencBody_eq s, hframe⟩
  · exact .inl rfl
  · obtain ⟨-, -, -, htxout⟩ := commandOutputs_eq_iff.1 hkeep
    exact .inl htxout

end Sys2Proof
end

section
/-! EVOUT (10_state.md rule R43): one `conn_close` for each entry into Failed or Stopped. -/
namespace Sys2Proof.Machine

/-- What EVOUT gains when SYNC goes from one state to another (rule R43). -/
def closeEvents (before after : SyncState) : List OutEvent :=
  if before.isTerminal = false ∧ after.isTerminal = true then [.connClose] else []

/-- `t` closes by the rule: EVOUT gains what the change of SYNC_STATE asks for. -/
def closesByRule (s t : State) : Prop := t.evout = s.evout ++ closeEvents s.syncState t.syncState

/-- Nothing is closed where SYNC_STATE and EVOUT stay. -/
theorem closesByRule_of_same {s t : State} (hs : t.syncState = s.syncState) (he : t.evout = s.evout) :
    closesByRule s t := by
  have : closeEvents s.syncState s.syncState = [] := if_neg fun ⟨hn, ht⟩ => by simp [hn] at ht
  rw [closesByRule, hs, he, this, List.append_nil]

/-- Nothing is closed where SYNC ends in a state that is not terminal. -/
theorem closesByRule_of_open {s t : State} (hs : t.syncState.isTerminal = false) (he : t.evout = s.evout) :
    closesByRule s t := by
  have : closeEvents s.syncState t.syncState = [] := if_neg fun ⟨_, ht⟩ => by simp [hs] at ht
  rw [closesByRule, he, this, List.append_nil]

/-- One `conn_close` marks an entry into a terminal state. -/
theorem closesByRule_of_entry {s t : State} (hs : s.syncState.isTerminal = false)
    (ht : t.syncState.isTerminal = true) (he : t.evout = s.evout ++ [.connClose]) : closesByRule s t := by
  rw [closesByRule, he, closeEvents, if_pos ⟨hs, ht⟩]

/-- A read state is not terminal (00_scope.md rule R17). -/
theorem isTerminal_of_readState? {x : SyncState} {st : ReadState} (h : x.readState? = some st) :
    x.isTerminal = false := by
  cases x <;> simp_all [SyncState.readState?, SyncState.isTerminal]

/-- A state other than Failed and Stopped is not terminal. -/
theorem isTerminal_of_ne {x : SyncState} (hf : x ≠ .failed) (hs : x ≠ .stopped) : x.isTerminal = false := by
  cases x <;> simp_all [SyncState.isTerminal]

/-- Acting on a stored byte in a read state closes by the rule (rules R124 to R129). -/
theorem byteAction_closesByRule (st : ReadState) (k : Nat) (b : Byte) {s : State}
    (hs : s.syncState.isTerminal = false) : closesByRule s (byteAction st k b s) := by
  obtain ⟨u, hu, h⟩ := byteAction_cases st k b s
  have husync : u.syncState = s.syncState := by rcases hu with rfl | rfl | rfl <;> rfl
  have huevout : u.evout = s.evout := by rcases hu with rfl | rfl | rfl <;> rfl
  rcases h with h | ⟨x, hf, hst, h⟩ | ⟨cls, -, h⟩ <;> rw [h]
  · exact closesByRule_of_same husync huevout
  · exact closesByRule_of_open (isTerminal_of_ne hf hst) huevout
  · exact closesByRule_of_entry hs rfl (by rw [State.fail_evout, huevout])

/-- A receive event closes by the rule. -/
theorem exec_event_closesByRule {i : Instr} {s t : State} (hi : i.isEvent = true) (h : exec i s = .next t) :
    closesByRule s t := by
  rcases exec_event_cases hi h with ⟨-, rfl⟩ | ⟨st, ev, hst, -, rfl⟩ | ⟨st, b, hst, -, -, rfl⟩
  · exact closesByRule_of_same rfl rfl
  · exact closesByRule_of_entry (isTerminal_of_readState? hst) rfl rfl
  · exact byteAction_closesByRule st _ b (s := s.consumeEvent.storeRx b) (isTerminal_of_readState? hst)

/-- SYNC_ACK closes by the rule: it enters Stopped from Dispatch alone (rules R130 and R131). -/
theorem exec_syncAck_closesByRule {p : Bool} {s t : State} (h : exec (.syncAck p) s = .next t) :
    closesByRule s t := by
  by_cases hd : s.syncState = .dispatch
  · rw [exec, execSyncAck_dispatch p hd] at h
    obtain rfl := next_eq h
    cases p
    · exact closesByRule_of_open rfl rfl
    · exact closesByRule_of_entry (by rw [hd]; rfl) rfl rfl
  · rw [exec, execSyncAck_error p hd] at h
    obtain rfl := next_eq h
    exact closesByRule_of_same rfl rfl

/-- A command closes by the rule. -/
theorem exec_command_closesByRule {i : Instr} {s t : State} (hi : i.isEvent = false) (h : exec i s = .next t) :
    closesByRule s t := by
  rcases exec_command_cases hi h with ⟨e, rfl⟩ | ⟨src, v, -, rfl⟩ | ⟨c, -, rfl⟩ | ⟨l, c, -, rfl⟩ | ⟨p, rfl, -⟩ |
    ⟨-, rfl⟩
  case inr.inr.inr.inr.inl => exact exec_syncAck_closesByRule h
  case inr.inr.inr.inr.inr => exact closesByRule_of_open rfl rfl
  all_goals exact closesByRule_of_same rfl rfl

/-- The command step closes by the rule. -/
theorem commandStep_closesByRule {w : Word} {s t : State} (h : commandStep w s = .next t) : closesByRule s t := by
  rcases commandStep_cases h with rfl | ⟨i, hi, -, hx⟩
  · exact closesByRule_of_same rfl rfl
  · exact exec_command_closesByRule hi hx

end Sys2Proof.Machine

namespace Sys2Proof
open Machine

/-- Settles O40: each way a step can act closes by the rule. -/
theorem oneCloseEventPerTerminalEntry : Obligations.OneCloseEventPerTerminalEntry := by
  refine ⟨rfl, fun s t h => ?_⟩
  change closesByRule s t
  rcases step_next_cases h with ⟨w, -, hc⟩ | ⟨w, -, -, he⟩ | ⟨-, rfl⟩ | hs
  · exact commandStep_closesByRule (s := s.issued) hc
  · exact exec_event_closesByRule (s := { s with turns := s.turns.tail }) (decodeEvent_isEvent w) he
  · exact closesByRule_of_open rfl rfl
  · exact closesByRule_of_same hs.syncState_eq hs.evout_eq

end Sys2Proof
end

section
/-! The CSR map (10_state.md rule R22): what a CSR reads, at reset and after a write, and what the bus answers there. -/
namespace Sys2Proof.Machine

/-- A 32-bit read at a CSR's offset answers its value (rule R53). -/
theorem hostAccess_readCsr (s : State) {c : Csr} (x : Word) (hx : x.toNat = csrOffset c) :
    hostAccess (.rd 32 x) s = .next (s.respond (.word (readCsr c s))) := by
  simp [hostAccess, hostRead, hx, regionOf_offset, csrAt_offset]

/-- Every CSR reads 0 at reset (rule R46). -/
theorem readCsr_reset (c : Csr) : readCsr c State.reset = 0 := by cases c <;> decide

/-- The bus's answer shows in no CSR. -/
theorem readCsr_respond (c : Csr) (s : State) (r : BusResponse) : readCsr c (s.respond r) = readCsr c s := by
  cases c <;> rfl

/-- Two accumulator bytes in the low half of a word (rules R31 and R36). -/
theorem toNat_zero_append_bytes (hi lo : Byte) :
    ((0 : Half) ++ hi ++ lo).toNat = lo.toNat + 256 * hi.toNat := by
  have hlo := lo.isLt
  rw [BitVec.toNat_append, BitVec.toNat_append, ← Nat.shiftLeft_add_eq_or_of_lt hlo]
  simp [Nat.shiftLeft_eq]
  omega

/-- The low `n` bits of a word, the rest read as 0, are the word under a mask of `n` ones. -/
theorem zeroExtend_lowBits (v : Word) {n : Nat} (hn : n ≤ 32) :
    (v.extractLsb' 0 n).zeroExtend 32 = v &&& BitVec.ofNat 32 (2 ^ n - 1) := by
  have hpow : 2 ^ n ≤ 2 ^ 32 := Nat.pow_le_pow_right (by decide) hn
  apply BitVec.eq_of_toNat_eq
  have hmask : (2 ^ n - 1) % 2 ^ 32 = 2 ^ n - 1 := Nat.mod_eq_of_lt (by omega)
  have hval : v.toNat % 2 ^ n % 2 ^ 32 = v.toNat % 2 ^ n :=
    Nat.mod_eq_of_lt (lt_of_lt_of_le (Nat.mod_lt _ (Nat.two_pow_pos n)) hpow)
  rw [BitVec.toNat_and, BitVec.toNat_ofNat, hmask, Nat.and_two_pow_sub_one_eq_mod]
  simpa using hval

/-- A written CSR reads its writable bits of the value, or as before if it has none (rule R22). -/
theorem readCsr_storeCsr_same (c : Csr) (v : Word) (s : State) :
    readCsr c (storeCsr c v s) = if csrWriteMask c = 0 then readCsr c s else v &&& csrWriteMask c := by
  have whole : v = v &&& 0xFFFFFFFF := (BitVec.and_allOnes (x := v)).symm
  cases c with
  | ctrl => exact zeroExtend_lowBits v (n := 2) (by decide)
  | bfxLen => exact zeroExtend_lowBits v (n := 6) (by decide)
  | fencType => exact zeroExtend_lowBits v (n := 16) (by decide)
  | bfxOff => exact whole
  | ckStart => exact whole
  | ckEnd => exact whole
  | txLen => exact whole
  | cmd => rfl
  | status => rfl
  | bfxRes => rfl
  | ck => rfl
  | rxLen => rfl
  | rxCount => rfl
  | rxck => rfl

/-- A written CSR shows in no other CSR: each has fields of its own. -/
theorem readCsr_storeCsr_ne {c d : Csr} (h : d ≠ c) (v : Word) (s : State) :
    readCsr d (storeCsr c v s) = readCsr d s := by
  cases d
  case cmd => rfl
  case status => simp [readCsr, statusWord, msgReady, sessionEnd, sessionOk]
  case bfxRes | ck | rxLen | rxCount | rxck => simp [readCsr]
  case ctrl | bfxOff | bfxLen | ckStart | ckEnd | fencType | txLen => cases c <;> simp_all [readCsr, storeCsr]

/-- A CSR without writable bits stores nothing. -/
theorem storeCsr_readOnly {c : Csr} (h : csrWriteMask c = 0) (v : Word) (s : State) : storeCsr c v s = s := by
  cases c <;> simp_all [storeCsr, csrWriteMask]

/-- A write to a CSR without writable bits, CMD apart, is answered and ignored (rules R22 and R53). -/
theorem hostAccess_readOnly (s : State) {c : Csr} (x v : Word) (hx : x.toNat = csrOffset c) (hc : c ≠ .cmd)
    (hro : csrWriteMask c = 0) : hostAccess (.wr 32 x v) s = .next (s.respond .done) := by
  rw [hostAccess_csr s x v hx hc, storeCsr_readOnly hro]

end Sys2Proof.Machine

namespace Sys2Proof
open Machine

/-- Settles O54: each value is read off the reset state, and a later reset's by its field lemmas. -/
theorem powerOnValues : Obligations.PowerOnValues :=
  ⟨readCsr_reset, rfl, rfl, rfl, fun _ => ⟨rfl, rfl⟩, fun s =>
    ⟨s.assertReset_txout, s.assertReset_evout, s.assertReset_rxin⟩⟩

/-- Settles O50: a CSR's write is the store of its own fields, and each clause is a lemma about that store. -/
theorem csrsKeepTheirWritableBits : Obligations.CsrsKeepTheirWritableBits := by
  intro s c x hx
  refine ⟨hostAccess_readCsr s x hx, rfl, readCsr_reset c, ?cmd, ?store, BitVec.toNat_setWidth_of_le (by decide), rfl,
    BitVec.toNat_setWidth_of_le (by decide), rfl, rfl, rfl, toNat_zero_append_bytes _ _,
    BitVec.toNat_setWidth_of_le (by decide), rfl, BitVec.toNat_setWidth_of_le (by decide), rfl,
    toNat_zero_append_bytes _ _⟩
  case cmd =>
    rintro rfl v
    exact hostAccess_cmd s x v hx
  case store =>
    intro hc v
    refine ⟨_, hostAccess_csr s x v hx hc, ?_, fun d hd => ?_, fun hro => ?_, fun a => ?_, storeCsr_respond_frame c v s⟩
    · rw [readCsr_respond, readCsr_storeCsr_same]
    · rw [readCsr_respond, readCsr_storeCsr_ne hd]
    · rw [storeCsr_readOnly hro]
      rfl
    · simp

end Sys2Proof
end

section
/-! CK (10_state.md rule R31) and BFX_RES (rule R28): the commands that write them. -/
namespace Sys2Proof.Machine

/-- A command keeps the accumulator, or is one of the four that write it (rule R31). -/
theorem exec_command_ck {i : Instr} {s t : State} (hi : i.isEvent = false) (h : exec i s = .next t) :
    (t.ckA = s.ckA ∧ t.ckB = s.ckB) ∨
    (i = .ckClear ∨ (∃ x, i = .ckByte x) ∨ (∃ src, i = .ckRange src) ∨ i = .fencBuild) := by
  rcases exec_command_cases hi h with ⟨e, rfl⟩ | ⟨src, v, -, rfl⟩ | ⟨c, hck, -⟩ | ⟨l, c, hf, -⟩ | ⟨p, -, rfl | rfl⟩ |
    ⟨-, rfl⟩
  case inr.inr.inl => exact .inr (by tauto)
  case inr.inr.inr.inl => exact .inr (.inr (.inr (.inr hf)))
  all_goals exact .inl ⟨rfl, rfl⟩

/-- BFX_EXTRACT rejects its field, or leaves the extraction in BFX_RES (rules R90 and R91). -/
theorem exec_bfxExtract_cases {src : Src} {s t : State} (h : exec (.bfxExtract src) s = .next t) :
    t = s.setCmdErr .outOfRange ∨
    t = (s.setBfxRes (extractField (srcByte src s) s.bfxOff.toNat s.bfxLen.toNat)).setCmdErr .ok := by
  simp only [exec, execBfxExtract] at h
  split at h
  · exact .inl (next_eq h)
  · exact .inr (next_eq h)

/-- A command keeps BFX_RES, or is a BFX_EXTRACT that succeeds (rule R28). -/
theorem exec_command_bfxRes {i : Instr} {s t : State} (hi : i.isEvent = false) (h : exec i s = .next t) :
    t.bfxRes = s.bfxRes ∨ ∃ src, i = .bfxExtract src ∧ t.cmdErr = .ok ∧
      t.bfxRes = extractField (srcByte src s) s.bfxOff.toNat s.bfxLen.toNat := by
  rcases exec_command_cases hi h with ⟨e, rfl⟩ | ⟨src, v, rfl, -⟩ | ⟨c, -, rfl⟩ | ⟨l, c, -, rfl⟩ | ⟨p, -, rfl | rfl⟩ |
    ⟨-, rfl⟩
  case inr.inl =>
    rcases exec_bfxExtract_cases h with rfl | rfl
    · exact .inl rfl
    · exact .inr ⟨src, rfl, rfl, rfl⟩
  all_goals exact .inl rfl

/-- Issuing a command changes no byte it reads. -/
theorem srcByte_issued (src : Src) (s : State) : srcByte src s.issued = srcByte src s := by cases src <;> rfl

end Sys2Proof.Machine

namespace Sys2Proof
open Machine

/-- Settles O45: the read-only CSR by the lemmas of the CSR map, the writers by the cases of a step. -/
theorem ckIsWrittenOnlyByItsCommands : Obligations.CkIsWrittenOnlyByItsCommands := by
  refine ⟨fun s => ⟨toNat_zero_append_bytes s.ckB s.ckA, hostAccess_readCsr (c := .ck) s 0x20 rfl, fun v =>
    hostAccess_readOnly (c := .ck) s 0x20 v rfl (by decide) rfl⟩, readCsr_reset .ck, fun s t h hck hnr => ?_⟩
  rcases step_commandOutputs h with ⟨w, i, hw, hi, hd, hx⟩ | ⟨hr, -⟩ | hkeep
  · rcases exec_command_ck hi hx with hkeep | rfl | ⟨x, rfl⟩ | ⟨src, rfl⟩ | rfl
    · exact absurd hkeep hck
    · exact ⟨w, hw, .inl hd⟩
    · exact ⟨w, hw, .inr (.inl ⟨x, hd⟩)⟩
    · exact ⟨w, hw, .inr (.inr (.inl ⟨src, hd⟩))⟩
    · exact ⟨w, hw, .inr (.inr (.inr hd))⟩
  · exact absurd hr hnr
  · obtain ⟨-, ha, hb, -⟩ := commandOutputs_eq_iff.1 hkeep
    exact absurd ⟨ha, hb⟩ hck

/-- Settles O46: the read-only CSR by the lemmas of the CSR map, the result by BFX_EXTRACT's two outcomes, the writer
by the cases of a step. -/
theorem bfxResIsTheLastSuccessfulResult : Obligations.BfxResIsTheLastSuccessfulResult := by
  refine ⟨readCsr_reset .bfxRes, fun s => ⟨hostAccess_readCsr (c := .bfxRes) s 0x14 rfl, fun v =>
    hostAccess_readOnly (c := .bfxRes) s 0x14 v rfl (by decide) rfl⟩, fun src s t h => ?_, fun s t h hne => ?_⟩
  · rcases exec_bfxExtract_cases h with rfl | rfl
    · exact ⟨fun hok => (by cases hok), fun _ => rfl⟩
    · exact ⟨fun _ => rfl, fun hnok => absurd rfl hnok⟩
  · rcases step_commandOutputs h with ⟨w, i, hw, hi, hd, hx⟩ | ⟨hr, rfl⟩ | hkeep
    · rcases exec_command_bfxRes hi hx with hkeep | ⟨src, rfl, hok, hres⟩
      · exact absurd hkeep hne
      · exact .inr ⟨w, src, hw, hd, hok, by rwa [srcByte_issued] at hres⟩
    · exact .inl ⟨hr, rfl⟩
    · exact absurd (commandOutputs_eq_iff.1 hkeep).1 hne

end Sys2Proof
end

section
/-! Bus errors (20_memory.md rule R57). Each window of the address map (rule R52) has its own condition for the error
response; the five cases of the rule are those conditions taken together. -/
namespace Sys2Proof

/-- The width of a host access in bits. -/
def HostAccess.bits : HostAccess → Nat
  | .rd bits _ => bits
  | .wr bits _ _ => bits

/-- The byte address of a host access. -/
def HostAccess.byteAddr : HostAccess → Nat
  | .rd _ addr => addr.toNat
  | .wr _ addr _ => addr.toNat

/-- The access is a write. -/
def HostAccess.isWrite : HostAccess → Prop
  | .rd _ _ => False
  | .wr _ _ _ => True

end Sys2Proof

namespace Sys2Proof.Machine

/-- The address lies in the CSR window (rule R52). -/
def inCsrWindow (addr : Nat) : Prop := addr < csrWindowEnd

/-- The address lies in the RX_BUF window (rule R52). -/
def inRxWindow (p : Params) (addr : Nat) : Prop := rxBufBase ≤ addr ∧ addr < rxBufBase + rxBufBytes p

/-- The address lies in the TX_BUF window (rule R52). -/
def inTxWindow (p : Params) (addr : Nat) : Prop := txBufBase ≤ addr ∧ addr < txBufBase + p.txBufBytes

/-- The cases (a) to (e) of rule R57. -/
def isBusErrorCase (p : Params) (a : HostAccess) : Prop :=
  (¬ inCsrWindow a.byteAddr ∧ ¬ inRxWindow p a.byteAddr ∧ ¬ inTxWindow p a.byteAddr) ∨
  (inCsrWindow a.byteAddr ∧ a.bits ≠ 32) ∨ (inCsrWindow a.byteAddr ∧ a.byteAddr % 4 ≠ 0) ∨
  ((inRxWindow p a.byteAddr ∨ inTxWindow p a.byteAddr) ∧ a.bits ≠ 8) ∨ (inRxWindow p a.byteAddr ∧ a.isWrite)

/-- The outcome is a next state with one more response, which is not the error response. -/
def completes (s : State) (o : Host.Outcome State Fault Refusal) : Prop :=
  ∃ t r, o = .next t ∧ t.responses = s.responses ++ [r] ∧ r ≠ .busError

/-- The access is a bus error where `bad` holds, and completes where it does not. -/
def errsExactlyWhen (a : HostAccess) (s : State) (bad : Prop) : Prop :=
  (bad → hostAccess a s = busError s) ∧ (¬ bad → completes s (hostAccess a s))

/-- The four regions of the address map: an address lies in one window alone, or in none. -/
theorem regionOf_cases (p : Params) (addr : Nat) :
    (regionOf p addr = .csr ∧ inCsrWindow addr ∧ ¬ inRxWindow p addr ∧ ¬ inTxWindow p addr) ∨
    (∃ i, regionOf p addr = .rx i ∧ ¬ inCsrWindow addr ∧ inRxWindow p addr ∧ ¬ inTxWindow p addr) ∨
    (∃ i, regionOf p addr = .tx i ∧ ¬ inCsrWindow addr ∧ ¬ inRxWindow p addr ∧ inTxWindow p addr) ∨
    (regionOf p addr = .unmapped ∧ ¬ inCsrWindow addr ∧ ¬ inRxWindow p addr ∧ ¬ inTxWindow p addr) := by
  have hsize := rxBufBytes_le p
  have hcsrRx : inCsrWindow addr → ¬ inRxWindow p addr := by
    unfold inCsrWindow inRxWindow csrWindowEnd rxBufBase
    omega
  have hcsrTx : inCsrWindow addr → ¬ inTxWindow p addr := by
    unfold inCsrWindow inTxWindow csrWindowEnd txBufBase
    omega
  have hrxTx : inRxWindow p addr → ¬ inTxWindow p addr := by
    unfold inRxWindow inTxWindow rxBufBase txBufBase
    omega
  unfold regionOf
  split_ifs with hcsr hrx htx
  · exact .inl ⟨rfl, hcsr, hcsrRx hcsr, hcsrTx hcsr⟩
  · exact .inr (.inl ⟨_, rfl, hcsr, hrx, hrxTx hrx⟩)
  · exact .inr (.inr (.inl ⟨_, rfl, hcsr, hrx, htx⟩))
  · exact .inr (.inr (.inr ⟨rfl, hcsr, hrx, htx⟩))

/-- A CSR named by an address has it as its offset. -/
theorem csrOffset_of_csrAt {addr : Nat} {c : Csr} (h : csrAt addr = some c) : addr = csrOffset c := by
  have hfound := List.find?_some h
  exact (by simpa using hfound : csrOffset c = addr).symm

/-- A command answers nothing of its own: the response is its CMD write's (44_command_control.md rule R150). -/
theorem commandStep_responses {w : Word} {s t : State} (h : commandStep w s = .next t) :
    t.responses = s.responses := by
  rcases commandStep_cases h with rfl | ⟨i, hi, -, hx⟩
  · rfl
  · rcases exec_command_cases hi hx with ⟨e, rfl⟩ | ⟨src, v, -, rfl⟩ | ⟨c, -, rfl⟩ | ⟨l, c, -, rfl⟩ |
      ⟨p, -, rfl | rfl⟩ | ⟨-, rfl⟩
    all_goals rfl

/-- A response other than the error response completes. -/
theorem completes_respond {s u : State} {r : BusResponse} (hu : u.responses = s.responses) (hr : r ≠ .busError) :
    completes s (.next (u.respond r)) :=
  ⟨_, r, rfl, by rw [State.respond_responses, hu], hr⟩

/-- A command step behind its CMD write's response completes (rule R150). -/
theorem completes_commandStep (w : Word) (s : State) : completes s (commandStep w (s.respond .done)) := by
  obtain ⟨t, ht⟩ := commandStep_next w (s.respond .done)
  exact ⟨t, .done, ht, commandStep_responses ht, nofun⟩

/-- A 32-bit access at a CSR's offset completes, a command issued by it included (rule R53). -/
theorem hostAccess_csr_completes {a : HostAccess} {c : Csr} (s : State) (hbits : a.bits = 32)
    (haddr : a.byteAddr = csrOffset c) : completes s (hostAccess a s) := by
  cases a with
  | rd bits x =>
    obtain rfl : bits = 32 := hbits
    rw [hostAccess_readCsr s x haddr]
    exact completes_respond rfl nofun
  | wr bits x v =>
    obtain rfl : bits = 32 := hbits
    by_cases hc : c = .cmd
    · subst hc
      rw [hostAccess_cmd s x v haddr]
      exact completes_commandStep v s
    · rw [hostAccess_csr s x v haddr hc]
      exact completes_respond (storeCsr_responses c v s) nofun

/-- A host read of RX_BUF completes, the draw of an unspecified byte included (rule R54). -/
theorem hostReadRx_completes (i : Nat) (s : State) : completes s (.next (hostReadRx i s)) := by
  unfold hostReadRx
  split
  · exact completes_respond rfl nofun
  · exact completes_respond s.drawRx_responses nofun

/-- A CSR-window access errs if it names no CSR in the width a CSR has (rule R53). -/
theorem hostAccess_csr_error {a : HostAccess} {s : State} (hregion : regionOf s.params a.byteAddr = .csr)
    (hnone : a.bits = 32 → csrAt a.byteAddr = none) : hostAccess a s = busError s := by
  cases a <;> simp only [HostAccess.bits, HostAccess.byteAddr] at hregion hnone
  all_goals
    simp only [hostAccess, hostRead, hostWrite, hregion]
    split
    next hbits => rw [hnone hbits]
    next => rfl

/-- A read in the RX_BUF window (rule R54). -/
theorem hostRead_rx {s : State} {addr i : Nat} (bits : Nat) (h : regionOf s.params addr = .rx i) :
    hostRead bits addr s = if bits = 8 then .next (hostReadRx i s) else busError s := by
  simp only [hostRead, h]

/-- A read in the TX_BUF window (rule R54). -/
theorem hostRead_tx {s : State} {addr i : Nat} (bits : Nat) (h : regionOf s.params addr = .tx i) :
    hostRead bits addr s = if bits = 8 then .next (s.respond (.byte (s.txByteAt i))) else busError s := by
  simp only [hostRead, h]

/-- A write in the RX_BUF window (rule R54). -/
theorem hostWrite_rx {s : State} {addr i : Nat} (bits : Nat) (v : Word) (h : regionOf s.params addr = .rx i) :
    hostWrite bits addr v s = busError s := by
  simp only [hostWrite, h]

/-- A write in the TX_BUF window (rule R54). -/
theorem hostWrite_tx {s : State} {addr i : Nat} (bits : Nat) (v : Word) (h : regionOf s.params addr = .tx i) :
    hostWrite bits addr v s =
      if bits = 8 then .next ((s.writeTx i (v.extractLsb' 0 8)).respond .done) else busError s := by
  simp only [hostWrite, h]

/-- An access outside the windows (case (a)). -/
theorem hostAccess_unmapped {a : HostAccess} {s : State} (h : regionOf s.params a.byteAddr = .unmapped) :
    hostAccess a s = busError s := by
  cases a <;> simp only [HostAccess.byteAddr] at h <;> simp only [hostAccess, hostRead, hostWrite, h]

/-- An access that completes where `good` holds and errs elsewhere errs exactly when `good` fails. -/
theorem errsExactlyWhen_of_ite {a : HostAccess} {s : State} {good : Prop} [Decidable good]
    {o : Host.Outcome State Fault Refusal} (h : hostAccess a s = if good then o else busError s)
    (ho : completes s o) : errsExactlyWhen a s (¬ good) :=
  ⟨fun hbad => by rw [h, if_neg hbad], fun hgood => by rwa [h, if_pos (not_not.1 hgood)]⟩

/-- In the CSR window an access errs when it is not 32 bits wide or misaligned (cases (b) and (c)). -/
theorem errsExactlyWhen_csr {a : HostAccess} {s : State} (hregion : regionOf s.params a.byteAddr = .csr)
    (hwindow : inCsrWindow a.byteAddr) : errsExactlyWhen a s (a.bits ≠ 32 ∨ a.byteAddr % 4 ≠ 0) := by
  refine ⟨fun hbad => ?_, fun hok => ?_⟩
  · exact hostAccess_csr_error hregion fun hbits => csrAt_misaligned (hbad.resolve_left (not_not.2 hbits))
  · obtain ⟨hbits, haligned⟩ : a.bits = 32 ∧ a.byteAddr % 4 = 0 := by omega
    obtain ⟨c, hc⟩ := csrAt_aligned haligned hwindow
    exact hostAccess_csr_completes s hbits (csrOffset_of_csrAt hc)

/-- In the RX_BUF window an access errs when it is not 8 bits wide or a write (cases (d) and (e)). -/
theorem errsExactlyWhen_rx {a : HostAccess} {s : State} {i : Nat}
    (hregion : regionOf s.params a.byteAddr = .rx i) : errsExactlyWhen a s (a.bits ≠ 8 ∨ a.isWrite) := by
  cases a with
  | rd bits x =>
    have h := errsExactlyWhen_of_ite (a := .rd bits x) (hostRead_rx bits hregion) (hostReadRx_completes i s)
    simpa only [HostAccess.bits, HostAccess.isWrite, or_false] using h
  | wr bits x v => exact ⟨fun _ => hostWrite_rx bits v hregion, fun hread => absurd (.inr trivial) hread⟩

/-- In the TX_BUF window an access errs when it is not 8 bits wide (case (d)). -/
theorem errsExactlyWhen_tx {a : HostAccess} {s : State} {i : Nat}
    (hregion : regionOf s.params a.byteAddr = .tx i) : errsExactlyWhen a s (a.bits ≠ 8) := by
  cases a with
  | rd bits x => exact errsExactlyWhen_of_ite (hostRead_tx bits hregion) (completes_respond rfl nofun)
  | wr bits x v =>
    exact errsExactlyWhen_of_ite (hostWrite_tx bits v hregion) (completes_respond (s.writeTx_responses i _) nofun)

/-- Every access errs in exactly the cases of rule R57: in each window they are the window's own condition. -/
theorem errsExactlyWhen_isBusErrorCase (a : HostAccess) (s : State) :
    errsExactlyWhen a s (isBusErrorCase s.params a) := by
  rcases regionOf_cases s.params a.byteAddr with ⟨hr, hcsr, hrx, htx⟩ | ⟨i, hr, hcsr, hrx, htx⟩ |
    ⟨i, hr, hcsr, hrx, htx⟩ | ⟨hr, hcsr, hrx, htx⟩
  · simpa [isBusErrorCase, hcsr, hrx, htx] using errsExactlyWhen_csr hr hcsr
  · simpa [isBusErrorCase, hcsr, hrx, htx] using errsExactlyWhen_rx hr
  · simpa [isBusErrorCase, hcsr, hrx, htx] using errsExactlyWhen_tx hr
  · exact ⟨fun _ => hostAccess_unmapped hr, fun hmapped => absurd (.inl ⟨hcsr, hrx, htx⟩) hmapped⟩

end Sys2Proof.Machine

namespace Sys2Proof
open Machine

/-- Settles O49: each window of the address map has its own condition, and together they are the five cases. -/
theorem busErrorsAreTheFiveCases : Obligations.BusErrorsAreTheFiveCases :=
  fun s a => errsExactlyWhen_isBusErrorCase a s

end Sys2Proof
end

section
/-! The receive-event word (30_encoding.md rule R74): KIND is all that its two high bits say. -/
namespace Sys2Proof.Machine

/-- The mask 0x300 keeps KIND, in its place. -/
theorem and_kindMask_toNat (w : EventWord) : (w &&& 0x300).toNat = 256 * (w.toNat / 256) := by
  have hkind : (w.toNat &&& 768) / 256 = w.toNat / 256 % 4 := by
    rw [Nat.and_div_two_pow (n := 8)]
    exact Nat.and_two_pow_sub_one_eq_mod _ 2
  have hdata : (w.toNat &&& 768) % 256 = 0 := by
    rw [Nat.and_mod_two_pow (n := 8)]
    exact Nat.and_zero _
  have hw := w.isLt
  change w.toNat &&& 768 = _
  omega

/-- A row of rule R74 is chosen exactly by the number KIND. -/
theorem and_kindMask_eq_iff (w : EventWord) {m : EventWord} {kind : Nat} (hm : m.toNat = 256 * kind) :
    w &&& 0x300 = m ↔ w.toNat / 256 = kind := by
  rw [← BitVec.toNat_inj, and_kindMask_toNat, hm]
  omega

/-- The event decoder as a choice by the number KIND (rule R74). -/
theorem decodeEvent_eq (w : EventWord) : decodeEvent w =
    if w.toNat / 256 = 0 then .rxByte (w.extractLsb' 0 8)
    else if w.toNat / 256 = 1 then .rxEos
    else if w.toNat / 256 = 2 then .rxErr
    else .rxTimeout := by
  have hbyte : w &&& 0x300 = 0x000 ↔ w.toNat / 256 = 0 := and_kindMask_eq_iff w rfl
  have heos : w &&& 0x300 = 0x100 ↔ w.toNat / 256 = 1 := and_kindMask_eq_iff w rfl
  have herr : w &&& 0x300 = 0x200 ↔ w.toNat / 256 = 2 := and_kindMask_eq_iff w rfl
  simp only [decodeEvent, hbyte, heos, herr]

end Sys2Proof.Machine

namespace Sys2Proof
open Machine

/-- Settles O5: the decoder chooses by KIND alone, and the byte it reads is the word modulo 256. -/
theorem eventWordDecodesByKind : Obligations.EventWordDecodesByKind := by
  intro w
  refine ⟨by have := w.isLt; omega, fun h => ⟨w.extractLsb' 0 8, by simp, ?_⟩, fun h => ?_, fun h => ?_, fun h => ?_⟩
  all_goals simp [decodeEvent_eq, h]

end Sys2Proof
end

section
/-! The command word (30_encoding.md rules R71, R72 and R77): a row of the table fixes the opcode byte, the opcode byte
fixes the command, and the bits a row's mask adds to it are those that must be 0. -/
namespace Sys2Proof.Machine
open Laws.EncodedRow (row)

/-- The command an opcode stands for, its fields read from the word (rules R71 and R72). -/
def commandAt (op : Nat) (w : Word) : Option Instr :=
  match op with
  | 0 => some .nop
  | 1 => some (.bfxExtract (cmdSrc w))
  | 2 => some .ckClear
  | 3 => some (.ckByte (cmdImm8 w))
  | 4 => some (.ckRange (cmdSrc w))
  | 5 => some .fencBuild
  | 6 => some (.syncAck (cmdStop w))
  | 7 => some .syncRestart
  | _ => none

/-- A word in a row of the table has that row's opcode. -/
theorem opcode_of_commandRow {w : Word} {r : Word × Word} (hr : r ∈ commandRows) (h : w &&& r.1 = r.2) :
    w.toNat % 256 = r.2.toNat % 256 := by
  have keepsOpcode : ∀ q ∈ commandRows, q.1.toNat % 256 = 255 := by simp [commandRows]
  exact opcode_of_row (keepsOpcode r hr) h

/-- No word stands in two rows: their opcodes differ. -/
theorem commandRows_apart (w : Word) :
    commandRows.Pairwise fun r q => ¬ (w &&& r.1 = r.2 ∧ w &&& q.1 = q.2) := by
  have opcodesDiffer : commandRows.Pairwise fun r q => r.2.toNat % 256 ≠ q.2.toNat % 256 := by decide
  exact opcodesDiffer.imp_of_mem fun hr hq hne ⟨hw, hw'⟩ =>
    hne ((opcode_of_commandRow hr hw).symm.trans (opcode_of_commandRow hq hw'))

/-- A command has a row of the table. -/
theorem exists_row_of_command {i : Instr} (hi : i.isEvent = false) : ∃ r ∈ commandRows, row i = .inl r := by
  cases i with
  | nop | bfxExtract | ckClear | ckByte | ckRange | fencBuild | syncAck | syncRestart => exact ⟨_, by decide, rfl⟩
  | rxByte | rxEos | rxErr | rxTimeout => cases hi

/-- The decoder answers ILLEGAL exactly when no row matches. -/
theorem decodeCmd_error_iff (w : Word) :
    (∃ e, decodeCmd w = .error e) ↔ ∀ r ∈ commandRows, w &&& r.1 ≠ r.2 := by
  rcases decodeCmd_cases w with ⟨h, e⟩ | ⟨h, e⟩ | ⟨h, e⟩ | ⟨h, e⟩ | ⟨h, e⟩ | ⟨h, e⟩ | ⟨h, e⟩ | ⟨h, e⟩ | ⟨h, e⟩
  case inr.inr.inr.inr.inr.inr.inr.inr => exact iff_of_true ⟨_, e⟩ h
  all_goals exact iff_of_false (by rw [e]; nofun) fun hall => hall (_, _) (by decide) h

/-- What the decoder answers stands in its own row, with the fields of the word. -/
theorem row_of_decodeCmd {w : Word} {i : Instr} {r : Word × Word} (hr : row i = .inl r) (h : decodeCmd w = .ok i) :
    w &&& r.1 = r.2 ∧ commandAt (r.2.toNat % 256) w = some i := by
  rcases decodeCmd_cases w with ⟨hw, e⟩ | ⟨hw, e⟩ | ⟨hw, e⟩ | ⟨hw, e⟩ | ⟨hw, e⟩ | ⟨hw, e⟩ | ⟨hw, e⟩ | ⟨hw, e⟩ |
    ⟨-, e⟩
  all_goals
    rw [e] at h
    cases h
  all_goals
    cases hr
    exact ⟨hw, rfl⟩

/-- A command is what a word decodes to exactly when the word is in the command's row and has its fields (rule R72). -/
theorem decodeCmd_eq_ok_iff (w : Word) {i : Instr} {r : Word × Word} (hr : row i = .inl r) (hmem : r ∈ commandRows) :
    decodeCmd w = .ok i ↔ w &&& r.1 = r.2 ∧ commandAt (r.2.toNat % 256) w = some i := by
  refine ⟨row_of_decodeCmd hr, fun ⟨hw, hi⟩ => ?_⟩
  cases hd : decodeCmd w with
  | error e => exact absurd hw ((decodeCmd_error_iff w).1 ⟨e, hd⟩ r hmem)
  | ok j =>
    obtain ⟨q, hq, hrow⟩ := exists_row_of_command (decodeCmd_isEvent hd)
    obtain ⟨hwq, hj⟩ := row_of_decodeCmd hrow hd
    rw [← opcode_of_commandRow hmem hw] at hi
    rw [← opcode_of_commandRow hq hwq, hi] at hj
    rw [Option.some.inj hj]

end Sys2Proof.Machine

namespace Sys2Proof
open Machine

/-- Settles O3: each clause is the row of its command, with the fields as rule R71 places them. -/
theorem commandDecodesExactlyByTheTable : Obligations.CommandDecodesExactlyByTheTable := by
  intro w
  refine ⟨?nop, fun src => ?bfxExtract, ?ckClear, fun x => ?ckByte, fun src => ?ckRange, ?fencBuild, fun p => ?syncAck,
    ?syncRestart, decodeCmd_error_iff w, commandRows_apart w⟩
  all_goals
    rw [decodeCmd_eq_ok_iff w rfl (by decide)]
    simp [commandAt, cmdSrc_eq_iff, cmdImm8_eq_iff, cmdStop]

end Sys2Proof
end

section
/-! Illegal command words (30_encoding.md rule R77): every mask of the table is the opcode byte, the reserved bits and
the fields the opcode does not use; and NOP alone leaves every state but for CMD_ERR. -/
namespace Sys2Proof.Machine

/-- The bits of a field that must be 0: all of them, unless the opcode uses the field. -/
def unusedMask (used : Bool) (field : Word) : Word := if used then 0 else field

/-- The mask of an opcode's row: OP, the reserved bits, and SRC, STOP and IMM8 where they are not used (rule R72). -/
def rowMask (op : Nat) : Word :=
  0x000000FF ||| 0x0000FC00 ||| 0xFF000000 ||| unusedMask (op = 1 ∨ op = 4) (BitVec.twoPow 32 8) |||
    unusedMask (op = 6) (BitVec.twoPow 32 9) ||| unusedMask (op = 3) 0x00FF0000

/-- Outside the opcode byte, a word has only the fields its opcode uses (rule R77). -/
def onlyUsedFields (op : Nat) (w : Word) : Prop :=
  w &&& 0x0000FC00 = 0 ∧ w &&& 0xFF000000 = 0 ∧ (w.getLsbD 8 = true → op = 1 ∨ op = 4) ∧
    (w.getLsbD 9 = true → op = 6) ∧ (w &&& 0x00FF0000 ≠ 0 → op = 3)

/-- The table, from the opcodes. -/
theorem commandRows_eq : commandRows = (List.range 8).map fun op => (rowMask op, BitVec.ofNat 32 op) := by decide

/-- A mask may be split where the second part has to read 0. -/
theorem and_or_eq_iff {w m n v : Word} (hv : v &&& n = 0) :
    w &&& (m ||| n) = v ↔ w &&& m = v ∧ w &&& n = 0 := by
  have absorb : (w &&& (m ||| n)) &&& n = w &&& n := by
    ext i hi
    simp only [BitVec.getElem_and, BitVec.getElem_or]
    cases n[i] <;> simp
  rw [BitVec.and_or_distrib_left] at absorb ⊢
  constructor
  · intro h
    have hn : w &&& n = 0 := by rw [← absorb, h, hv]
    exact ⟨by simpa [hn] using h, hn⟩
  · rintro ⟨hm, hn⟩
    simp [hm, hn]

/-- A bit reads 0 under its mask exactly when it is 0. -/
theorem and_twoPow_eq_zero_iff (w : Word) {k : Nat} (hk : k < 32) :
    w &&& BitVec.twoPow 32 k = 0 ↔ w.getLsbD k = false := by
  have hne : BitVec.twoPow 32 k ≠ 0 := fun h => by simpa [hk] using congrArg (BitVec.getLsbD · k) h
  rw [BitVec.and_twoPow]
  cases w.getLsbD k
  · simp
  · simpa using hne

/-- The bits of a field are as they must be exactly when the field is 0 or used. -/
theorem and_unusedMask_eq_zero_iff (w field : Word) (used : Bool) :
    w &&& unusedMask used field = 0 ↔ (w &&& field ≠ 0 → used = true) := by
  cases used <;> simp [unusedMask]

/-- The opcode byte under its mask. -/
theorem and_opcodeMask_eq_iff (w : Word) {op : Nat} (hop : op < 256) :
    w &&& 0x000000FF = BitVec.ofNat 32 op ↔ w.toNat % 256 = op := by
  rw [← BitVec.toNat_inj, BitVec.toNat_and]
  change w.toNat &&& (2 ^ 8 - 1) = op % 2 ^ 32 ↔ _
  rw [Nat.and_two_pow_sub_one_eq_mod, Nat.mod_eq_of_lt (a := op) (by omega)]

/-- A word is in an opcode's row exactly when it has that opcode and only fields the opcode uses. -/
theorem and_rowMask_eq_iff (w : Word) {op : Nat} (hop : op < 8) :
    w &&& rowMask op = BitVec.ofNat 32 op ↔ w.toNat % 256 = op ∧ onlyUsedFields op w := by
  have disjoint : ∀ k < 8, BitVec.ofNat 32 k &&& 0x0000FC00 = 0 ∧ BitVec.ofNat 32 k &&& 0xFF000000 = 0 ∧
      (∀ b, BitVec.ofNat 32 k &&& unusedMask b (BitVec.twoPow 32 8) = 0) ∧
      (∀ b, BitVec.ofNat 32 k &&& unusedMask b (BitVec.twoPow 32 9) = 0) ∧
      ∀ b, BitVec.ofNat 32 k &&& unusedMask b 0x00FF0000 = 0 := by decide
  obtain ⟨hlow, hhigh, hsrc, hstop, himm⟩ := disjoint op hop
  rw [rowMask, and_or_eq_iff (himm _), and_or_eq_iff (hstop _), and_or_eq_iff (hsrc _), and_or_eq_iff hhigh,
    and_or_eq_iff hlow, and_opcodeMask_eq_iff w (by omega)]
  simp only [and_unusedMask_eq_zero_iff, ne_eq, and_twoPow_eq_zero_iff w (k := 8) (by decide),
    and_twoPow_eq_zero_iff w (k := 9) (by decide), Bool.not_eq_false, decide_eq_true_eq, onlyUsedFields, and_assoc]

/-- The legal words by opcode and fields (rule R77, the other way round). -/
theorem decodeCmd_error_iff_fields (w : Word) :
    (∃ e, decodeCmd w = .error e) ↔ ¬ (w.toNat % 256 < 8 ∧ onlyUsedFields (w.toNat % 256) w) := by
  rw [decodeCmd_error_iff, commandRows_eq, List.forall_mem_map]
  constructor
  · rintro h ⟨hop, hfields⟩
    exact h _ (List.mem_range.2 hop) ((and_rowMask_eq_iff w hop).2 ⟨rfl, hfields⟩)
  · intro h op hmem hrow
    have hop := List.mem_range.1 hmem
    obtain ⟨rfl, hfields⟩ := (and_rowMask_eq_iff w hop).1 hrow
    exact h ⟨hop, hfields⟩

/-- An illegal word reports ILLEGAL_COMMAND (44_command_control.md rule R150). -/
theorem commandStep_illegal {w : Word} {e : IllegalWord} (h : decodeCmd w = .error e) (s : State) :
    commandStep w s = commandError .illegalCommand s := by
  simp only [commandStep, h]

/-- A legal word runs its command (rule R150). -/
theorem commandStep_legal {w : Word} {i : Instr} (h : decodeCmd w = .ok i) (s : State) :
    commandStep w s = exec i s := by
  simp only [commandStep, h]

/-- A state in which every command but NOP shows: both ranges are out of range, TX_LEN is past the storage, SYNC waits
for a marker, and the accumulator is not 0. -/
def commandProbe : State := { State.reset with bfxLen := 33, ckEnd := 1, txLen := 65536, ckA := 1 }

/-- From `commandProbe`, NOP alone does nothing but report OK. -/
theorem eq_nop_of_exec_commandProbe {i : Instr} (hi : i.isEvent = false)
    (h : exec i commandProbe = .next { commandProbe with cmdErr := .ok }) : i = .nop := by
  have notError : ∀ e ≠ .ok, exec i commandProbe ≠ commandError e commandProbe := fun e he heq =>
    he (congrArg State.cmdErr (next_eq (heq.symm.trans h))).symm
  cases i with
  | nop => rfl
  | bfxExtract src => exact absurd (by cases src <;> rfl) (notError .outOfRange nofun)
  | ckRange src => exact absurd (by cases src <;> rfl) (notError .outOfRange nofun)
  | fencBuild => exact absurd rfl (notError .outOfRange nofun)
  | syncAck p => exact absurd rfl (notError .stateError nofun)
  | syncRestart => exact absurd rfl (notError .stateError nofun)
  | ckClear => exact absurd (congrArg State.ckA (next_eq h)) (by decide)
  | ckByte x =>
    have hA : (1 : Byte) = 1 + x := congrArg State.ckA (next_eq h)
    have hB : (0 : Byte) = 0 + (1 + x) := congrArg State.ckB (next_eq h)
    rw [← hA] at hB
    exact absurd hB (by decide)
  | rxByte | rxEos | rxErr | rxTimeout => cases hi

/-- The word 0 does nothing but report OK, and no other word does so in every state (rules R77 and R152). -/
theorem commandStep_only_ok_iff (w : Word) :
    (∀ s, commandStep w s = .next { s with cmdErr := .ok }) ↔ w = 0 := by
  constructor
  · intro h
    rcases commandStep_cases (h commandProbe) with hillegal | ⟨i, hi, hd, hx⟩
    · exact absurd (congrArg State.cmdErr hillegal) nofun
    · obtain rfl := eq_nop_of_exec_commandProbe hi hx
      obtain ⟨hzero, -⟩ := row_of_decodeCmd rfl hd
      exact word_of_full_mask hzero
  · rintro rfl s
    exact commandStep_legal (i := .nop) (by decide) s

end Sys2Proof.Machine

namespace Sys2Proof
open Machine

/-- Settles O4: the masks of the table cover the opcode, the reserved bits and the unused fields, and from one state
every command but NOP shows. -/
theorem illegalWordsAreTheThreeCases : Obligations.IllegalWordsAreTheThreeCases := by
  refine fun w => ⟨?_, fun e s h => commandStep_illegal h s, commandStep_only_ok_iff w⟩
  rw [decodeCmd_error_iff_fields, onlyUsedFields]
  grind

end Sys2Proof
end

section
/-! The frame FENC_BUILD emits (30_encoding.md rule R75), part by part. -/
namespace Sys2Proof.Machine

/-- FENC_BUILD emits the frame when TX_LEN is within the storage (rules R110 and R111). -/
theorem exec_fencBuild_fits {s : State} (h : s.txLen.toNat ≤ s.params.txBufBytes) :
    exec .fencBuild s = .next (((s.emit (fencFrame s)).setCk (fencCk s)).setCmdErr .ok) := by
  have hfits : txLenTooLong s = false := by simpa [txLenTooLong] using h
  simp only [exec, execFencBuild, hfits, commandOk, Bool.false_eq_true, ↓reduceIte]

/-- LEN0 as a number (42_frame_encoder.md rule R112). -/
@[simp] theorem fencLen0_toNat (s : State) : (fencLen0 s).toNat = s.txLen.toNat % 256 := by simp [fencLen0]

/-- LEN1 as a number, in both modes (rule R112). -/
@[simp] theorem fencLen1_toNat (s : State) :
    (fencLen1 s).toNat = if s.ctrl.getLsbD 1 then 0 else s.txLen.toNat / 256 % 256 := by
  unfold fencLen1 ctrlLegacyLen8
  split <;> simp

/-- The payload has TX_LEN bytes (rule R110). -/
@[simp] theorem fencPayload_length (s : State) : (fencPayload s).length = s.txLen.toNat := by simp [fencPayload]

/-- The checksum covers type code, length field and payload: TX_LEN and 4 bytes more (rule R110). -/
@[simp] theorem fencBody_length (s : State) : (fencBody s).length = 4 + s.txLen.toNat := by
  simp [fencBody]
  omega

/-- The six bytes before the payload: the marker bytes, the type code and the length field. -/
def fencHeader (s : State) : List Byte :=
  [s.params.sync1, s.params.sync2, fencType0 s, fencType1 s, fencLen0 s, fencLen1 s]

/-- The frame is its header, the payload and the checksum. -/
theorem fencFrame_eq (s : State) : fencFrame s = fencHeader s ++ (fencPayload s ++ [(fencCk s).1, (fencCk s).2]) := by
  simp [fencFrame, fencBody, fencHeader]

/-- The frame is 8 bytes longer than its payload. -/
theorem fencFrame_length (s : State) : (fencFrame s).length = 8 + s.txLen.toNat := by
  simp [fencFrame]
  omega

/-- Bytes 0 to 5 of the frame are its header. -/
theorem fencFrame_header {s : State} {i : Nat} (h : i < 6) : (fencFrame s)[i]? = (fencHeader s)[i]? := by
  rw [fencFrame_eq, List.getElem?_append_left h]

/-- What follows the header is read at its own offset. -/
theorem fencFrame_afterHeader (s : State) (i : Nat) :
    (fencFrame s)[6 + i]? = (fencPayload s ++ [(fencCk s).1, (fencCk s).2])[i]? := by
  rw [fencFrame_eq, List.getElem?_append_right (Nat.le_add_right 6 i)]
  exact congrArg _ (Nat.add_sub_cancel_left 6 i)

/-- The payload stands from byte 6 on. -/
theorem fencFrame_payload {s : State} {i : Nat} (h : i < s.txLen.toNat) :
    (fencFrame s)[6 + i]? = some (s.txByteAt i) := by
  rw [fencFrame_afterHeader, List.getElem?_append_left (by simpa using h)]
  simp [fencPayload, sliceBytes, h]

/-- The checksum stands behind the payload. -/
theorem fencFrame_checksum (s : State) :
    (fencFrame s)[6 + s.txLen.toNat]? = some (fencCk s).1 ∧ (fencFrame s)[7 + s.txLen.toNat]? = some (fencCk s).2 := by
  rw [show 7 + s.txLen.toNat = 6 + (s.txLen.toNat + 1) by omega]
  simp [fencFrame_afterHeader]

/-- The checksum is over everything between the marker bytes and itself. -/
theorem fencCk_eq (s : State) : fencCk s = cksum (((fencFrame s).drop 2).take (4 + s.txLen.toNat)) := by
  have hbody : (fencFrame s).drop 2 = fencBody s ++ [(fencCk s).1, (fencCk s).2] := by simp [fencFrame]
  rw [hbody, List.take_left' (fencBody_length s), fencCk]

end Sys2Proof.Machine

namespace Sys2Proof
open Machine

/-- Settles O21: the frame is header, payload and checksum, and each offset lies in one of the three. -/
theorem fencBuildEmitsTheFrameLayout : Obligations.FencBuildEmitsTheFrameLayout := by
  intro s hfits
  obtain ⟨hckA, hckB⟩ := fencFrame_checksum s
  exact ⟨fencFrame s, (fencCk s).1, (fencCk s).2, exec_fencBuild_fits hfits, fencFrame_length s,
    fencFrame_header (by decide), fencFrame_header (by decide), fencFrame_header (by decide),
    fencFrame_header (by decide), ⟨fencLen0 s, fencFrame_header (by decide), fencLen0_toNat s⟩,
    ⟨fencLen1 s, fencFrame_header (by decide), fencLen1_toNat s⟩, fun i hi => fencFrame_payload hi, hckA, hckB,
    fencCk_eq s⟩

end Sys2Proof
end

section
/-! The outcomes of BFX_EXTRACT (40_bitfield_extractor.md rules R90 and R91). -/
namespace Sys2Proof.Machine

/-- Only TX has a length that can pass its storage (rule R91 (a)). -/
theorem srcTooLong_iff (src : Src) (s : State) :
    srcTooLong src s = true ↔ src = .tx ∧ s.params.txBufBytes < s.txLen.toNat := by
  cases src <;> simp [srcTooLong, txLenTooLong]

/-- The range check fails on one of its three conditions (rule R91). -/
theorem bfxOutOfRange_iff (src : Src) (s : State) :
    bfxOutOfRange src s = true ↔
      (src = .tx ∧ s.params.txBufBytes < s.txLen.toNat) ∨ 32 < s.bfxLen.toNat ∨
        8 * srcLen src s < s.bfxOff.toNat + s.bfxLen.toNat := by
  simp only [bfxOutOfRange, Bool.or_eq_true, decide_eq_true_eq, srcTooLong_iff, or_assoc]
  rfl

/-- BFX_EXTRACT of a field the range check rejects (rule R91). -/
theorem exec_bfxExtract_outOfRange {src : Src} {s : State} (h : bfxOutOfRange src s = true) :
    exec (.bfxExtract src) s = .next (s.setCmdErr .outOfRange) := by
  simp only [exec, execBfxExtract, h, commandError, ↓reduceIte]

/-- BFX_EXTRACT of a field the range check accepts (rule R90). -/
theorem exec_bfxExtract_inRange {src : Src} {s : State} (h : ¬ bfxOutOfRange src s = true) :
    exec (.bfxExtract src) s =
      .next ((s.setBfxRes (extractField (srcByte src s) s.bfxOff.toNat s.bfxLen.toNat)).setCmdErr .ok) := by
  simp only [exec, execBfxExtract, h, commandOk, bfxOffset, bfxLength, Bool.false_eq_true, ↓reduceIte]

end Sys2Proof.Machine

namespace Sys2Proof
open Machine

/-- Settles O18, by the two outcomes of BFX_EXTRACT. -/
theorem bfxExtractRangeCheck : Obligations.BfxExtractRangeCheck := by
  intro src s
  rw [← bfxOutOfRange_iff]
  exact ⟨exec_bfxExtract_outOfRange, fun h => ⟨_, exec_bfxExtract_inRange h⟩⟩

end Sys2Proof
end

section
/-! The closed form of an extraction (40_bitfield_extractor.md rule R92), read off the buffer's first bytes. -/
namespace Sys2Proof.Machine

/-- Fewer leading bits make the number more of them make, with its last bits dropped. -/
theorem bitPrefix_add_div (rd : Nat → Byte) (p k : Nat) : bitPrefix rd (p + k) / 2 ^ k = bitPrefix rd p := by
  induction k with
  | zero => simp
  | succ k ih =>
    have hlast : bitPrefix rd (p + (k + 1)) / 2 = bitPrefix rd (p + k) := by
      have hbit := Bool.toNat_le (bufBit rd (p + k))
      rw [← Nat.add_assoc, bitPrefix]
      omega
    rw [Nat.pow_succ', ← Nat.div_div_eq_div_mul, hlast, ih]

/-- The bytes `f` to `l` continue the number of the first `f` bytes. -/
theorem bytePrefix_eq_sum (rd : Nat → Byte) {f l : Nat} (h : f ≤ l) :
    bytePrefix rd (l + 1) =
      bytePrefix rd f * 256 ^ (l + 1 - f) + ∑ k ∈ Finset.Icc f l, (rd k).toNat * 256 ^ (l - k) := by
  induction l, h using Nat.le_induction with
  | base => simp [bytePrefix, Nat.mul_comm]
  | succ l hfl ih =>
    have hshift : ∑ k ∈ Finset.Icc f l, (rd k).toNat * 256 ^ (l + 1 - k) =
        256 * ∑ k ∈ Finset.Icc f l, (rd k).toNat * 256 ^ (l - k) := by
      rw [Finset.mul_sum]
      refine Finset.sum_congr rfl fun k hk => ?_
      rw [Nat.succ_sub (Finset.mem_Icc.1 hk).2, Nat.pow_succ]
      ring
    rw [bytePrefix, ih, Finset.sum_Icc_succ_top (by omega), hshift, Nat.succ_sub (by omega : f ≤ l + 1), Nat.pow_succ]
    simp
    ring

/-- A field cut out of a number does not see what stands above it. -/
theorem add_div_mod_of_dvd {q k n : Nat} (h : 2 ^ (k + n) ∣ q) (a : Nat) :
    (q + a) / 2 ^ k % 2 ^ n = a / 2 ^ k % 2 ^ n := by
  obtain ⟨c, rfl⟩ := h
  rw [Nat.pow_add, Nat.mul_assoc, Nat.mul_add_div (Nat.two_pow_pos k), Nat.mul_add_mod]

/-- The closed form of a nonempty extraction (rule R92): the bytes it touches as one big-endian number, shifted and cut. -/
theorem extractField_closedForm (rd : Nat → Byte) {o n : Nat} (hpos : 1 ≤ n) (hn : n ≤ 32) :
    (extractField rd o n).toNat =
      (∑ k ∈ Finset.Icc (o / 8) ((o + n - 1) / 8), (rd k).toNat * 256 ^ ((o + n - 1) / 8 - k)) /
        2 ^ (7 - (o + n - 1) % 8) % 2 ^ n := by
  have hend : o + n + (7 - (o + n - 1) % 8) = 8 * ((o + n - 1) / 8 + 1) := by omega
  have hfl : o / 8 ≤ (o + n - 1) / 8 := by omega
  have habove : 2 ^ (7 - (o + n - 1) % 8 + n) ∣ bytePrefix rd (o / 8) * 256 ^ ((o + n - 1) / 8 + 1 - o / 8) := by
    rw [show 256 = 2 ^ 8 by rfl, ← Nat.pow_mul]
    exact (Nat.pow_dvd_pow 2 (by omega)).mul_left _
  rw [extractField_toNat rd o n hn, ← bitPrefix_add_div rd (o + n) (7 - (o + n - 1) % 8), hend, bitPrefix_bytes,
    bytePrefix_eq_sum rd hfl, add_div_mod_of_dvd habove]

end Sys2Proof.Machine

namespace Sys2Proof
open Machine

/-- Settles O17: the field is the end of the bits up to its last one, which the bytes up to there determine. -/
theorem bfxExtractReturnsTheClosedForm : Obligations.BfxExtractReturnsTheClosedForm := by
  intro src s htx hlen hfit
  have hin : ¬ bfxOutOfRange src s = true := by
    rw [bfxOutOfRange_iff]
    rintro (⟨hsrc, hlong⟩ | hlong | hpast)
    · exact absurd (htx hsrc) (by omega)
    · omega
    · omega
  refine ⟨_, exec_bfxExtract_inRange hin, fun hzero => ?_, fun hpos => ⟨by omega, extractField_closedForm _ hpos hlen⟩⟩
  rw [hzero]
  rfl

end Sys2Proof
end

section
/-! Extractions of whole bytes, and a word stored little-endian (40_bitfield_extractor.md rule R95). -/
namespace Sys2Proof.Machine

/-- An extraction of whole bytes is the number of the bytes up to its end, cut to its length. -/
theorem extractField_bytes_toNat (rd : Nat → Byte) (m : Nat) {c : Nat} (hc : c ≤ 4) :
    (extractField rd (8 * m) (8 * c)).toNat = bytePrefix rd (m + c) % 2 ^ (8 * c) := by
  rw [extractField_toNat rd _ _ (by omega), ← Nat.mul_add, bitPrefix_bytes]

/-- Eight bits at a byte boundary are that byte. -/
theorem extractField_byte (rd : Nat → Byte) (m : Nat) : (extractField rd (8 * m) 8).toNat = (rd m).toNat := by
  have hbyte := (rd m).isLt
  rw [extractField_bytes_toNat rd m (c := 1) (by decide), bytePrefix]
  omega

/-- Sixteen bits at a byte boundary are two bytes, big-endian. -/
theorem extractField_half (rd : Nat → Byte) (m : Nat) :
    (extractField rd (8 * m) 16).toNat = (rd m).toNat * 256 + (rd (m + 1)).toNat := by
  have hhi := (rd m).isLt
  have hlo := (rd (m + 1)).isLt
  rw [extractField_bytes_toNat rd m (c := 2) (by decide), bytePrefix, bytePrefix]
  omega

/-- A byte appended at the low end, as a number. -/
theorem toNat_append_byte {n : Nat} (hi : BitVec n) (lo : Byte) : (hi ++ lo).toNat = hi.toNat * 256 + lo.toNat := by
  rw [BitVec.toNat_append, ← Nat.shiftLeft_add_eq_or_of_lt lo.isLt, Nat.shiftLeft_eq]

/-- Four bytes side by side, as a number. -/
theorem toNat_append_bytes (a b c d : Byte) :
    (a ++ b ++ c ++ d).toNat = ((a.toNat * 256 + b.toNat) * 256 + c.toNat) * 256 + d.toNat := by
  rw [toNat_append_byte, toNat_append_byte, toNat_append_byte]

/-- Thirty-two bits at a byte boundary are four bytes, the first one highest. -/
theorem extractField_word (rd : Nat → Byte) (m : Nat) :
    extractField rd (8 * m) 32 = rd m ++ rd (m + 1) ++ rd (m + 2) ++ rd (m + 3) := by
  have h0 := (rd m).isLt
  have h1 := (rd (m + 1)).isLt
  have h2 := (rd (m + 2)).isLt
  have h3 := (rd (m + 3)).isLt
  apply BitVec.eq_of_toNat_eq
  rw [toNat_append_bytes, extractField_bytes_toNat rd m (c := 4) (by decide), bytePrefix, bytePrefix, bytePrefix,
    bytePrefix]
  omega

/-- Byte `j` of a word, as a number. -/
theorem toNat_wordByte (x : Word) (j : Nat) : (x.extractLsb' (8 * j) 8).toNat = x.toNat / 256 ^ j % 256 := by
  rw [BitVec.extractLsb'_toNat, Nat.shiftRight_eq_div_pow, Nat.pow_mul]

/-- A word is its four bytes, highest first. -/
theorem word_eq_bytes (x : Word) :
    x = x.extractLsb' 24 8 ++ x.extractLsb' 16 8 ++ x.extractLsb' 8 8 ++ x.extractLsb' 0 8 := by
  have hx := x.isLt
  apply BitVec.eq_of_toNat_eq
  rw [toNat_append_bytes, toNat_wordByte x 3, toNat_wordByte x 2, toNat_wordByte x 1, toNat_wordByte x 0]
  omega

/-- Four bytes side by side determine each of them. -/
theorem append_bytes_inj {a b c d a' b' c' d' : Byte} :
    a ++ b ++ c ++ d = a' ++ b' ++ c' ++ d' ↔ a = a' ∧ b = b' ∧ c = c' ∧ d = d' := by
  simp only [← BitVec.toNat_inj, toNat_append_bytes]
  omega

/-- A word reads the same byte-reversed exactly when its bytes pair up (rule R95). -/
theorem byteReversed_eq_iff (x : Word) :
    x.extractLsb' 0 8 ++ x.extractLsb' 8 8 ++ x.extractLsb' 16 8 ++ x.extractLsb' 24 8 = x ↔
      x.extractLsb' 0 8 = x.extractLsb' 24 8 ∧ x.extractLsb' 8 8 = x.extractLsb' 16 8 := by
  conv_lhs => rhs; rw [word_eq_bytes x]
  rw [append_bytes_inj]
  tauto

/-- A word is the sum of its bytes by weight. -/
theorem toNat_eq_sum_bytes (x : Word) : x.toNat = ∑ j ∈ Finset.range 4, x.toNat / 256 ^ j % 256 * 256 ^ j := by
  have hx := x.isLt
  simp only [Finset.sum_range_succ, Finset.sum_range_zero]
  omega

end Sys2Proof.Machine

namespace Sys2Proof
open Machine

/-- Settles O20: an extraction of whole bytes is big-endian, whatever order they were stored in. -/
theorem littleEndianRoundTripIsByteWise : Obligations.LittleEndianRoundTripIsByteWise := by
  intro rd k x hstored
  have hbyte : ∀ j < 4, rd (k + j) = x.extractLsb' (8 * j) 8 := fun j hj =>
    BitVec.eq_of_toNat_eq ((hstored j hj).trans (toNat_wordByte x j).symm)
  have hword : extractField rd (8 * k) 32 =
      x.extractLsb' 0 8 ++ x.extractLsb' 8 8 ++ x.extractLsb' 16 8 ++ x.extractLsb' 24 8 := by
    rw [extractField_word, hbyte 1 (by decide), hbyte 2 (by decide), hbyte 3 (by decide), ← hbyte 0 (by decide)]
    rfl
  have hread : ∀ j < 4, (extractField rd (8 * (k + j)) 8).toNat = x.toNat / 256 ^ j % 256 := fun j hj =>
    (extractField_byte rd (k + j)).trans (hstored j hj)
  refine ⟨hword, hword ▸ byteReversed_eq_iff x, hread, (toNat_eq_sum_bytes x).trans ?_⟩
  exact Finset.sum_congr rfl fun j hj => by rw [hread j (Finset.mem_range.1 hj)]

end Sys2Proof
end

section
/-! SYNC's reads of a message header (43_stream_sync.md rules R124 and R125), as extractions from RX_BUF
(40_bitfield_extractor.md rule R94). -/
namespace Sys2Proof.Machine

/-- A byte that arrives in a read state with room for it is stored, then acted on (43_stream_sync.md rule R123). -/
theorem exec_rxByte_stored {b : Byte} {s : State} {st : ReadState} (hst : s.syncState.readState? = some st)
    (hroom : s.rxCount.toNat < rxBufBytes s.params) :
    exec (.rxByte b) s = .next (byteAction st s.rxCount.toNat b (s.consumeEvent.storeRx b)) := by
  simp only [exec, execRxByte, hst, hroom, ↓reduceIte]

/-- RX_BUF has room for a header, whatever the parameters (00_scope.md rule R6). -/
theorem lt_rxBufBytes_of_lt {n : Nat} (h : n < 6) (p : Params) : n < rxBufBytes p :=
  Nat.lt_of_lt_of_le h (Nat.le_add_right 6 _)

/-- Acting on a stored byte changes no byte of RX_BUF. -/
theorem byteAction_rxByteAt (st : ReadState) (k : Nat) (b : Byte) (s : State) (i : Nat) :
    (byteAction st k b s).rxByteAt i = s.rxByteAt i := by
  rw [byteAction_frame]
  rfl

/-- Summing a byte changes no byte of RX_BUF. -/
@[simp] theorem rxCk_rxByteAt (s : State) (b : Byte) (i : Nat) : (s.rxCk b).rxByteAt i = s.rxByteAt i := rfl

/-- A first byte opens the message exactly when it is the marker (rule R124). -/
theorem markerAction_readingLength_iff {b : Byte} {s : State} :
    (markerAction b s).syncState = .readingLength ↔ b = s.params.rxMarker := by
  unfold markerAction
  split_ifs with h <;> simpa using h

/-- The length check lets exactly the accepted lengths through (rule R127). -/
theorem lengthCheck_readingBody_iff {n : Nat} {s : State} :
    (lengthCheck n s).syncState = .readingBody ↔ 1 ≤ n ∧ n < s.params.maxPayload := by
  unfold lengthCheck
  split_ifs <;> simp <;> omega

/-- The byte that completes the header leaves the number of bytes 1 and 2 in RX_LEN (rule R125). -/
theorem lengthAction_two_rxLen (b : Byte) (s : State) :
    (lengthAction 2 b s).rxLen.toNat = (s.rxByteAt 1).toNat * 256 + (s.rxByteAt 2).toNat := by
  rw [← toNat_append_byte]
  simp [lengthAction, State.loadRxLen]

/-- The byte that completes the header is followed by the body exactly when RX_LEN is an accepted length. -/
theorem lengthAction_two_readingBody_iff {b : Byte} {s : State} :
    (lengthAction 2 b s).syncState = .readingBody ↔
      1 ≤ (lengthAction 2 b s).rxLen.toNat ∧ (lengthAction 2 b s).rxLen.toNat < s.params.maxPayload := by
  simp [lengthAction, lengthCheck_readingBody_iff]

end Sys2Proof.Machine

namespace Sys2Proof
open Machine

/-- Settles O19: the header's bytes are whole-byte extractions, and each action of SYNC tests the bytes it has just
stored. -/
theorem syncHeaderReadsAreBfxFields : Obligations.SyncHeaderReadsAreBfxFields := by
  refine ⟨fun rd => extractField_byte rd 0, fun rd => extractField_half rd 1, fun s b hs hk => ?_,
    fun s b hs hk => ?_, fun i s t hi h =>
      (commandOutputs_eq_iff.1 (exec_event_receiveSide hi h).commandOutputs_eq).1⟩
  · refine ⟨_, exec_rxByte_stored (st := .awaitingMarker) (by rw [hs]; rfl)
      (lt_rxBufBytes_of_lt (by rw [hk]; decide) _), ?_⟩
    rw [extractField_byte _ 0, byteAction_rxByteAt, rxByteAt_storeRx, BitVec.toNat_inj]
    simp [byteAction, markerAction_readingLength_iff, hk]
  · have hcount : s.rxCount.toNat = 2 := by rw [hk]; rfl
    refine ⟨_, exec_rxByte_stored (st := .readingLength) (by rw [hs]; rfl)
      (lt_rxBufBytes_of_lt (by omega) _), ?_⟩
    rw [extractField_half _ 1, byteAction_rxByteAt, byteAction_rxByteAt, hcount, byteAction,
      ← lengthAction_two_rxLen b]
    exact ⟨rfl, lengthAction_two_readingBody_iff⟩

end Sys2Proof
end

section
/-! The running checksum (41_checksum.md rules R101 and R103): its closed form, and how a change of the start state
carries through the bytes that follow. -/
namespace Sys2Proof.Machine
open Finset (range)

/-- The closed form of rule R101: each byte is added to checkA once, and to checkB once for every byte from it on. -/
theorem foldl_ckStep_toNat (l : List Byte) (c : Byte × Byte) :
    (l.foldl ckStep c).1.toNat = (c.1.toNat + ∑ i ∈ range l.length, (l.getD i 0).toNat) % 256 ∧
    (l.foldl ckStep c).2.toNat = (c.2.toNat + l.length * c.1.toNat +
      ∑ i ∈ range l.length, (l.length - i) * (l.getD i 0).toNat) % 256 := by
  induction l generalizing c with
  | nil => simp [Nat.mod_eq_of_lt c.1.isLt, Nat.mod_eq_of_lt c.2.isLt]
  | cons x l ih =>
    obtain ⟨hA, hB⟩ := ih (ckStep c x)
    obtain ⟨hstepA, hstepB⟩ := ckStep_toNat c x
    simp only [List.foldl_cons, List.length_cons, Finset.sum_range_succ', List.getD_cons_succ, List.getD_cons_zero,
      Nat.add_sub_add_right, Nat.sub_zero]
    constructor
    · rw [hA, hstepA, Nat.mod_add_mod]
      congr 1
      ring
    · have hwrap : (c.1.toNat + x.toNat) % 256 ≡ c.1.toNat + x.toNat [MOD 256] := Nat.mod_modEq _ _
      rw [hB, hstepA, hstepB]
      refine ((((Nat.mod_modEq _ _).trans (hwrap.add_left _)).add (hwrap.mul_left _)).add_right _).trans ?_
      exact congrArg (· % 256) (by ring)

/-- The closed form from the cleared accumulator. -/
theorem cksum_toNat (l : List Byte) :
    (cksum l).1.toNat = (∑ i ∈ range l.length, (l.getD i 0).toNat) % 256 ∧
    (cksum l).2.toNat = (∑ i ∈ range l.length, (l.length - i) * (l.getD i 0).toNat) % 256 := by
  simpa [cksum] using foldl_ckStep_toNat l (0, 0)

/-- A checksum over more bytes continues the fold (rule R103 (c)). -/
theorem cksum_append (l m : List Byte) : cksum (l ++ m) = m.foldl ckStep (cksum l) := List.foldl_append

/-- A count held in a byte, one higher. -/
theorem byte_ofNat_succ (n : Nat) : BitVec.ofNat 8 (n + 1) = BitVec.ofNat 8 n + 1 := BitVec.ofNat_add n 1

/-- A step is linear: what changes in the start state and in the byte is itself summed as a step. -/
theorem ckStep_add (c d : Byte × Byte) (x y : Byte) : ckStep (c + d) y = ckStep c x + ckStep d (y - x) := by
  apply Prod.ext <;> simp only [ckStep, Prod.fst_add, Prod.snd_add] <;> ring

/-- The fold is linear in its start state: a change of checkA reaches checkB once for every byte that follows. -/
theorem foldl_ckStep_add (l : List Byte) (c d : Byte × Byte) :
    l.foldl ckStep (c + d) = l.foldl ckStep c + (d.1, d.2 + BitVec.ofNat 8 l.length * d.1) := by
  induction l generalizing c d with
  | nil => simp
  | cons x l ih =>
    have hstep : ckStep (c + d) x = ckStep c x + (d.1, d.2 + d.1) := by simpa [ckStep] using ckStep_add c d x x
    rw [List.foldl_cons, List.foldl_cons, hstep, ih, List.length_cons, byte_ofNat_succ]
    congr 2
    ring

/-- Zeros keep checkA and add it to checkB once each (rule R103 (e)). -/
theorem foldl_ckStep_zeros (k : Nat) (c : Byte × Byte) :
    (List.replicate k 0).foldl ckStep c = (c.1, c.2 + BitVec.ofNat 8 k * c.1) := by
  induction k generalizing c with
  | zero => simp
  | succ k ih =>
    rw [List.replicate_succ, List.foldl_cons, ih, byte_ofNat_succ]
    apply Prod.ext <;> simp only [ckStep] <;> ring

/-- Two bytes exchanged change checkB by their difference, once for each place from the one to the other (rule R103 (f)). -/
theorem cksum_swap (l m n : List Byte) (x y : Byte) :
    cksum (l ++ [y] ++ m ++ [x] ++ n) =
      cksum (l ++ [x] ++ m ++ [y] ++ n) + (0, BitVec.ofNat 8 (m.length + 1) * (y - x)) := by
  have hfirst (c : Byte × Byte) : ckStep c y = ckStep c x + (y - x, y - x) := by
    simpa [ckStep] using ckStep_add c 0 x y
  have hsecond (c : Byte × Byte) (e : Byte) : ckStep (c + (y - x, e)) x = ckStep c y + (0, e) := by
    simpa [ckStep] using ckStep_add c (y - x, e) y x
  simp only [cksum_append, List.foldl_cons, List.foldl_nil]
  rw [hfirst, foldl_ckStep_add, hsecond, foldl_ckStep_add, byte_ofNat_succ]
  congr 2
  ring

/-- One byte repeated: the `i`-th copy adds `i` times the byte to checkB. -/
theorem cksum_replicate (k : Nat) (x : Byte) :
    cksum (List.replicate k x) = (BitVec.ofNat 8 k * x, BitVec.ofNat 8 (∑ i ∈ range (k + 1), i) * x) := by
  induction k with
  | zero => simp
  | succ k ih =>
    rw [List.replicate_succ', cksum_concat, ih, Finset.sum_range_succ _ (k + 1), BitVec.ofNat_add _ (k + 1),
      byte_ofNat_succ]
    apply Prod.ext <;> simp only [ckStep] <;> ring

end Sys2Proof.Machine

namespace Sys2Proof
open Machine

/-- Settles O13: the closed form of the fold, by induction on the bytes. -/
theorem checksumIsTheWeightedSum : Obligations.ChecksumIsTheWeightedSum :=
  fun l a b => foldl_ckStep_toNat l (a, b)

/-- Settles O14: appended zeros and a swap act on checkB alone, so each is undetected exactly when what it adds there
is 0. -/
theorem checksumProperties : Obligations.ChecksumProperties := by
  refine ⟨rfl, fun _ _ h => congrArg cksum h, cksum_append, ⟨rfl, rfl⟩, fun l k => ?zeros, fun l m n x y => ?swap, ?ff⟩
  case zeros =>
    have hzeros := (cksum_append l (List.replicate k 0)).trans (foldl_ckStep_zeros k _)
    refine ⟨hzeros, ?_⟩
    rw [hzeros]
    simp [Prod.ext_iff, ← BitVec.toNat_inj]
  case swap =>
    rw [cksum_swap]
    simp [Prod.ext_iff]
  case ff =>
    rw [cksum_replicate, Finset.sum_range_id]
    rfl

end Sys2Proof
end

section
/-! The commands of CKA (41_checksum.md rules R100, R102 and R104) and their words. -/
namespace Sys2Proof.Machine

/-- A word with the opcode of a row and outside that row is illegal: no two rows share an opcode (30_encoding.md rules
R72 and R77). -/
theorem decodeCmd_error_of_opcode {w : Word} {r : Word × Word} (hr : r ∈ commandRows)
    (hop : w.toNat % 256 = r.2.toNat % 256) (hw : w &&& r.1 ≠ r.2) : ∃ e, decodeCmd w = .error e := by
  have opcodesDiffer : (commandRows.map fun q => q.2.toNat % 256).Nodup := by decide
  refine (decodeCmd_error_iff w).2 fun q hq hwq => hw ?_
  rwa [List.inj_on_of_nodup_map opcodesDiffer hr hq (hop.symm.trans (opcode_of_commandRow hq hwq))]

/-- The range check of CK_RANGE fails on one of its two conditions (rule R104). -/
theorem ckRangeOutOfRange_iff (src : Src) (s : State) :
    ckRangeOutOfRange src s = true ↔
      (src = .tx ∧ s.params.txBufBytes < s.txLen.toNat) ∨
        (s.ckStart.toNat < s.ckEnd.toNat ∧ srcLen src s < s.ckEnd.toNat) := by
  simp only [ckRangeOutOfRange, Bool.or_eq_true, Bool.and_eq_true, decide_eq_true_eq, srcTooLong_iff]

/-- CK_RANGE of a range the check rejects (rule R104). -/
theorem exec_ckRange_outOfRange {src : Src} {s : State} (h : ckRangeOutOfRange src s = true) :
    exec (.ckRange src) s = .next (s.setCmdErr .outOfRange) := by
  simp only [exec, execCkRange, h, commandError, ↓reduceIte]

/-- CK_RANGE of a range the check accepts (rule R104). -/
theorem exec_ckRange_inRange {src : Src} {s : State} (h : ¬ ckRangeOutOfRange src s = true) :
    exec (.ckRange src) s = .next ((s.setCk (cksum (ckRangeBytes src s))).setCmdErr .ok) := by
  simp only [exec, execCkRange, h, commandOk, Bool.false_eq_true, ↓reduceIte]

/-- The checksum of a slice in closed form: its element `i` is the byte at `first + i` (rule R101). -/
theorem cksum_sliceBytes_toNat (rd : Nat → Byte) (first last : Nat) :
    (cksum (sliceBytes rd first last)).1.toNat =
      (∑ i ∈ Finset.range (last - first), (rd (first + i)).toNat) % 256 ∧
    (cksum (sliceBytes rd first last)).2.toNat =
      (∑ i ∈ Finset.range (last - first), (last - first - i) * (rd (first + i)).toNat) % 256 := by
  have helem : ∀ i ∈ Finset.range (last - first), (sliceBytes rd first last).getD i 0 = rd (first + i) := by
    intro i hi
    have hlen : i < (sliceBytes rd first last).length := by simpa using hi
    rw [List.getD_eq_getElem _ _ hlen, sliceBytes_getElem]
  obtain ⟨hA, hB⟩ := cksum_toNat (sliceBytes rd first last)
  rw [sliceBytes_length] at hA hB
  rw [hA, hB]
  constructor <;> congr 1 <;> exact Finset.sum_congr rfl fun i hi => by rw [helem i hi]

end Sys2Proof.Machine

namespace Sys2Proof
open Machine

/-- Settles O11: the one word of opcode 2 that is legal is CK_CLEAR's. -/
theorem ckClearZeroesTheAccumulator : Obligations.CkClearZeroesTheAccumulator := by
  refine ⟨fun s => rfl, fun w => ?_, fun w s hne hop => ?_⟩
  · obtain ⟨-, -, hclear, -⟩ := commandDecodesExactlyByTheTable w
    exact hclear
  · obtain ⟨e, he⟩ := decodeCmd_error_of_opcode (r := (0xFFFFFFFF, 2)) (by decide) hop
      (fun h => hne (word_of_full_mask h))
    exact commandStep_illegal he s

/-- Settles O12: CK_BYTE is one step of the fold, from the accumulator as it stands. -/
theorem ckByteAddsOneByte : Obligations.CkByteAddsOneByte := by
  refine ⟨fun x s => ?_, fun w x => ?_⟩
  · obtain ⟨hA, hB⟩ := ckStep_toNat (s.ckA, s.ckB) x
    exact ⟨_, _, hA, hA ▸ hB, rfl⟩
  · obtain ⟨-, -, -, hbyte, -⟩ := commandDecodesExactlyByTheTable w
    exact hbyte x

/-- Settles O15, by the two outcomes of CK_RANGE and the closed form over its slice. -/
theorem ckRangeFollowsItsRule : Obligations.CkRangeFollowsItsRule := by
  refine ⟨fun src s h => ?_, fun src s hfits hend => ?_, fun w src => ?_⟩
  · exact exec_ckRange_outOfRange ((ckRangeOutOfRange_iff src s).2 h)
  · have hin : ¬ ckRangeOutOfRange src s = true := by
      rw [ckRangeOutOfRange_iff]
      rintro (⟨hsrc, hlen⟩ | ⟨hrange, hpast⟩)
      · exact absurd (hfits hsrc) (Nat.not_le.2 hlen)
      · exact absurd (hend hrange) (Nat.not_le.2 hpast)
    obtain ⟨hA, hB⟩ := cksum_sliceBytes_toNat (srcByte src s) s.ckStart.toNat s.ckEnd.toNat
    exact ⟨_, _, hA, hB, exec_ckRange_inRange hin⟩
  · obtain ⟨-, -, -, -, hrange, -⟩ := commandDecodesExactlyByTheTable w
    exact hrange src

end Sys2Proof
end

section
/-! The length field of an emitted frame (42_frame_encoder.md rules R111 and R112). -/
namespace Sys2Proof.Machine

/-- FENC_BUILD of a TX_LEN past the storage (rule R111). -/
theorem exec_fencBuild_tooLong {s : State} (h : s.params.txBufBytes < s.txLen.toNat) :
    exec .fencBuild s = .next (s.setCmdErr .outOfRange) := by
  have hlong : txLenTooLong s = true := by simpa [txLenTooLong] using h
  simp only [exec, execFencBuild, hlong, commandError, ↓reduceIte]

/-- The state in which an accepted FENC_BUILD ends (rules R110 and R113). -/
def fencBuilt (s : State) : State := ((s.emit (fencFrame s)).setCk (fencCk s)).setCmdErr .ok

/-- FENC_BUILD of a TX_LEN within the storage ends in `fencBuilt` (rule R111). -/
theorem exec_fencBuild_eq_fencBuilt {s : State} (h : s.txLen.toNat ≤ s.params.txBufBytes) :
    exec .fencBuild s = .next (fencBuilt s) :=
  exec_fencBuild_fits h

/-- TXOUT after the build is TXOUT before it, then the frame (rule R113). -/
@[simp] theorem fencBuilt_txout (s : State) : (fencBuilt s).txout = s.txout ++ fencFrame s := rfl

/-- CK after the build is the frame's checksum (rule R110). -/
@[simp] theorem fencBuilt_ck (s : State) : ((fencBuilt s).ckA, (fencBuilt s).ckB) = fencCk s := rfl

/-- The frame is read in TXOUT from where TXOUT ended before the build. -/
theorem fencBuilt_txout_getElem? (s : State) (i : Nat) :
    (fencBuilt s).txout[s.txout.length + i]? = (fencFrame s)[i]? := by
  rw [fencBuilt_txout, List.getElem?_append_right (Nat.le_add_right _ i), Nat.add_sub_cancel_left]

/-- LEN0 is emitted at offset 4 (rule R112). -/
theorem fencBuilt_txout_len0 (s : State) : (fencBuilt s).txout[s.txout.length + 4]? = some (fencLen0 s) :=
  (fencBuilt_txout_getElem? s 4).trans (fencFrame_header (by decide))

/-- LEN1 is emitted at offset 5 (rule R112). -/
theorem fencBuilt_txout_len1 (s : State) : (fencBuilt s).txout[s.txout.length + 5]? = some (fencLen1 s) :=
  (fencBuilt_txout_getElem? s 5).trans (fencFrame_header (by decide))

/-- CK is the checksum of the bytes emitted between the marker bytes and the checksum, in either mode (rule R112). -/
theorem fencBuilt_ck_of_emitted (s : State) :
    ((fencBuilt s).ckA, (fencBuilt s).ckB) =
      cksum (((fencBuilt s).txout.drop (s.txout.length + 2)).take (4 + s.txLen.toNat)) := by
  rw [fencBuilt_ck, fencBuilt_txout, ← List.drop_drop, List.drop_left, ← fencCk_eq]

/-- An accepted payload of a legal block is shorter than 65536 bytes (rules R6 and R111). -/
theorem txLen_lt_of_fits {s : State} (hlegal : s.params.Legal) (hfits : s.txLen.toNat ≤ s.params.txBufBytes) :
    s.txLen.toNat < 65536 := by
  obtain ⟨-, -, hstorage⟩ := hlegal
  omega

/-- LEN1 in the corrected mode (rule R112). -/
theorem fencLen1_corrected {s : State} (h : s.ctrl.getLsbD 1 = false) :
    (fencLen1 s).toNat = s.txLen.toNat / 256 % 256 := by
  simp only [fencLen1_toNat, h, Bool.false_eq_true, ↓reduceIte]

/-- LEN1 in the legacy mode (rule R112). -/
theorem fencLen1_legacy {s : State} (h : s.ctrl.getLsbD 1 = true) : fencLen1 s = 0 := if_pos h

/-- In the corrected mode the two length bytes hold the whole length of an accepted payload (rule R111). -/
theorem fencLen_corrected_toNat {s : State} (hlegal : s.params.Legal)
    (hfits : s.txLen.toNat ≤ s.params.txBufBytes) (hmode : s.ctrl.getLsbD 1 = false) :
    s.txLen.toNat = (fencLen0 s).toNat + 256 * (fencLen1 s).toNat := by
  have hlt := txLen_lt_of_fits hlegal hfits
  rw [fencLen0_toNat, fencLen1_corrected hmode]
  omega

/-- CTRL reaches the frame through LEN1 alone, and the checksum only through the body LEN1 stands in (rule R112). -/
theorem fencFrame_withCtrl_eq_iff (s : State) (c0 c1 : BitVec 2) :
    fencFrame { s with ctrl := c0 } = fencFrame { s with ctrl := c1 } ↔
      fencLen1 { s with ctrl := c0 } = fencLen1 { s with ctrl := c1 } := by
  constructor
  · intro hframe
    have hbyte : ∀ r : State, (fencFrame r)[5]? = some (fencLen1 r) := fun r => fencFrame_header (by decide)
    exact Option.some.inj (by rw [← hbyte, ← hbyte, hframe])
  · intro hlen1
    have hbody : fencBody { s with ctrl := c0 } = fencBody { s with ctrl := c1 } := by
      unfold fencBody
      rw [hlen1]
      rfl
    unfold fencFrame fencCk
    rw [hbody]

/-- LEN1 is the same in both modes exactly below 256 (rule R112). -/
theorem fencLen1_modes_eq_iff {s : State} {c0 c1 : BitVec 2} (hlt : s.txLen.toNat < 65536)
    (h0 : c0.getLsbD 1 = false) (h1 : c1.getLsbD 1 = true) :
    fencLen1 { s with ctrl := c0 } = fencLen1 { s with ctrl := c1 } ↔ s.txLen.toNat < 256 := by
  have hcorrected : (fencLen1 { s with ctrl := c0 }).toNat = s.txLen.toNat / 256 % 256 := fencLen1_corrected h0
  rw [fencLen1_legacy (s := { s with ctrl := c1 }) h1, ← BitVec.toNat_inj, hcorrected]
  change s.txLen.toNat / 256 % 256 = 0 ↔ s.txLen.toNat < 256
  omega

/-- The two modes emit the same bytes exactly below 256 (rule R112). -/
theorem fencBuilt_modes_txout_eq_iff {s : State} {c0 c1 : BitVec 2} (hlt : s.txLen.toNat < 65536)
    (h0 : c0.getLsbD 1 = false) (h1 : c1.getLsbD 1 = true) :
    (fencBuilt { s with ctrl := c0 }).txout = (fencBuilt { s with ctrl := c1 }).txout ↔ s.txLen.toNat < 256 := calc
  _ ↔ fencFrame { s with ctrl := c0 } = fencFrame { s with ctrl := c1 } := List.append_right_inj s.txout
  _ ↔ fencLen1 { s with ctrl := c0 } = fencLen1 { s with ctrl := c1 } := fencFrame_withCtrl_eq_iff s c0 c1
  _ ↔ s.txLen.toNat < 256 := fencLen1_modes_eq_iff hlt h0 h1

end Sys2Proof.Machine

namespace Sys2Proof
open Machine

/-- Settles O22: the range check rejects what is past the storage, and two length bytes hold whatever the storage
can. -/
theorem correctedModeNeverTruncatesALength : Obligations.CorrectedModeNeverTruncatesALength :=
  fun s hlegal => ⟨exec_fencBuild_tooLong, fun hfits hmode =>
    ⟨fencBuilt s, fencLen0 s, fencLen1 s, exec_fencBuild_eq_fencBuilt hfits, fencBuilt_txout_len0 s,
      fencBuilt_txout_len1 s, fencLen_corrected_toNat hlegal hfits hmode⟩⟩

/-- Settles O23: the two frames differ at most in LEN1 and what it adds to the checksum, and LEN1 is 0 in both modes
exactly below 256. -/
theorem legacyLengthDiffersFrom256On : Obligations.LegacyLengthDiffersFrom256On := by
  refine ⟨rfl, fun s c0 c1 hlegal hfits h0 h1 => ?_⟩
  have hlen1 := fencBuilt_txout_len1 { s with ctrl := c1 }
  rw [fencLen1_legacy h1] at hlen1
  exact ⟨fencBuilt { s with ctrl := c0 }, fencBuilt { s with ctrl := c1 }, fencLen0 s, fencLen1 { s with ctrl := c0 },
    exec_fencBuild_eq_fencBuilt hfits, exec_fencBuild_eq_fencBuilt hfits, fencLen0_toNat s, fencLen1_corrected h0,
    fencBuilt_txout_len0 { s with ctrl := c0 }, fencBuilt_txout_len1 { s with ctrl := c0 },
    fencBuilt_txout_len0 { s with ctrl := c1 }, hlen1,
    fencBuilt_modes_txout_eq_iff (txLen_lt_of_fits hlegal hfits) h0 h1,
    fencBuilt_ck_of_emitted { s with ctrl := c0 }, fencBuilt_ck_of_emitted { s with ctrl := c1 }⟩

end Sys2Proof
end

section
/-! A received byte (43_stream_sync.md rule R123): it is stored whatever its check then says, and RX_BUF has room for it
in every read state. -/
namespace Sys2Proof.Machine

/-- The read state SYNC is in, by name (00_scope.md rule R17). -/
theorem readState?_eq_some_iff (x : SyncState) (st : ReadState) :
    x.readState? = some st ↔ (st = .awaitingMarker ∧ x = .awaitingMarker) ∨
      (st = .readingLength ∧ x = .readingLength) ∨ (st = .readingBody ∧ x = .readingBody) := by
  cases x <;> cases st <;> simp [SyncState.readState?]

/-- Acting on a stored byte keeps RX_BUF. -/
@[simp] theorem byteAction_rxBuf (st : ReadState) (k : Nat) (b : Byte) (s : State) :
    (byteAction st k b s).rxBuf = s.rxBuf := by rw [byteAction_frame]

/-- Acting on a stored byte keeps RX_COUNT. -/
@[simp] theorem byteAction_rxCount (st : ReadState) (k : Nat) (b : Byte) (s : State) :
    (byteAction st k b s).rxCount = s.rxCount := by rw [byteAction_frame]

/-- Acting on a stored byte consumes no further event. -/
@[simp] theorem byteAction_rxin (st : ReadState) (k : Nat) (b : Byte) (s : State) :
    (byteAction st k b s).rxin = s.rxin := by rw [byteAction_frame]

/-- RX_COUNT does not wrap where RX_BUF has room for a byte (rule R123). -/
theorem toNat_rxCount_succ {s : State} (hroom : s.rxCount.toNat < rxBufBytes s.params) :
    (s.rxCount + 1).toNat = s.rxCount.toNat + 1 := by
  have hsize := rxBufBytes_le s.params
  have hfits : s.rxCount.toNat + (1 : Word).toNat < 2 ^ 32 := by
    change s.rxCount.toNat + 1 < 2 ^ 32
    omega
  exact BitVec.toNat_add_of_lt hfits

/-- An accepted length's whole message fits RX_BUF (00_scope.md rule R6). -/
theorem acceptedLength.messageFits {s : State} (h : acceptedLength s) : s.rxLen.toNat + 6 ≤ rxBufBytes s.params := by
  obtain ⟨-, hcap⟩ := h
  have hhalf := s.rxLen_toNat_le
  unfold rxBufBytes
  omega

/-- In AwaitingMarker no byte of the message has been stored (rule R123). -/
theorem State.Inv.count_awaitingMarker {s : State} (h : s.Inv) (hs : s.syncState = .awaitingMarker) :
    s.rxCount.toNat = 0 := by
  have hpos := h.position
  simp only [positionInv, hs] at hpos
  exact hpos.1

/-- In ReadingLength the marker has been stored, and perhaps a length byte (rule R123). -/
theorem State.Inv.count_readingLength {s : State} (h : s.Inv) (hs : s.syncState = .readingLength) :
    s.rxCount.toNat = 1 ∨ s.rxCount.toNat = 2 := by
  have hpos := h.position
  simp only [positionInv, hs] at hpos
  exact hpos.1

/-- In ReadingBody the header has been stored, with an accepted length, and the last byte has not (rule R123). -/
theorem State.Inv.count_readingBody {s : State} (h : s.Inv) (hs : s.syncState = .readingBody) :
    3 ≤ s.rxCount.toNat ∧ s.rxCount.toNat ≤ s.rxLen.toNat + 5 ∧ acceptedLength s := by
  have hpos := h.position
  simp only [positionInv, hs] at hpos
  obtain ⟨hheader, hend, hlen, -⟩ := hpos
  exact ⟨hheader, hend, hlen⟩

/-- In Dispatch the whole message has been stored (rule R132). -/
theorem State.Inv.count_dispatch {s : State} (h : s.Inv) (hs : s.syncState = .dispatch) :
    s.rxCount.toNat = s.rxLen.toNat + 6 := by
  have hpos := h.position
  simp only [positionInv, hs] at hpos
  exact hpos.1

/-- "k < RX_BUF_BYTES always holds" in the read states (rule R123). -/
theorem State.Inv.room_readState {s : State} (h : s.Inv)
    (hs : s.syncState = .awaitingMarker ∨ s.syncState = .readingLength ∨ s.syncState = .readingBody) :
    s.rxCount.toNat < rxBufBytes s.params := by
  rcases hs with hs | hs | hs
  · have hcount := h.count_awaitingMarker hs
    exact lt_rxBufBytes_of_lt (by omega) _
  · have hcount := h.count_readingLength hs
    exact lt_rxBufBytes_of_lt (by omega) _
  · obtain ⟨-, hend, hlen⟩ := h.count_readingBody hs
    exact Nat.lt_of_lt_of_le (Nat.lt_succ_of_le hend) hlen.messageFits

end Sys2Proof.Machine

namespace Sys2Proof
open Machine

/-- Settles O32: no action on a byte undoes its store, and an accepted length bounds RX_COUNT below the storage. -/
theorem byteEventIsStoredFirst : Obligations.ByteEventIsStoredFirst := by
  refine ⟨fun s b hs hroom => ?_, fun s hinv => ⟨hinv.count_awaitingMarker, hinv.count_readingLength, fun hs => ?_,
    hinv.room_readState⟩⟩
  · obtain ⟨st, hst⟩ := Option.isSome_iff_exists.1 ((readState?_isSome_iff _).2 hs)
    refine ⟨_, exec_rxByte_stored hst hroom, ?_, fun j hj => ?_, ?_, ?_⟩
    · simp [Memory.read_write]
    · simp [Memory.read_write, hj]
    · simpa using toNat_rxCount_succ hroom
    · simp
  · obtain ⟨hheader, hend, -⟩ := hinv.count_readingBody hs
    exact ⟨hheader, hend⟩

end Sys2Proof
end

section
/-! What each read state does with the byte it has stored (43_stream_sync.md rules R124 to R129), one equation per
outcome. -/
namespace Sys2Proof.Machine

/-- The marker opens the message (rule R124). -/
theorem markerAction_of_eq {b : Byte} {s : State} (h : b = s.params.rxMarker) :
    markerAction b s = s.setSync .readingLength := if_neg (not_not.2 h)

/-- Any other first byte fails the session (rule R124). -/
theorem markerAction_of_ne {b : Byte} {s : State} (h : b ≠ s.params.rxMarker) :
    markerAction b s = s.fail .protocolViolation .awaitingMarker .value := if_pos h

/-- A length of 0 is rejected (rule R127). -/
theorem lengthCheck_of_zero {n : Nat} (s : State) (h : n = 0) :
    lengthCheck n s = s.fail .protocolViolation .readingLength .value := if_pos h

/-- A length at or above MAX_PAYLOAD is rejected: the bound is exclusive (rule R127). -/
theorem lengthCheck_of_cap_le {n : Nat} {s : State} (hpos : n ≠ 0) (hcap : s.params.maxPayload ≤ n) :
    lengthCheck n s = s.fail .resourceLimitExceeded .readingLength .value := by
  rw [lengthCheck, if_neg hpos, if_pos hcap]

/-- Any other length is followed by the body (rule R127). -/
theorem lengthCheck_of_accepted {n : Nat} {s : State} (hpos : n ≠ 0) (hcap : n < s.params.maxPayload) :
    lengthCheck n s = s.setSync .readingBody := by
  rw [lengthCheck, if_neg hpos, if_neg (Nat.not_le.2 hcap)]

/-- The first length byte is summed and no more (rule R125). -/
theorem lengthAction_one (b : Byte) (s : State) : lengthAction 1 b s = s.rxCk b := rfl

/-- The second length byte is summed, and N is taken from both and checked (rule R125). -/
theorem lengthAction_two (b : Byte) (s : State) :
    lengthAction 2 b s = lengthCheck (s.rxByteAt 1 ++ s.rxByteAt 2).toNat
      { s.rxCk b with rxLen := s.rxByteAt 1 ++ s.rxByteAt 2 } := rfl

/-- A payload byte is summed and no more (rule R128). -/
theorem bodyAction_payload {k : Nat} (b : Byte) {s : State} (h : k < 3 + s.rxLen.toNat) :
    bodyAction k b s = s.rxCk b := by
  rw [bodyAction, if_neg (by omega), bodySum, if_pos h]

/-- A trailer byte before the last is only stored (rule R128). -/
theorem bodyAction_trailer {k : Nat} (b : Byte) {s : State} (h : 3 + s.rxLen.toNat ≤ k) (h' : k < s.rxLen.toNat + 5) :
    bodyAction k b s = s := by
  rw [bodyAction, if_neg (by omega), bodySum, if_neg (by omega)]

/-- The last trailer byte ends the message (rule R128). -/
theorem bodyAction_last {k : Nat} (b : Byte) {s : State} (h : k = s.rxLen.toNat + 5) :
    bodyAction k b s = messageEnd s := by
  rw [bodyAction, if_pos h, bodySum, if_neg (by omega)]

/-- The trailer is right when its first two bytes are RXCK (rule R129). -/
theorem trailerOk_iff (s : State) : trailerOk s = true ↔
    s.rxByteAt (3 + s.rxLen.toNat) = s.rxckA ∧ s.rxByteAt (4 + s.rxLen.toNat) = s.rxckB := by
  simp [trailerOk]

/-- A message whose trailer is right, or is not checked, is dispatched (rule R129). -/
theorem messageEnd_dispatch {s : State} (h : s.ctrl.getLsbD 0 = false ∨ trailerOk s = true) :
    messageEnd s = s.setSync .dispatch := by
  rcases h with hlax | hok
  · exact if_neg (by simp only [ctrlStrict, hlax, Bool.false_and, Bool.false_eq_true, not_false_eq_true])
  · exact if_neg (by simp only [hok, Bool.not_true, Bool.and_false, Bool.false_eq_true, not_false_eq_true])

/-- A message whose trailer is checked and wrong fails the session (rule R129). -/
theorem messageEnd_fail {s : State} (hstrict : s.ctrl.getLsbD 0 = true) (hbad : ¬ trailerOk s = true) :
    messageEnd s = s.fail .protocolViolation .readingBody .value :=
  if_pos (by simp [ctrlStrict, hstrict, hbad])

/-- The store of a byte leaves every byte below RX_COUNT as it is (rule R123). -/
theorem rxByteAt_stored_below (s : State) (b : Byte) {j : Nat} (h : j < s.rxCount.toNat) :
    (s.consumeEvent.storeRx b).rxByteAt j = s.rxByteAt j :=
  (rxByteAt_storeRx s.consumeEvent b j).trans (if_neg (Nat.ne_of_lt h))

/-- The byte stored stands at the index RX_COUNT had (rule R123). -/
theorem rxByteAt_stored_last (s : State) (b : Byte) {j : Nat} (h : j = s.rxCount.toNat) :
    (s.consumeEvent.storeRx b).rxByteAt j = b :=
  (rxByteAt_storeRx s.consumeEvent b j).trans (if_pos h)

/-- The third trailer byte is not part of the check (rule R129). -/
theorem trailerOk_stored_iff {s : State} (b : Byte) (h : s.rxCount.toNat = s.rxLen.toNat + 5) :
    trailerOk (s.consumeEvent.storeRx b) = true ↔
      s.rxByteAt (3 + s.rxLen.toNat) = s.rxckA ∧ s.rxByteAt (4 + s.rxLen.toNat) = s.rxckB := by
  rw [trailerOk_iff, State.storeRx_rxLen, State.consumeEvent_rxLen, rxByteAt_stored_below s b (by omega),
    rxByteAt_stored_below s b (by omega)]
  rfl

/-- RX_COUNT in the header, as a number. -/
theorem toNat_of_eq_ofNat {w : Word} {k : Nat} (hk : w = BitVec.ofNat 32 k) (hheader : k < 6) : w.toNat = k := by
  rw [hk, BitVec.toNat_ofNat, Nat.mod_eq_of_lt (by omega)]

/-- The state a byte of the header is acted on in, its index known (rule R123). -/
theorem stored_header {s : State} {k : Nat} (b : Byte) (hk : s.rxCount = BitVec.ofNat 32 k) (hheader : k < 6) :
    s.consumeEvent.storeRx b =
      { s with rxin := s.rxin.tail, rxBuf := Memory.write s.rxBuf k b, rxCount := BitVec.ofNat 32 (k + 1) } := by
  have hnext : s.rxCount + 1 = BitVec.ofNat 32 (k + 1) := by rw [hk, BitVec.ofNat_add]; rfl
  simp only [State.storeRx, State.consumeEvent, toNat_of_eq_ofNat hk hheader, hnext]

/-- A byte of the header is stored and acted on, whatever the parameters (rule R123). -/
theorem exec_rxByte_header {s : State} {st : ReadState} {k : Nat} (b : Byte) (hst : s.syncState.readState? = some st)
    (hk : s.rxCount = BitVec.ofNat 32 k) (hheader : k < 6) :
    exec (.rxByte b) s = .next (byteAction st k b (s.consumeEvent.storeRx b)) := by
  have hcount := toNat_of_eq_ofNat hk hheader
  rw [exec_rxByte_stored hst (hcount ▸ lt_rxBufBytes_of_lt hheader _), hcount]

/-- N is the number of the first length byte, stored before, and the second, just stored (rule R125). -/
theorem lengthAction_two_stored {s : State} (b : Byte) (hcount : s.rxCount.toNat = 2) :
    lengthAction 2 b (s.consumeEvent.storeRx b) = lengthCheck (s.rxByteAt 1 ++ b).toNat
      { (s.consumeEvent.storeRx b).rxCk b with rxLen := s.rxByteAt 1 ++ b } := by
  rw [lengthAction_two, rxByteAt_stored_below s b (by omega), rxByteAt_stored_last s b hcount.symm]

end Sys2Proof.Machine

namespace Sys2Proof
open Machine

/-- Settles O33: the two outcomes of the marker's check. -/
theorem markerByteOpensOrFailsTheSession : Obligations.MarkerByteOpensOrFailsTheSession := by
  intro s b hs hk
  rw [exec_rxByte_header (st := .awaitingMarker) b (by rw [hs]; rfl) hk (by decide), stored_header b hk (by decide)]
  exact ⟨fun hne => congrArg Host.Outcome.next (markerAction_of_ne hne),
    fun heq => congrArg Host.Outcome.next (markerAction_of_eq heq)⟩

/-- Settles O34: the first length byte is only summed; at the second, each outcome of the length check is an equation of
its own. -/
theorem lengthBytesAreDecodedAndChecked : Obligations.LengthBytesAreDecodedAndChecked := by
  intro s b hs
  have hst : s.syncState.readState? = some .readingLength := by rw [hs]; rfl
  refine ⟨fun hk => ?first, fun hk => ⟨s.rxByteAt 1 ++ b, toNat_append_byte _ _, by omega, ?second⟩⟩
  case first =>
    rw [exec_rxByte_header b hst hk (by decide), stored_header b hk (by decide)]
    exact congrArg Host.Outcome.next (lengthAction_one b _)
  case second =>
    rw [exec_rxByte_header b hst hk (by decide), byteAction,
      lengthAction_two_stored b (toNat_of_eq_ofNat hk (by decide)), stored_header b hk (by decide)]
    exact ⟨fun hzero => congrArg Host.Outcome.next (lengthCheck_of_zero _ hzero),
      fun hpos hcap => congrArg Host.Outcome.next (lengthCheck_of_cap_le hpos hcap),
      fun hpos hcap => congrArg Host.Outcome.next (lengthCheck_of_accepted hpos hcap)⟩

/-- Settles O35: the three ranges of the index, the last with the two outcomes of the trailer's check. -/
theorem bodyBytesAreCountedAndChecked : Obligations.BodyBytesAreCountedAndChecked := by
  intro s b hs _ hroom
  rw [exec_rxByte_stored (st := .readingBody) (by rw [hs]; rfl) hroom]
  refine ⟨fun hpayload => congrArg Host.Outcome.next (bodyAction_payload b hpayload),
    fun htrailer hend => congrArg Host.Outcome.next (bodyAction_trailer b htrailer hend), fun hlast => ?_⟩
  have htrailerOk := trailerOk_stored_iff b hlast
  rw [byteAction, bodyAction_last (s := s.consumeEvent.storeRx b) b hlast]
  exact ⟨fun hok => congrArg Host.Outcome.next (messageEnd_dispatch (hok.imp_right htrailerOk.2)),
    fun hstrict hbad => congrArg Host.Outcome.next (messageEnd_fail hstrict (mt htrailerOk.1 hbad))⟩

end Sys2Proof
end

section
/-! SYNC's non-byte events (43_stream_sync.md rule R122) and its two commands (rules R130, R131 and R133). -/
namespace Sys2Proof.Machine

/-- EOS, ERR and TIMEOUT fail the session in the read state they arrive in (rule R122). -/
theorem exec_nonByte_readState {i : Instr} {ev : FailEvent} {s : State} {st : ReadState}
    (hi : (i = .rxEos ∧ ev = .eos) ∨ (i = .rxErr ∧ ev = .err) ∨ (i = .rxTimeout ∧ ev = .timeout))
    (hst : s.syncState.readState? = some st) :
    exec i s = .next (s.consumeEvent.fail .transportError st ev) := by
  have hfail : transportFailure ev s = .next (s.consumeEvent.fail .transportError st ev) := by
    simp only [transportFailure, hst]
  rcases hi with ⟨rfl, rfl⟩ | ⟨rfl, rfl⟩ | ⟨rfl, rfl⟩ <;> exact hfail

/-- SYNC_ACK outside Dispatch (rule R130). -/
theorem exec_syncAck_stateError (p : Bool) {s : State} (h : s.syncState ≠ .dispatch) :
    exec (.syncAck p) s = .next (s.setCmdErr .stateError) := execSyncAck_error p h

/-- SYNC_ACK in Dispatch (rules R130 and R131). -/
theorem exec_syncAck_ok (p : Bool) {s : State} (h : s.syncState = .dispatch) :
    exec (.syncAck p) s = .next ((if p then s.enterStopped else s.awaitMessage).setCmdErr .ok) :=
  execSyncAck_dispatch p h

/-- SYNC_RESTART outside Failed and Stopped (rule R133). -/
theorem exec_syncRestart_stateError {s : State} (hf : s.syncState ≠ .failed) (hs : s.syncState ≠ .stopped) :
    exec .syncRestart s = .next (s.setCmdErr .stateError) := execSyncRestart_error hf hs

/-- SYNC_RESTART in Failed and Stopped (rule R133). -/
theorem exec_syncRestart_ok {s : State} (h : s.syncState = .failed ∨ s.syncState = .stopped) :
    exec .syncRestart s = .next (s.restartSession.setCmdErr .ok) := execSyncRestart_terminal h

end Sys2Proof.Machine

namespace Sys2Proof
open Machine

/-- Settles O31: the three events share one meaning, which records the read state it finds. -/
theorem nonByteEventFailsTheSession : Obligations.NonByteEventFailsTheSession :=
  fun _ _ hst _ _ hi => exec_nonByte_readState hi ((readState?_eq_some_iff _ _).2 hst)

/-- Settles O25: the command's two outcomes, and its row of the opcode table. -/
theorem syncAckEndsADispatch : Obligations.SyncAckEndsADispatch := by
  refine ⟨fun s hs => ⟨exec_syncAck_ok false hs, exec_syncAck_ok true hs⟩,
    fun s p hs => exec_syncAck_stateError p hs, fun w p => ?_⟩
  obtain ⟨-, -, -, -, -, -, hsyncAck, -⟩ := commandDecodesExactlyByTheTable w
  exact hsyncAck p

/-- Settles O26: the command's two outcomes, and its row of the opcode table. -/
theorem syncRestartBeginsANewSession : Obligations.SyncRestartBeginsANewSession := by
  refine ⟨fun s hs => exec_syncRestart_ok hs, fun s hf hs => exec_syncRestart_stateError hf hs, fun w => ?_⟩
  obtain ⟨-, -, -, -, -, -, -, hsyncRestart, -⟩ := commandDecodesExactlyByTheTable w
  exact hsyncRestart

end Sys2Proof
end

section
/-! Dispatch (43_stream_sync.md rule R132): what holds there until the host acknowledges the message. -/
namespace Sys2Proof.Machine

/-- The host's side holds nothing of the receive side. -/
theorem hostSideOnly.receiveSide_eq {s t : State} (h : hostSideOnly s t) : receiveSide t = receiveSide s := by
  unfold hostSideOnly at h
  rw [h]
  rfl

/-- In Dispatch no command but SYNC_ACK changes the receive side (rule R132). -/
theorem exec_command_receiveSide {i : Instr} {s t : State} (hd : s.syncState = .dispatch) (hi : i.isEvent = false)
    (hack : ∀ p, i ≠ .syncAck p) (h : exec i s = .next t) : receiveSide t = receiveSide s := by
  rcases exec_command_cases hi h with ⟨e, rfl⟩ | ⟨src, v, -, rfl⟩ | ⟨c, -, rfl⟩ | ⟨l, c, -, rfl⟩ | ⟨p, hp, -⟩ |
    ⟨rfl, -⟩
  case inr.inr.inr.inr.inl => exact absurd hp (hack p)
  case inr.inr.inr.inr.inr =>
    rw [exec_syncRestart_stateError (by rw [hd]; nofun) (by rw [hd]; nofun)] at h
    obtain rfl := next_eq h
    rfl
  all_goals rfl

/-- In Dispatch the command step of any word but a SYNC_ACK keeps the receive side (rule R132). -/
theorem commandStep_receiveSide {w : Word} {s t : State} (hd : s.syncState = .dispatch)
    (hack : ∀ p, decodeCmd w ≠ .ok (.syncAck p)) (h : commandStep w s = .next t) : receiveSide t = receiveSide s := by
  rcases commandStep_cases h with rfl | ⟨i, hi, hdec, hx⟩
  · rfl
  · exact exec_command_receiveSide hd hi (fun p hp => hack p (hp ▸ hdec)) hx

/-- In Dispatch an event stays pending and changes nothing (rule R121). -/
theorem exec_event_dispatch {i : Instr} {s t : State} (hd : s.syncState = .dispatch) (hi : i.isEvent = true)
    (h : exec i s = .next t) : t = s := by
  have hnone : s.syncState.readState? = none := by rw [hd]; rfl
  rcases exec_event_cases hi h with ⟨-, ht⟩ | ⟨st, ev, hst, -⟩ | ⟨st, b, hst, -⟩
  · exact ht
  · cases hnone.symm.trans hst
  · cases hnone.symm.trans hst

/-- MSG_READY is bit 16 of STATUS (10_state.md rule R25). -/
theorem statusWord_msgReady (s : State) : (statusWord s).getLsbD 16 = msgReady s := by
  simp only [statusWord, BitVec.getLsbD_append]
  simp

/-- A bit of a word is 1 where the quotient by its power of two is odd. -/
theorem toNat_div_two_pow_mod_two {w : Word} {k : Nat} (h : w.getLsbD k = true) : w.toNat / 2 ^ k % 2 = 1 := by
  rwa [BitVec.getLsbD, Nat.testBit_eq_decide_div_mod_eq, decide_eq_true_eq] at h

/-- In Dispatch SYNC_RESTART alone ends in STATE_ERROR (rules R130 to R133). -/
theorem exec_command_stateError_iff {i : Instr} {s t : State} (hd : s.syncState = .dispatch)
    (hi : i.isEvent = false) (h : exec i s = .next t) : t.cmdErr = .stateError ↔ i = .syncRestart := by
  cases i with
  | syncRestart =>
    rw [exec_syncRestart_stateError (by rw [hd]; nofun) (by rw [hd]; nofun)] at h
    obtain rfl := next_eq h
    exact iff_of_true rfl rfl
  | nop | ckClear | ckByte =>
    obtain rfl := next_eq h
    exact iff_of_false nofun nofun
  | bfxExtract src => rcases exec_bfxExtract_cases h with rfl | rfl <;> exact iff_of_false nofun nofun
  | fencBuild => rcases exec_fencBuild_cases h with rfl | ⟨-, rfl⟩ <;> exact iff_of_false nofun nofun
  | ckRange src =>
    by_cases hrange : ckRangeOutOfRange src s = true
    · obtain rfl := next_eq ((exec_ckRange_outOfRange hrange).symm.trans h)
      exact iff_of_false nofun nofun
    · obtain rfl := next_eq ((exec_ckRange_inRange hrange).symm.trans h)
      exact iff_of_false nofun nofun
  | syncAck p =>
    obtain rfl := next_eq ((exec_syncAck_ok p hd).symm.trans h)
    exact iff_of_false nofun nofun
  | rxByte | rxEos | rxErr | rxTimeout => cases hi

/-- In Dispatch the word of SYNC_RESTART alone ends in STATE_ERROR (rules R130 to R133). -/
theorem commandStep_stateError_iff {w : Word} {s t : State} (hd : s.syncState = .dispatch)
    (h : commandStep w s = .next t) : t.cmdErr = .stateError ↔ decodeCmd w = .ok .syncRestart := by
  cases hdec : decodeCmd w with
  | error e =>
    obtain rfl := next_eq ((commandStep_illegal hdec s).symm.trans h)
    exact iff_of_false nofun nofun
  | ok i =>
    rw [commandStep_legal hdec] at h
    rw [exec_command_stateError_iff hd (decodeCmd_isEvent hdec) h, Except.ok.injEq]

end Sys2Proof.Machine

namespace Sys2Proof
open Machine

/-- Settles O41: stability by the ways a step can act, the message by the invariant of Dispatch, the errors by the
outcomes of each command. -/
theorem dispatchIsStableUntilAcknowledged : Obligations.DispatchIsStableUntilAcknowledged := by
  refine ⟨fun s t hd h hack hreset => ?stable, fun s hinv hd => ⟨hinv.count_dispatch hd, ?ready⟩,
    fun w s t hd h => ⟨commandStep_stateError_iff hd h, fun hdec => ?restart⟩⟩
  case stable =>
    rcases step_next_cases h with ⟨w, hw, hc⟩ | ⟨w, -, -, he⟩ | ⟨hr, -⟩ | hs
    · exact commandStep_receiveSide (s := s.issued) hd (hack w hw) hc
    · rw [exec_event_dispatch (s := { s with turns := s.turns.tail }) hd (decodeEvent_isEvent w) he]
      rfl
    · exact absurd hr hreset
    · exact hs.receiveSide_eq
  case ready =>
    have hbit : (statusWord s).getLsbD 16 = true := by simp [statusWord_msgReady, msgReady, hd]
    exact toNat_div_two_pow_mod_two hbit
  case restart =>
    rw [commandStep_legal hdec, exec_syncRestart_stateError (by rw [hd]; nofun) (by rw [hd]; nofun)] at h
    exact next_eq h

end Sys2Proof
end

section
/-! CMD_ERR (44_command_control.md rules R151 and R152): no command reads it, every command writes it, and the receive
events and the bus leave it to the commands. -/
namespace Sys2Proof.Machine

/-- What a command does is the same whatever CMD_ERR it finds: its operands and SYNC_STATE do not hold CMD_ERR, and its
end overwrites it (rule R151). -/
theorem exec_command_setCmdErr {i : Instr} (hi : i.isEvent = false) (s : State) (e : CmdErr) :
    exec i (s.setCmdErr e) = exec i s := by
  cases i with
  | nop | ckClear | ckByte | fencBuild | syncRestart => rfl
  | bfxExtract src | ckRange src => cases src <;> rfl
  | syncAck p => cases p <;> rfl
  | rxByte | rxEos | rxErr | rxTimeout => cases hi

/-- What a command word does is the same whatever CMD_ERR it finds (rule R151). -/
theorem commandStep_setCmdErr (w : Word) (s : State) (e : CmdErr) :
    commandStep w (s.setCmdErr e) = commandStep w s := by
  cases hd : decodeCmd w with
  | ok i => rw [commandStep_legal hd, commandStep_legal hd, exec_command_setCmdErr (decodeCmd_isEvent hd)]
  | error r =>
    rw [commandStep_illegal hd, commandStep_illegal hd]
    rfl

/-- The host's side does not hold CMD_ERR. -/
theorem hostSideOnly.cmdErr_eq {s t : State} (h : hostSideOnly s t) : t.cmdErr = s.cmdErr := by
  unfold hostSideOnly at h
  rw [h]

/-- SYNC's side does not hold CMD_ERR. -/
theorem receiveSideOnly.cmdErr_eq {s t : State} (h : receiveSideOnly s t) : t.cmdErr = s.cmdErr := by
  unfold receiveSideOnly at h
  rw [h]

/-- The step of a reset turn (70_reset_and_hazards.md rule R190). -/
theorem step_reset {s : State} {ts : List Turn} (h : s.turns = .reset :: ts) :
    step s = .next { s with turns := ts }.assertReset := by
  simp only [step, nextTurn, h, agentTurn]

end Sys2Proof.Machine

namespace Sys2Proof
open Machine

/-- Settles O28: a command overwrites CMD_ERR without reading it, and each other way a step can act is a reset or keeps
to a side that does not hold CMD_ERR. -/
theorem cmdErrIsTheLastCommandsResult : Obligations.CmdErrIsTheLastCommandsResult := by
  refine ⟨commandStep_setCmdErr, fun s t h hcmd hreset => ?kept, fun s t h ⟨ts, hts⟩ => ?reset, rfl⟩
  case kept =>
    rcases step_next_cases h with ⟨w, hw, -⟩ | ⟨w, -, -, he⟩ | ⟨hr, -⟩ | hs
    · exact absurd hw (hcmd w)
    · exact (exec_event_receiveSide (decodeEvent_isEvent w) he).cmdErr_eq
    · exact absurd hr hreset
    · exact hs.cmdErr_eq
  case reset =>
    obtain rfl := next_eq ((step_reset hts).symm.trans h)
    exact State.assertReset_cmdErr _

/-- Settles O10: the one word of opcode 0 that is legal is NOP's. -/
theorem nopReportsOkAndNothingElse : Obligations.NopReportsOkAndNothingElse := by
  refine ⟨fun s => rfl, fun w => ?word, fun w s hne hop => ?illegal⟩
  case word =>
    obtain ⟨hnop, -⟩ := commandDecodesExactlyByTheTable w
    exact hnop.trans ⟨word_of_full_mask, fun h => by rw [h]; decide⟩
  case illegal =>
    obtain ⟨e, he⟩ := decodeCmd_error_of_opcode (r := (0xFFFFFFFF, 0)) (by decide) hop
      (fun h => hne (word_of_full_mask h))
    exact commandStep_illegal he s

end Sys2Proof
end

section
/-! The code each command reports, and its causes (60_exceptions.md rule R162). -/
namespace Sys2Proof.Machine

/-- The CMD_ERR code a command reports: its range check or its state check, and nothing else, can fail. A receive event
is no command; what stands for it here is never reported. -/
def reportedCode (i : Instr) (s : State) : CmdErr :=
  match i with
  | .bfxExtract src => if bfxOutOfRange src s then .outOfRange else .ok
  | .ckRange src => if ckRangeOutOfRange src s then .outOfRange else .ok
  | .fencBuild => if txLenTooLong s then .outOfRange else .ok
  | .syncAck _ => if s.syncState = .dispatch then .ok else .stateError
  | .syncRestart => if s.syncState = .failed ∨ s.syncState = .stopped then .ok else .stateError
  | .nop | .ckClear | .ckByte _ => .ok
  | .rxByte _ | .rxEos | .rxErr | .rxTimeout => .ok

/-- The command step's outcome `o` reports the code `e`: a next state that holds it, and nothing else new on an
error. -/
def reports (e : CmdErr) (s : State) (o : Host.Outcome State Fault Refusal) : Prop :=
  ∃ t, o = .next t ∧ t.cmdErr = e ∧ (e ≠ .ok → t = s.setCmdErr e)

/-- `cmd_error(code)` reports its code. -/
theorem reports_commandError (e : CmdErr) (s : State) : reports e s (commandError e s) :=
  ⟨_, rfl, rfl, fun _ => rfl⟩

/-- A command that completes reports OK. -/
theorem reports_commandOk (s u : State) : reports .ok s (commandOk u) := ⟨_, rfl, rfl, fun h => absurd rfl h⟩

/-- A checked command reports its check's outcome. -/
theorem reports_ite {c : Prop} [Decidable c] {e e' : CmdErr} {s : State} {o o' : Host.Outcome State Fault Refusal}
    (h : reports e s o) (h' : reports e' s o') : reports (if c then e else e') s (if c then o else o') := by
  split
  exacts [h, h']

/-- Every command completes and reports its code. -/
theorem exec_reports {i : Instr} (hi : i.isEvent = false) (s : State) : reports (reportedCode i s) s (exec i s) := by
  cases i with
  | nop | ckClear | ckByte => exact reports_commandOk s _
  | bfxExtract | ckRange | fencBuild => exact reports_ite (reports_commandError _ s) (reports_commandOk s _)
  | syncAck p =>
    rw [reportedCode]
    split
    next hd => exact exec_syncAck_ok p hd ▸ reports_commandOk s _
    next hd => exact exec_syncAck_stateError p hd ▸ reports_commandError _ s
  | syncRestart =>
    rw [reportedCode]
    split
    next ht => exact exec_syncRestart_ok ht ▸ reports_commandOk s _
    next ht =>
      obtain ⟨hf, hst⟩ := not_or.1 ht
      exact exec_syncRestart_stateError hf hst ▸ reports_commandError _ s
  | rxByte | rxEos | rxErr | rxTimeout => cases hi

/-- No legal command reports ILLEGAL_COMMAND. -/
theorem reportedCode_ne_illegal (i : Instr) (s : State) : reportedCode i s ≠ .illegalCommand := by
  cases i <;> simp [reportedCode, ite_eq_iff]

/-- SYNC's two commands alone report STATE_ERROR, outside the states they are legal in (43_stream_sync.md rules R130 and
R133). -/
theorem reportedCode_stateError_iff (i : Instr) (s : State) : reportedCode i s = .stateError ↔
    ((∃ p, i = .syncAck p) ∧ s.syncState ≠ .dispatch) ∨
      (i = .syncRestart ∧ s.syncState ≠ .failed ∧ s.syncState ≠ .stopped) := by
  cases i <;> simp [reportedCode, ite_eq_iff]

/-- The three range checks alone report OUT_OF_RANGE (rules R91, R104 and R111). -/
theorem reportedCode_outOfRange_iff (i : Instr) (s : State) : reportedCode i s = .outOfRange ↔
    (∃ src, i = .bfxExtract src ∧ bfxOutOfRange src s = true) ∨
      (∃ src, i = .ckRange src ∧ ckRangeOutOfRange src s = true) ∨ (i = .fencBuild ∧ txLenTooLong s = true) := by
  cases i <;> simp [reportedCode, ite_eq_iff]

/-- STATUS[3:0] is the code of CMD_ERR (10_state.md rule R25). -/
theorem readCsr_status_mod (s : State) : (readCsr .status s).toNat % 16 = (cmdErrCode s.cmdErr).toNat := by
  have hlow : (statusWord s).setWidth 4 = cmdErrCode s.cmdErr := BitVec.setWidth_append_eq_right
  rw [← hlow, BitVec.toNat_setWidth]
  rfl

/-- The code a command word reports. -/
def wordCode (w : Word) (s : State) : CmdErr :=
  match decodeCmd w with
  | .ok i => reportedCode i s
  | .error _ => .illegalCommand

/-- Every command word completes and reports its code. -/
theorem commandStep_reports (w : Word) (s : State) : reports (wordCode w s) s (commandStep w s) := by
  cases hd : decodeCmd w with
  | ok i => simpa only [wordCode, hd, commandStep_legal hd] using exec_reports (decodeCmd_isEvent hd) s
  | error e => simpa only [wordCode, hd, commandStep_illegal hd] using reports_commandError _ s

end Sys2Proof.Machine

namespace Sys2Proof
open Machine

/-- Settles O27: the command step reports one code, and each clause reads that code's definition. -/
theorem commandStepReportsExactlyItsCause : Obligations.CommandStepReportsExactlyItsCause := by
  intro w s
  obtain ⟨t, ht, hcode, herr⟩ := commandStep_reports w s
  refine ⟨t, ht, fun hne => ?_, ?illegal, ?state, ?range, ?status⟩
  · rw [hcode] at hne ⊢
    exact herr hne
  case status =>
    rw [readCsr_status_mod]
    cases t.cmdErr <;> rfl
  all_goals
    rw [hcode, wordCode]
    cases hd : decodeCmd w with
    | error e => simp
    | ok i => ?_
  case illegal => simp [reportedCode_ne_illegal]
  case state => simp [reportedCode_stateError_iff]
  case range =>
    simp only [reportedCode_outOfRange_iff, bfxOutOfRange_iff, ckRangeOutOfRange_iff, txLenTooLong, decide_eq_true_eq,
      Except.ok.injEq]

end Sys2Proof
end

section
/-! How a step can change SYNC_STATE (60_exceptions.md rules R163 and R168): SYNC_ACK out of Dispatch, SYNC_RESTART into
AwaitingMarker, a receive event out of a read state, or reset. -/
namespace Sys2Proof.Machine

/-- SYNC_ACK leaves Dispatch, SYNC_RESTART begins a session, and any other outcome of a command keeps SYNC_STATE
(43_stream_sync.md rules R130 to R133). -/
theorem exec_command_syncState {i : Instr} {s t : State} (hi : i.isEvent = false) (h : exec i s = .next t) :
    t.syncState = s.syncState ∨
    (s.syncState = .dispatch ∧ (t.syncState = .stopped ∨ t.syncState = .awaitingMarker)) ∨
    (i = .syncRestart ∧ t = s.restartSession.setCmdErr .ok) := by
  rcases exec_command_cases hi h with ⟨e, rfl⟩ | ⟨src, v, -, rfl⟩ | ⟨c, -, rfl⟩ | ⟨l, c, -, rfl⟩ | ⟨p, rfl, ht⟩ | hr
  case inr.inr.inr.inr.inl =>
    by_cases hd : s.syncState = .dispatch
    · exact .inr (.inl ⟨hd, by rcases ht with rfl | rfl <;> simp⟩)
    · obtain rfl := next_eq ((exec_syncAck_stateError p hd).symm.trans h)
      exact .inl rfl
  case inr.inr.inr.inr.inr => exact .inr (.inr hr)
  all_goals exact .inl rfl

/-- SYNC_RESTART has one word (30_encoding.md rule R72). -/
theorem word_of_decodeCmd_syncRestart {w : Word} (h : decodeCmd w = .ok .syncRestart) : w = 7 := by
  obtain ⟨hrow, -⟩ := row_of_decodeCmd rfl h
  exact word_of_full_mask hrow

/-- What a command word can do to SYNC_STATE. -/
theorem commandStep_syncState {w : Word} {s t : State} (h : commandStep w s = .next t) :
    t.syncState = s.syncState ∨
    (s.syncState = .dispatch ∧ (t.syncState = .stopped ∨ t.syncState = .awaitingMarker)) ∨
    (w = 7 ∧ t = s.restartSession.setCmdErr .ok) := by
  rcases commandStep_cases h with rfl | ⟨i, hi, hd, hx⟩
  · exact .inl rfl
  · refine (exec_command_syncState hi hx).imp_right (Or.imp_right ?_)
    rintro ⟨rfl, ht⟩
    exact ⟨word_of_decodeCmd_syncRestart hd, ht⟩

/-- In a terminal state an event stays pending and changes nothing (43_stream_sync.md rule R121). -/
theorem exec_event_terminal {i : Instr} {s t : State} (hs : s.syncState.isTerminal = true) (hi : i.isEvent = true)
    (h : exec i s = .next t) : t = s := by
  have noRead : ∀ st, s.syncState.readState? ≠ some st := fun st hst => by
    simp [isTerminal_of_readState? hst] at hs
  rcases exec_event_cases hi h with ⟨-, ht⟩ | ⟨st, ev, hst, -⟩ | ⟨st, b, hst, -⟩
  · exact ht
  · exact absurd hst (noRead st)
  · exact absurd hst (noRead st)

end Sys2Proof.Machine

namespace Sys2Proof
open Machine

/-- Settles O39: of the ways a step can act, a terminal state admits SYNC_RESTART and reset alone to change SYNC_STATE. -/
theorem terminalStatesAreLeftOnlyByRestartOrReset : Obligations.TerminalStatesAreLeftOnlyByRestartOrReset := by
  intro s t h hs
  rcases step_next_cases h with ⟨w, hw, hc⟩ | ⟨w, r, -, he⟩ | ⟨hr, rfl⟩ | hside
  · rcases commandStep_syncState hc with hkept | ⟨hd, -⟩ | ⟨rfl, rfl⟩
    · exact .inl hkept
    · rw [show s.syncState = .dispatch from hd] at hs
      cases hs
    · exact .inr (.inl ⟨hw, rfl, rfl, rfl, rfl, rfl, rfl, rfl, rfl, rfl⟩)
  · rw [exec_event_terminal (s := { s with turns := s.turns.tail }) hs (decodeEvent_isEvent w) he]
    exact .inl rfl
  · exact .inr (.inr ⟨hr, rfl⟩)
  · exact .inl hside.syncState_eq

end Sys2Proof
end

section
/-! The session failures (60_exceptions.md rule R163): which check fails a session, by the read state the byte arrived
in, and what it records. -/
namespace Sys2Proof.Machine

/-- The row of rule R163's table by which the byte `b`, stored at index `k` into `s` in read state `st`, fails the
session, with the class and the registers `t` then holds. -/
def byteFailureCause (st : ReadState) (k : Nat) (b : Byte) (s t : State) : Prop :=
  match st with
  | .awaitingMarker => b ≠ s.params.rxMarker ∧ t.failClass = .protocolViolation
  | .readingLength => k = 2 ∧ ((t.rxLen.toNat = 0 ∧ t.failClass = .protocolViolation) ∨
      (t.rxLen.toNat ≠ 0 ∧ s.params.maxPayload ≤ t.rxLen.toNat ∧ t.failClass = .resourceLimitExceeded))
  | .readingBody => k = s.rxLen.toNat + 5 ∧ s.ctrl.getLsbD 0 = true ∧
      ¬ (t.rxByteAt (3 + s.rxLen.toNat) = t.rxckA ∧ t.rxByteAt (4 + s.rxLen.toNat) = t.rxckB) ∧
      t.failClass = .protocolViolation

/-- `t` is Failed by a byte in read state `st`, with that byte's cause. -/
def failsByByte (st : ReadState) (k : Nat) (b : Byte) (s t : State) : Prop :=
  t.failState = st ∧ t.failEvent = .value ∧ byteFailureCause st k b s t

/-- The marker's check fails only on a wrong marker (rule R124). -/
theorem markerAction_failed {b : Byte} {s : State} (k : Nat) (h : (markerAction b s).syncState = .failed) :
    failsByByte .awaitingMarker k b s (markerAction b s) := by
  by_cases hb : b = s.params.rxMarker
  · rw [markerAction_of_eq hb] at h
    cases h
  · rw [markerAction_of_ne hb]
    exact ⟨rfl, rfl, hb, rfl⟩

/-- The length check fails only on N = 0 or on N at or above MAX_PAYLOAD (rule R127). -/
theorem lengthCheck_failed {n : Nat} {s : State} (h : (lengthCheck n s).syncState = .failed) :
    (lengthCheck n s).failState = .readingLength ∧ (lengthCheck n s).failEvent = .value ∧
      ((n = 0 ∧ (lengthCheck n s).failClass = .protocolViolation) ∨
        (n ≠ 0 ∧ s.params.maxPayload ≤ n ∧ (lengthCheck n s).failClass = .resourceLimitExceeded)) := by
  by_cases hzero : n = 0
  case pos =>
    rw [lengthCheck_of_zero s hzero]
    exact ⟨rfl, rfl, .inl ⟨hzero, rfl⟩⟩
  by_cases hcap : s.params.maxPayload ≤ n
  · rw [lengthCheck_of_cap_le hzero hcap]
    exact ⟨rfl, rfl, .inr ⟨hzero, hcap, rfl⟩⟩
  · rw [lengthCheck_of_accepted hzero (Nat.lt_of_not_le hcap)] at h
    cases h

/-- A length byte fails the session only as the second one, by the length check (rule R125). -/
theorem lengthAction_failed {k : Nat} {b : Byte} {s : State} (hs : s.syncState ≠ .failed)
    (h : (lengthAction k b s).syncState = .failed) :
    failsByByte .readingLength k b s (lengthAction k b s) := by
  by_cases hk : k = 2
  · rw [lengthAction, if_pos hk] at h ⊢
    obtain ⟨hstate, hevent, hcause⟩ := lengthCheck_failed h
    refine ⟨hstate, hevent, hk, ?_⟩
    rw [lengthCheck_rxLen]
    exact hcause
  · rw [lengthAction, if_neg hk] at h
    exact absurd h hs

/-- A body byte that does not end the message keeps SYNC_STATE (rule R128). -/
theorem bodyAction_syncState {k : Nat} (b : Byte) {s : State} (hk : k ≠ s.rxLen.toNat + 5) :
    (bodyAction k b s).syncState = s.syncState := by
  rw [bodyAction, if_neg hk, bodySum]
  split <;> rfl

/-- The trailer's check fails only at the last byte, in strict mode, on a wrong trailer (rule R129). -/
theorem bodyAction_failed {k : Nat} {b : Byte} {s : State} (hs : s.syncState ≠ .failed)
    (h : (bodyAction k b s).syncState = .failed) : failsByByte .readingBody k b s (bodyAction k b s) := by
  by_cases hk : k = s.rxLen.toNat + 5
  case neg => exact absurd ((bodyAction_syncState b hk).symm.trans h) hs
  rw [bodyAction_last b hk] at h ⊢
  by_cases hpass : s.ctrl.getLsbD 0 = false ∨ trailerOk s = true
  · rw [messageEnd_dispatch hpass] at h
    cases h
  · obtain ⟨hstrict, hbad⟩ := not_or.1 hpass
    have hstrict := Bool.eq_true_of_not_eq_false hstrict
    rw [messageEnd_fail hstrict hbad]
    exact ⟨rfl, rfl, hk, hstrict, mt (trailerOk_iff s).2 hbad, rfl⟩

/-- Acting on a byte fails the session only by the check of the read state it arrived in. -/
theorem byteAction_failed {st : ReadState} {k : Nat} {b : Byte} {s : State} (hs : s.syncState ≠ .failed)
    (h : (byteAction st k b s).syncState = .failed) : failsByByte st k b s (byteAction st k b s) := by
  cases st with
  | awaitingMarker => exact markerAction_failed k h
  | readingLength => exact lengthAction_failed hs h
  | readingBody => exact bodyAction_failed hs h

/-- What a byte's failure records is one of the thirteen triples. -/
theorem byteFailureCause.record_mem {st : ReadState} {k : Nat} {b : Byte} {s t : State}
    (h : byteFailureCause st k b s t) : (t.failClass, st, .value) ∈ failureRecords := by
  cases st with
  | awaitingMarker =>
    obtain ⟨-, hc⟩ := h
    rw [hc]
    decide
  | readingLength => obtain ⟨-, ⟨-, hc⟩ | ⟨-, -, hc⟩⟩ := h <;> (rw [hc]; decide)
  | readingBody =>
    obtain ⟨-, -, -, hc⟩ := h
    rw [hc]
    decide

/-- A cap no 16-bit length reaches is no byte's failure (00_scope.md rule R7). -/
theorem byteFailureCause.not_resourceLimit {st : ReadState} {k : Nat} {b : Byte} {s t : State}
    (h : byteFailureCause st k b s t) (hcap : 65535 < s.params.maxPayload) :
    t.failClass ≠ .resourceLimitExceeded := by
  cases st with
  | awaitingMarker =>
    obtain ⟨-, hc⟩ := h
    rw [hc]
    nofun
  | readingLength =>
    obtain ⟨-, ⟨-, hc⟩ | ⟨-, hlen, -⟩⟩ := h
    · rw [hc]
      nofun
    · have := t.rxLen_toNat_le
      omega
  | readingBody =>
    obtain ⟨-, -, -, hc⟩ := h
    rw [hc]
    nofun

/-- What a non-byte event records is one of the thirteen triples (43_stream_sync.md rule R122). -/
theorem transportError_record_mem (st : ReadState) {ev : FailEvent} (h : ev = .eos ∨ ev = .err ∨ ev = .timeout) :
    (.transportError, st, ev) ∈ failureRecords := by
  rcases h with rfl | rfl | rfl <;> cases st <;> decide

/-- SYNC reaches Failed only in a step of the receive port with an event pending. -/
theorem step_failed {s t : State} (h : step s = .next t) (hs : s.syncState ≠ .failed) (ht : t.syncState = .failed) :
    ∃ ts w r, s.turns = .receive :: ts ∧ s.rxin = w :: r ∧
      exec (decodeEvent w) { s with turns := ts } = .next t := by
  have hkept : t.syncState ≠ s.syncState := fun hst => hs (hst.symm.trans ht)
  rcases step_cases s with ⟨-, e⟩ | ⟨ts, -, -, e⟩ | ⟨ts, a, q, -, -, e⟩ | ⟨ts, -, -, e⟩ | ⟨ts, w, r, hts, hr, e⟩ |
    ⟨ts, -, e⟩ <;> rw [e] at h
  case inr.inr.inr.inr.inl => exact ⟨ts, w, r, hts, hr, h⟩
  case inr.inr.inl =>
    rcases hostAccess_command_or_hostSide h with ⟨w, -, hc⟩ | hside
    · rcases commandStep_syncState hc with hst | ⟨-, hst | hst⟩ | ⟨-, rfl⟩
      · exact absurd hst hkept
      · cases ht.symm.trans hst
      · cases ht.symm.trans hst
      · cases ht
    · exact absurd hside.syncState_eq hkept
  case inr.inr.inr.inr.inr =>
    obtain rfl := next_eq h
    cases ht
  all_goals
    obtain rfl := next_eq h
    exact absurd rfl hkept

end Sys2Proof.Machine

namespace Sys2Proof
open Machine

/-- Settles O37: only a receive event fails the session, a non-byte event in every read state alike and a byte by the
check of the read state it arrives in. -/
theorem failureCausesAreTheThirteen : Obligations.FailureCausesAreTheThirteen := by
  intro s t h hs ht
  obtain ⟨ts, w, r, hts, hr, hx⟩ := step_failed h hs ht
  refine ⟨ts, w, r, hts, hr, ?_⟩
  rcases exec_event_cases (decodeEvent_isEvent w) hx with ⟨-, rfl⟩ | ⟨st, ev, hst, hev, rfl⟩ | ⟨st, b, hst, hw, -, he⟩
  · exact absurd ht hs
  · refine ⟨transportError_record_mem st (by tauto), (readState?_eq_some_iff _ _).1 hst, ?_, nofun⟩
    rcases hev with ⟨hw, rfl⟩ | ⟨hw, rfl⟩ | ⟨hw, rfl⟩ <;> simp [hw]
  · rw [he] at ht
    obtain ⟨hstate, hvalue, hcause⟩ :=
      byteAction_failed (s := ({ s with turns := ts } : State).consumeEvent.storeRx b) hs ht
    rw [← he] at hstate hvalue hcause
    have hread := (readState?_eq_some_iff _ _).1 hst
    refine ⟨?_, hstate ▸ hread, .inr (.inr (.inr ⟨b, hw, hvalue, ?_⟩)), fun hdefault => ?_⟩
    · rw [hstate, hvalue]
      exact hcause.record_mem
    · rcases hread with ⟨rfl, hsync⟩ | ⟨rfl, hsync⟩ | ⟨rfl, hsync⟩
      · exact .inl ⟨hsync, hcause⟩
      · obtain ⟨hk, hzero | hcap⟩ := hcause
        · exact .inr (.inl ⟨hsync, hk, hzero⟩)
        · exact .inr (.inr (.inl ⟨hsync, hk, hcap⟩))
      · exact .inr (.inr (.inr ⟨hsync, hcause⟩))
    · refine hcause.not_resourceLimit ?_
      change 65535 < s.params.maxPayload
      rw [hdefault]
      decide

end Sys2Proof
end

section
/-! Reset (70_reset_and_hazards.md rule R190), from any state and on any turn. -/
namespace Sys2Proof.Machine

/-- Every CSR reads 0 after a reset, as it does at power-on (10_state.md rule R46): no field a CSR shows is kept. -/
theorem readCsr_assertReset (c : Csr) (s : State) : readCsr c s.assertReset = 0 := by
  have hpowerOn : readCsr c s.assertReset = readCsr c State.reset := by cases c <;> rfl
  exact hpowerOn.trans (readCsr_reset c)

end Sys2Proof.Machine

namespace Sys2Proof
open Machine

/-- Settles O55: the step of a reset turn is `assertReset`, and each value is read off it by its field lemma. -/
theorem resetActsAsTheRuleSays : Obligations.ResetActsAsTheRuleSays :=
  ⟨rfl, rfl, fun _ _ hts => ⟨_, step_reset hts, fun c => readCsr_assertReset c _, State.assertReset_syncState _,
    State.assertReset_cmdErr _, State.assertReset_failClass _, State.assertReset_failState _,
    State.assertReset_failEvent _, State.assertReset_closed _, fun _ => ⟨rfl, rfl⟩, State.assertReset_txout _,
    State.assertReset_evout _, State.assertReset_rxin _⟩⟩

end Sys2Proof
end

section
/-! Every step completes (60_exceptions.md sections 1 and 5): the one fault is the store past RX_BUF's storage, which
the invariants exclude (43_stream_sync.md rule R123). -/
namespace Sys2Proof.Machine

/-- Every host access completes, a command it issues included (44_command_control.md rule R150). -/
theorem hostAccess_next (a : HostAccess) (s : State) : ∃ t, hostAccess a s = .next t := by
  rcases hostAccess_cases a s with e | ⟨c, e⟩ | ⟨b, e⟩ | ⟨b, e⟩ | ⟨i, v, -, e⟩ | ⟨c, v, e⟩ | ⟨w, -, e⟩
  case inr.inr.inr.inr.inr.inr => exact e ▸ commandStep_next w _
  all_goals exact ⟨_, e⟩

/-- A non-byte event completes: it fails the session, or stays pending (rules R121 and R122). -/
theorem transportFailure_next (ev : FailEvent) (s : State) : ∃ t, transportFailure ev s = .next t := by
  rcases transportFailure_cases (ev := ev) (s := s) rfl with ⟨st, -, e⟩ | ⟨-, e⟩ <;> exact ⟨_, e⟩

/-- A byte completes where RX_BUF has room for it in the read states (rule R123). -/
theorem execRxByte_next (b : Byte) {s : State}
    (hroom : s.syncState.readState?.isSome = true → s.rxCount.toNat < rxBufBytes s.params) :
    ∃ t, execRxByte b s = .next t := by
  rcases execRxByte_cases (b := b) (s := s) rfl with ⟨st, -, -, e⟩ | ⟨hread, hfull, -⟩ | ⟨-, e⟩
  · exact ⟨_, e⟩
  · exact absurd (hroom hread) (Nat.not_lt.2 hfull)
  · exact ⟨_, e⟩

/-- A receive event completes where RX_BUF has room for a byte in the read states. -/
theorem exec_event_next {i : Instr} (hi : i.isEvent = true) {s : State}
    (hroom : s.syncState.readState?.isSome = true → s.rxCount.toNat < rxBufBytes s.params) :
    ∃ t, exec i s = .next t := by
  cases i with
  | rxByte b => exact execRxByte_next b hroom
  | rxEos => exact transportFailure_next .eos s
  | rxErr => exact transportFailure_next .err s
  | rxTimeout => exact transportFailure_next .timeout s
  | nop | bfxExtract | ckClear | ckByte | ckRange | fencBuild | syncAck | syncRestart => cases hi

end Sys2Proof.Machine

namespace Sys2Proof
open Machine

/-- Settles O58: only a receive event can fault, and the invariants give RX_BUF room for it. -/
theorem everyStepCompletesUnderTheInvariants : Obligations.EveryStepCompletesUnderTheInvariants := by
  intro s hinv
  rcases step_cases s with ⟨-, e⟩ | ⟨ts, -, -, e⟩ | ⟨ts, a, q, -, -, e⟩ | ⟨ts, -, -, e⟩ | ⟨ts, w, r, -, -, e⟩ |
    ⟨ts, -, e⟩
  case inr.inr.inl => exact e ▸ hostAccess_next a _
  case inr.inr.inr.inr.inl =>
    exact e ▸ exec_event_next (decodeEvent_isEvent w)
      fun hread => hinv.room_readState ((readState?_isSome_iff _).1 hread)
  all_goals exact ⟨_, e⟩

end Sys2Proof
end

section
/-! CTRL (10_state.md rule R24, 70_reset_and_hazards.md rule R198): an operation that does not read it commutes with
setting it, and the two that do read one bit each. -/
namespace Sys2Proof.Machine

/-- `s` with another value in CTRL. -/
def State.withCtrl (s : State) (c : BitVec 2) : State := { s with ctrl := c }

/-- An outcome with another value in the CTRL of its next state, if it has one. -/
def outcomeWithCtrl (c : BitVec 2) : Host.Outcome State Fault Refusal → Host.Outcome State Fault Refusal
  | .next t => .next (t.withCtrl c)
  | .fault r => .fault r
  | .refused r => .refused r

/-- Setting CTRL keeps SYNC_STATE. -/
@[simp] theorem State.withCtrl_syncState (s : State) (c : BitVec 2) : (s.withCtrl c).syncState = s.syncState := rfl

/-- BFX_EXTRACT reads no CTRL: its range check and its field read the buffer and the operands (rules R90 and R91). -/
theorem execBfxExtract_withCtrl (src : Src) (s : State) (c : BitVec 2) :
    execBfxExtract src (s.withCtrl c) = outcomeWithCtrl c (execBfxExtract src s) := by
  unfold execBfxExtract
  rw [apply_ite (outcomeWithCtrl c)]
  cases src <;> rfl

/-- CK_RANGE reads no CTRL: its range check and its bytes read the buffer and the operands (rule R104). -/
theorem execCkRange_withCtrl (src : Src) (s : State) (c : BitVec 2) :
    execCkRange src (s.withCtrl c) = outcomeWithCtrl c (execCkRange src s) := by
  unfold execCkRange
  rw [apply_ite (outcomeWithCtrl c)]
  cases src <;> rfl

/-- A command other than FENC_BUILD reads no CTRL: SYNC_ACK and SYNC_RESTART choose by SYNC_STATE alone. -/
theorem exec_command_withCtrl {i : Instr} (hi : i.isEvent = false) (hfenc : i ≠ .fencBuild) (s : State)
    (c : BitVec 2) : exec i (s.withCtrl c) = outcomeWithCtrl c (exec i s) := by
  cases i with
  | nop | ckClear | ckByte => rfl
  | bfxExtract src => exact execBfxExtract_withCtrl src s c
  | ckRange src => exact execCkRange_withCtrl src s c
  | fencBuild => exact absurd rfl hfenc
  | syncAck p =>
    by_cases hd : s.syncState = .dispatch
    · rw [exec_syncAck_ok p hd, exec_syncAck_ok p (s := s.withCtrl c) hd]
      cases p <;> rfl
    · rw [exec_syncAck_stateError p hd, exec_syncAck_stateError p (s := s.withCtrl c) hd]
      rfl
  | syncRestart =>
    by_cases ht : s.syncState = .failed ∨ s.syncState = .stopped
    · rw [exec_syncRestart_ok ht, exec_syncRestart_ok (s := s.withCtrl c) ht]
      rfl
    · obtain ⟨hf, hs⟩ := not_or.1 ht
      rw [exec_syncRestart_stateError hf hs, exec_syncRestart_stateError (s := s.withCtrl c) hf hs]
      rfl
  | rxByte | rxEos | rxErr | rxTimeout => cases hi

/-- The frame depends on CTRL through LEGACY_LEN8 alone (rule R112). -/
theorem fencFrame_withCtrl {s : State} {c : BitVec 2} (h : c.getLsbD 1 = s.ctrl.getLsbD 1) :
    fencFrame (s.withCtrl c) = fencFrame s := by
  refine (fencFrame_withCtrl_eq_iff s c s.ctrl).2 ?_
  unfold fencLen1 ctrlLegacyLen8
  rw [h]

/-- FENC_BUILD depends on CTRL through LEGACY_LEN8 alone (rule R112). -/
theorem exec_fencBuild_withCtrl {s : State} {c : BitVec 2} (h : c.getLsbD 1 = s.ctrl.getLsbD 1) :
    exec .fencBuild (s.withCtrl c) = outcomeWithCtrl c (exec .fencBuild s) := by
  have hframe := fencFrame_withCtrl h
  have hck : fencCk (s.withCtrl c) = fencCk s := by
    rw [fencCk_eq, fencCk_eq, hframe]
    rfl
  by_cases hfits : s.txLen.toNat ≤ s.params.txBufBytes
  · rw [exec_fencBuild_fits hfits, exec_fencBuild_fits (s := s.withCtrl c) hfits, hframe, hck]
    rfl
  · have hlong := Nat.lt_of_not_le hfits
    rw [exec_fencBuild_tooLong hlong, exec_fencBuild_tooLong (s := s.withCtrl c) hlong]
    rfl

/-- A non-byte event reads no CTRL (rule R122). -/
theorem transportFailure_withCtrl (ev : FailEvent) (s : State) (c : BitVec 2) :
    transportFailure ev (s.withCtrl c) = outcomeWithCtrl c (transportFailure ev s) := by
  unfold transportFailure
  rw [State.withCtrl_syncState]
  cases s.syncState.readState? <;> rfl

/-- The marker check reads no CTRL (rule R124). -/
theorem markerAction_withCtrl (b : Byte) (s : State) (c : BitVec 2) :
    markerAction b (s.withCtrl c) = (markerAction b s).withCtrl c := by
  unfold markerAction
  rw [apply_ite (State.withCtrl · c)]
  rfl

/-- The length check reads no CTRL (rule R127). -/
theorem lengthCheck_withCtrl (n : Nat) (s : State) (c : BitVec 2) :
    lengthCheck n (s.withCtrl c) = (lengthCheck n s).withCtrl c := by
  unfold lengthCheck
  rw [apply_ite (State.withCtrl · c), apply_ite (State.withCtrl · c)]
  rfl

/-- A length byte reads no CTRL (rule R125). -/
theorem lengthAction_withCtrl (k : Nat) (b : Byte) (s : State) (c : BitVec 2) :
    lengthAction k b (s.withCtrl c) = (lengthAction k b s).withCtrl c := by
  unfold lengthAction
  rw [apply_ite (State.withCtrl · c), ← lengthCheck_withCtrl]
  rfl

/-- The sum of a body byte reads no CTRL (rule R128). -/
theorem bodySum_withCtrl (k : Nat) (b : Byte) (s : State) (c : BitVec 2) :
    bodySum k b (s.withCtrl c) = (bodySum k b s).withCtrl c := by
  unfold bodySum
  rw [apply_ite (State.withCtrl · c)]
  rfl

/-- The end of a message depends on CTRL through STRICT alone (rule R129). -/
theorem messageEnd_withCtrl {s : State} {c : BitVec 2} (h : c.getLsbD 0 = s.ctrl.getLsbD 0) :
    messageEnd (s.withCtrl c) = (messageEnd s).withCtrl c := by
  have hstrict : ctrlStrict (s.withCtrl c) = ctrlStrict s := h
  unfold messageEnd
  rw [apply_ite (State.withCtrl · c), hstrict]
  rfl

/-- A body byte depends on CTRL through STRICT alone, and only where it ends the message (rules R128 and R129). -/
theorem bodyAction_withCtrl {k : Nat} (b : Byte) {s : State} {c : BitVec 2}
    (h : k = s.rxLen.toNat + 5 → c.getLsbD 0 = s.ctrl.getLsbD 0) :
    bodyAction k b (s.withCtrl c) = (bodyAction k b s).withCtrl c := by
  by_cases hlast : k = s.rxLen.toNat + 5
  · rw [bodyAction_last b hlast, bodyAction_last b (s := s.withCtrl c) hlast, messageEnd_withCtrl (h hlast)]
  · have hlast' : k ≠ (s.withCtrl c).rxLen.toNat + 5 := hlast
    rw [bodyAction, if_neg hlast', bodyAction, if_neg hlast, bodySum_withCtrl]

/-- What a stored byte does depends on CTRL only where it ends a message, and there through STRICT alone. -/
theorem byteAction_withCtrl {st : ReadState} {k : Nat} (b : Byte) {s : State} {c : BitVec 2}
    (h : st = .readingBody → k = s.rxLen.toNat + 5 → c.getLsbD 0 = s.ctrl.getLsbD 0) :
    byteAction st k b (s.withCtrl c) = (byteAction st k b s).withCtrl c := by
  cases st with
  | awaitingMarker => exact markerAction_withCtrl b s c
  | readingLength => exact lengthAction_withCtrl k b s c
  | readingBody => exact bodyAction_withCtrl b (h rfl)

/-- A byte depends on CTRL only where it ends a message, and there through STRICT alone (rule R198). -/
theorem exec_rxByte_withCtrl (b : Byte) {s : State} {c : BitVec 2}
    (h : s.syncState = .readingBody → s.rxCount.toNat = s.rxLen.toNat + 5 → c.getLsbD 0 = s.ctrl.getLsbD 0) :
    exec (.rxByte b) (s.withCtrl c) = outcomeWithCtrl c (exec (.rxByte b) s) := by
  change execRxByte b (s.withCtrl c) = outcomeWithCtrl c (execRxByte b s)
  unfold execRxByte
  rw [State.withCtrl_syncState]
  cases hst : s.syncState.readState? with
  | none => rfl
  | some st =>
    have hact : byteAction st s.rxCount.toNat b ((s.consumeEvent.storeRx b).withCtrl c) =
        (byteAction st s.rxCount.toNat b (s.consumeEvent.storeRx b)).withCtrl c := by
      refine byteAction_withCtrl b fun hbody hlast => h ?_ hlast
      simpa [hbody] using (readState?_eq_some_iff _ _).1 hst
    rw [apply_ite (outcomeWithCtrl c), outcomeWithCtrl, ← hact]
    rfl

/-- An instruction reads no CTRL where it is no FENC_BUILD and no byte that ends a message (rule R198). -/
theorem exec_withCtrl {i : Instr} {s : State} (c : BitVec 2) (hfenc : i ≠ .fencBuild)
    (hbyte : ∀ b, i = .rxByte b → ¬ (s.syncState = .readingBody ∧ s.rxCount.toNat = s.rxLen.toNat + 5)) :
    exec i (s.withCtrl c) = outcomeWithCtrl c (exec i s) := by
  cases i with
  | rxByte b => exact exec_rxByte_withCtrl b fun hbody hlast => absurd ⟨hbody, hlast⟩ (hbyte b rfl)
  | rxEos => exact transportFailure_withCtrl .eos s c
  | rxErr => exact transportFailure_withCtrl .err s c
  | rxTimeout => exact transportFailure_withCtrl .timeout s c
  | nop | bfxExtract | ckClear | ckByte | ckRange | fencBuild | syncAck | syncRestart =>
    exact exec_command_withCtrl rfl hfenc s c

/-- An instruction that commutes with setting CTRL leaves in CTRL what was set there. -/
theorem exec_withCtrl_next {i : Instr} {s t : State} {c : BitVec 2}
    (h : exec i (s.withCtrl c) = outcomeWithCtrl c (exec i s)) (ht : exec i s = .next t) :
    exec i (s.withCtrl c) = .next (t.withCtrl c) := by
  rw [h, ht]
  rfl

end Sys2Proof.Machine

namespace Sys2Proof
open Machine

/-- Settles O47: an instruction commutes with setting CTRL, FENC_BUILD where LEGACY_LEN8 is kept and a byte where STRICT
is. -/
theorem ctrlIsReadOnlyWhereItIsUsed : Obligations.CtrlIsReadOnlyWhereItIsUsed :=
  ⟨fun _ _ c hfenc hbyte _ => exec_withCtrl_next (exec_withCtrl c hfenc hbyte),
    fun _ _ hlegacy _ => exec_withCtrl_next (exec_fencBuild_withCtrl hlegacy),
    fun b _ _ hstrict _ => exec_withCtrl_next (exec_rxByte_withCtrl b fun _ _ => hstrict)⟩

end Sys2Proof
end

section
/-! `State.Inv` in its four parts: the buffers, the failure record, the message received so far, and SYNC's place in
it. Each operation of the block is then asked about the parts it can touch. -/
namespace Sys2Proof.Machine

/-- The part of the invariants about the parameters and the two buffers (00_scope.md rule R6, 10_state.md rules R40 and
R41). -/
structure BuffersInv (p : Params) (rx tx : Memory) : Prop where
  legal : p.Legal
  rxWf : Memory.wf rx
  txWf : Memory.wf tx
  rxInside : ∀ c ∈ rx, c.1 < rxBufBytes p
  txInside : ∀ c ∈ tx, c.1 < p.txBufBytes

/-- The part of the invariants about CLOSED and the failure record (10_state.md rule R25, 60_exceptions.md rule
R163). -/
def recordInv (s : State) : Prop :=
  s.closed = sessionEnd s ∧
    if s.syncState = .failed then (s.failClass, s.failState, s.failEvent) ∈ failureRecords
    else s.failClass = .none ∧ s.failState = .awaitingMarker ∧ s.failEvent = .none

/-- The part of the invariants about the bytes received: they are stored, N is their big-endian number, and RXCK their
checksum (10_state.md rules R34 to R36 and R40). -/
structure ReceivedInv (s : State) : Prop where
  countInside : s.rxCount.toNat ≤ rxBufBytes s.params
  stored : ∀ i, i < s.rxCount.toNat → (Memory.read s.rxBuf i).isSome = true
  lengthDecoded : 3 ≤ s.rxCount.toNat → s.rxLen = s.rxByteAt 1 ++ s.rxByteAt 2
  runningCk : (s.rxckA, s.rxckB) = cksum (sliceBytes s.rxByteAt 1 (min s.rxCount.toNat (3 + s.rxLen.toNat)))

/-- The invariants are their four parts. -/
theorem State.inv_iff (s : State) :
    s.Inv ↔ BuffersInv s.params s.rxBuf s.txBuf ∧ recordInv s ∧ ReceivedInv s ∧ positionInv s :=
  ⟨fun h => ⟨⟨h.legal, h.rxWf, h.txWf, h.rxInside, h.txInside⟩, ⟨h.closedIsEnd, h.failure⟩,
    ⟨h.countInside, h.stored, h.lengthDecoded, h.runningCk⟩, h.position⟩,
   fun ⟨hb, hr, hm, hp⟩ => ⟨hb.legal, hb.rxWf, hb.txWf, hb.rxInside, hb.txInside, hr.1, hr.2, hm.countInside, hm.stored,
    hm.lengthDecoded, hm.runningCk, hp⟩⟩

/-- The buffers' part of the invariants. -/
theorem State.Inv.buffers {s : State} (h : s.Inv) : BuffersInv s.params s.rxBuf s.txBuf := (s.inv_iff.1 h).1

/-- The record's part of the invariants. -/
theorem State.Inv.record {s : State} (h : s.Inv) : recordInv s := (s.inv_iff.1 h).2.1

/-- The received message's part of the invariants. -/
theorem State.Inv.received {s : State} (h : s.Inv) : ReceivedInv s := (s.inv_iff.1 h).2.2.1

/-! ### The buffers -/

/-- A write to TX_BUF inside its storage keeps the buffers' part (10_state.md rule R41). -/
theorem BuffersInv.writeTx {p : Params} {rx tx : Memory} (h : BuffersInv p rx tx) {i : Nat} (v : Byte)
    (hi : i < p.txBufBytes) : BuffersInv p rx (Memory.write tx i v) where
  legal := h.legal
  rxWf := h.rxWf
  txWf := Memory.wf_write i v h.txWf
  rxInside := h.rxInside
  txInside c hc := by
    rcases Memory.mem_write hc with rfl | hold
    · exact hi
    · exact h.txInside c hold

/-- A store in RX_BUF inside its storage keeps the buffers' part (10_state.md rule R40). -/
theorem BuffersInv.writeRx {p : Params} {rx tx : Memory} (h : BuffersInv p rx tx) {k : Nat} (b : Byte)
    (hk : k < rxBufBytes p) : BuffersInv p (Memory.write rx k b) tx where
  legal := h.legal
  rxWf := Memory.wf_write k b h.rxWf
  txWf := h.txWf
  rxInside c hc := by
    rcases Memory.mem_write hc with rfl | hold
    · exact hk
    · exact h.rxInside c hold
  txInside := h.txInside

/-- Legal parameters and two empty buffers meet the buffers' part. -/
theorem buffersInv_nil {p : Params} (h : p.Legal) : BuffersInv p [] [] :=
  ⟨h, Memory.wf_nil, Memory.wf_nil, nofun, nofun⟩

/-! ### The failure record -/

/-- The record of a session that has not failed is empty. -/
def recordEmpty (s : State) : Prop :=
  s.failClass = .none ∧ s.failState = .awaitingMarker ∧ s.failEvent = .none

/-- In a state that is not terminal the record is right when the session is open and nothing is recorded. -/
theorem recordInv_open_iff {s : State} (h : s.syncState.isTerminal = false) :
    recordInv s ↔ s.closed = false ∧ recordEmpty s := by
  cases hs : s.syncState <;> simp_all [recordInv, sessionEnd, recordEmpty, SyncState.isTerminal]

/-- In Stopped the record is right when the session is closed and nothing is recorded. -/
theorem recordInv_stopped_iff {s : State} (h : s.syncState = .stopped) :
    recordInv s ↔ s.closed = true ∧ recordEmpty s := by
  simp [recordInv, sessionEnd, recordEmpty, h]

/-- The entry into Failed with one of the thirteen causes leaves the record right (60_exceptions.md rule R166). -/
theorem recordInv_fail {s : State} {cls : FailClass} {st : ReadState} {ev : FailEvent}
    (h : (cls, st, ev) ∈ failureRecords) : recordInv (s.fail cls st ev) := ⟨rfl, h⟩

/-! ### The message received so far -/

/-- The registers and the buffer the received message stands in. -/
def receivedMessage (s : State) : Memory × Word × Half × Byte × Byte :=
  (s.rxBuf, s.rxCount, s.rxLen, s.rxckA, s.rxckB)

/-- The message's part looks at the message alone: its bytes are stored, so no unspecified byte is read. -/
theorem ReceivedInv.congr {s t : State} (h : ReceivedInv s) (hmsg : receivedMessage t = receivedMessage s)
    (hparams : t.params = s.params) : ReceivedInv t := by
  obtain ⟨hbuf, hcount, hlen, hckA, hckB⟩ : t.rxBuf = s.rxBuf ∧ t.rxCount = s.rxCount ∧ t.rxLen = s.rxLen ∧
      t.rxckA = s.rxckA ∧ t.rxckB = s.rxckB := by simpa [receivedMessage] using hmsg
  have hbyte : ∀ i < s.rxCount.toNat, t.rxByteAt i = s.rxByteAt i := fun i hi => rxByteAt_stored hbuf (h.stored i hi)
  refine ⟨?_, ?_, fun hheader => ?_, ?_⟩
  · rw [hcount, hparams]
    exact h.countInside
  · rw [hcount, hbuf]
    exact h.stored
  · rw [hcount] at hheader
    rw [hlen, hbyte 1 (by omega), hbyte 2 (by omega)]
    exact h.lengthDecoded hheader
  · rw [hcount, hlen, hckA, hckB, h.runningCk]
    exact congrArg cksum (sliceBytes_congr fun i _ hi => (hbyte i (by omega)).symm)

/-- With nothing received, N and RXCK are 0. -/
theorem receivedInv_of_zero {s : State} (hcount : s.rxCount = 0) (hckA : s.rxckA = 0) (hckB : s.rxckB = 0) :
    ReceivedInv s := by
  have hzero : s.rxCount.toNat = 0 := by rw [hcount]; rfl
  refine ⟨by omega, fun i hi => by omega, fun hheader => by omega, ?_⟩
  rw [sliceBytes_empty _ (by omega), hckA, hckB, cksum_nil]

/-- Before any byte after the marker, RXCK is 0. -/
theorem ReceivedInv.rxck_eq_zero {s : State} (h : ReceivedInv s) (hcount : s.rxCount.toNat ≤ 1) :
    (s.rxckA, s.rxckB) = (0, 0) := by
  rw [h.runningCk, sliceBytes_empty _ (by omega), cksum_nil]

/-- The store of a byte keeps every byte received stored (43_stream_sync.md rule R123). -/
theorem ReceivedInv.stored_storeRx {s : State} (h : ReceivedInv s) (b : Byte)
    (hroom : s.rxCount.toNat < rxBufBytes s.params) {i : Nat} (hi : i < (s.storeRx b).rxCount.toNat) :
    (Memory.read (s.storeRx b).rxBuf i).isSome = true := by
  rw [State.storeRx_rxCount, toNat_rxCount_succ hroom] at hi
  rw [State.storeRx_rxBuf, Memory.read_write]
  split
  · rfl
  · exact h.stored i (by omega)

end Sys2Proof.Machine
end

section
/-! What the store of a received byte keeps of the invariants (43_stream_sync.md rules R123 to R128), and where SYNC
stands after it. -/
namespace Sys2Proof.Machine

/-- The bytes before RX_COUNT are summed the same after the store of the next one. -/
theorem sliceBytes_storeRx (s : State) (b : Byte) {last : Nat} (h : last ≤ s.rxCount.toNat) :
    sliceBytes (s.storeRx b).rxByteAt 1 last = sliceBytes s.rxByteAt 1 last :=
  sliceBytes_congr fun i _ hi => by rw [rxByteAt_storeRx, if_neg (by omega)]

/-- RX_LEN is still the number of bytes 1 and 2 after the store of a byte past the header. -/
theorem ReceivedInv.lengthDecoded_storeRx {s : State} (h : ReceivedInv s) (b : Byte)
    (hheader : 3 ≤ s.rxCount.toNat) : s.rxLen = (s.storeRx b).rxByteAt 1 ++ (s.storeRx b).rxByteAt 2 := by
  rw [rxByteAt_storeRx, rxByteAt_storeRx, if_neg (by omega), if_neg (by omega)]
  exact h.lengthDecoded hheader

/-- The marker byte is stored and not summed (43_stream_sync.md rule R126). -/
theorem ReceivedInv.storeRx_marker {s : State} (h : ReceivedInv s) (b : Byte) (hcount : s.rxCount.toNat = 0)
    (hroom : s.rxCount.toNat < rxBufBytes s.params) : ReceivedInv (s.storeRx b) := by
  have hnext : (s.storeRx b).rxCount.toNat = s.rxCount.toNat + 1 := toNat_rxCount_succ hroom
  refine ⟨by rw [hnext]; exact hroom, fun i => h.stored_storeRx b hroom, fun hheader => by omega, ?_⟩
  rw [sliceBytes_empty _ (by omega), cksum_nil]
  exact h.rxck_eq_zero (by omega)

/-- A length or payload byte, stored and summed, leaves RXCK the checksum of one byte more (rule R126). -/
theorem ReceivedInv.rxCk_storeRx {s : State} (h : ReceivedInv s) (b : Byte) (hopen : 1 ≤ s.rxCount.toNat)
    (hsummed : s.rxCount.toNat < 3 + s.rxLen.toNat) :
    (((s.storeRx b).rxCk b).rxckA, ((s.storeRx b).rxCk b).rxckB) =
      cksum (sliceBytes (s.storeRx b).rxByteAt 1 (s.rxCount.toNat + 1)) := by
  rw [sliceBytes_succ _ hopen, cksum_concat, sliceBytes_storeRx s b le_rfl, rxByteAt_storeRx, if_pos rfl]
  have hck := h.runningCk
  rw [Nat.min_eq_left (by omega)] at hck
  rw [← hck]
  rfl

/-- A length or payload byte, stored and summed, that does not complete the header (rules R125 and R128). -/
theorem ReceivedInv.storeRx_summed {s : State} (h : ReceivedInv s) (b : Byte) (hopen : 1 ≤ s.rxCount.toNat)
    (hsummed : s.rxCount.toNat < 3 + s.rxLen.toNat) (hheader : s.rxCount.toNat ≠ 2)
    (hroom : s.rxCount.toNat < rxBufBytes s.params) : ReceivedInv ((s.storeRx b).rxCk b) := by
  have hnext : ((s.storeRx b).rxCk b).rxCount.toNat = s.rxCount.toNat + 1 := toNat_rxCount_succ hroom
  refine ⟨by rw [hnext]; exact hroom, fun i => h.stored_storeRx b hroom,
    fun _ => h.lengthDecoded_storeRx b (by omega), ?_⟩
  rw [h.rxCk_storeRx b hopen hsummed, hnext, State.rxCk_rxLen, State.storeRx_rxLen, Nat.min_eq_left (by omega)]
  rfl

/-- The second length byte, stored and summed, with N taken from both (rule R125). -/
theorem ReceivedInv.storeRx_length {s : State} (h : ReceivedInv s) (b : Byte) (hcount : s.rxCount.toNat = 2)
    (hroom : s.rxCount.toNat < rxBufBytes s.params) : ReceivedInv ((s.storeRx b).rxCk b).loadRxLen := by
  have hnext : ((s.storeRx b).rxCk b).loadRxLen.rxCount.toNat = s.rxCount.toNat + 1 := toNat_rxCount_succ hroom
  refine ⟨by rw [hnext]; exact hroom, fun i => h.stored_storeRx b hroom, fun _ => rfl, ?_⟩
  have hck := h.rxCk_storeRx b (by omega) (by omega)
  rw [hnext, Nat.min_eq_left (by omega)]
  exact hck

/-- A trailer byte is stored and not summed (rule R128). -/
theorem ReceivedInv.storeRx_trailer {s : State} (h : ReceivedInv s) (b : Byte)
    (htrailer : 3 + s.rxLen.toNat ≤ s.rxCount.toNat) (hroom : s.rxCount.toNat < rxBufBytes s.params) :
    ReceivedInv (s.storeRx b) := by
  have hnext : (s.storeRx b).rxCount.toNat = s.rxCount.toNat + 1 := toNat_rxCount_succ hroom
  refine ⟨by rw [hnext]; exact hroom, fun i => h.stored_storeRx b hroom,
    fun _ => h.lengthDecoded_storeRx b (by omega), ?_⟩
  have hck := h.runningCk
  rw [Nat.min_eq_right htrailer] at hck
  rw [hnext, State.storeRx_rxLen, Nat.min_eq_right (by omega), sliceBytes_storeRx s b htrailer, ← hck]
  rfl

/-! ### SYNC's place in the message -/

/-- Every byte the place names has been received: the marker stands first once a message is open. -/
theorem positionInv_congr {s t : State} (h : positionInv s) (hmsg : receivedMessage t = receivedMessage s)
    (hsync : t.syncState = s.syncState) (hparams : t.params = s.params)
    (hmarker : 1 ≤ s.rxCount.toNat → t.rxByteAt 0 = s.rxByteAt 0) : positionInv t := by
  obtain ⟨-, hcount, hlen, -, -⟩ : t.rxBuf = s.rxBuf ∧ t.rxCount = s.rxCount ∧ t.rxLen = s.rxLen ∧
      t.rxckA = s.rxckA ∧ t.rxckB = s.rxckB := by simpa [receivedMessage] using hmsg
  unfold positionInv acceptedLength at h ⊢
  rw [hsync, hcount, hlen, hparams]
  cases hs : s.syncState <;> simp only [hs] at h ⊢
  case awaitingMarker => exact h
  case failed => exact h
  all_goals
    rw [hmarker (by omega)]
    exact h

/-- The entry into Failed: N is 0 unless the header is complete (rules R122 and R127). -/
theorem positionInv_fail {s : State} {cls : FailClass} {st : ReadState} {ev : FailEvent}
    (h : s.rxCount.toNat < 3 → s.rxLen.toNat = 0) : positionInv (s.fail cls st ev) := h

/-- In a read state N is 0 unless the header is complete. -/
theorem State.Inv.rxLen_eq_zero {s : State} (h : s.Inv) {st : ReadState} (hst : s.syncState.readState? = some st)
    (hheader : s.rxCount.toNat < 3) : s.rxLen.toNat = 0 := by
  have hpos := h.position
  unfold positionInv at hpos
  rcases (readState?_eq_some_iff _ _).1 hst with ⟨-, hs⟩ | ⟨-, hs⟩ | ⟨-, hs⟩ <;> simp only [hs] at hpos <;> omega

/-- The invariants look at the receive side, the record and the buffers alone. -/
theorem State.Inv.congr {s t : State} (h : s.Inv) (hmsg : receivedMessage t = receivedMessage s)
    (hsync : t.syncState = s.syncState) (hparams : t.params = s.params) (hrecord : recordInv t)
    (hbuffers : BuffersInv t.params t.rxBuf t.txBuf) : t.Inv := by
  have hrx : t.rxBuf = s.rxBuf := congrArg Prod.fst hmsg
  exact t.inv_iff.2 ⟨hbuffers, hrecord, h.received.congr hmsg hparams,
    positionInv_congr h.position hmsg hsync hparams fun hopen => rxByteAt_stored hrx (h.stored 0 hopen)⟩

end Sys2Proof.Machine
end

section
/-! Every step keeps the invariants: each entry into a state of SYNC, each command, each host access, each received
byte and reset. -/
namespace Sys2Proof.Machine

/-- A new message awaited in an open session meets the invariants (10_state.md rule R46, 43_stream_sync.md rules R130
and R133). -/
theorem inv_of_newMessage {s : State} (hbuffers : BuffersInv s.params s.rxBuf s.txBuf)
    (hsync : s.syncState = .awaitingMarker) (hcount : s.rxCount = 0) (hlen : s.rxLen = 0) (hckA : s.rxckA = 0)
    (hckB : s.rxckB = 0) (hrecord : s.closed = false ∧ recordEmpty s) : s.Inv := by
  refine s.inv_iff.2 ⟨hbuffers, (recordInv_open_iff (by rw [hsync]; rfl)).2 hrecord,
    receivedInv_of_zero hcount hckA hckB, ?_⟩
  simp [positionInv, hsync, hcount, hlen]

/-- The entry into Failed from a read state, with one of the thirteen causes (60_exceptions.md rule R166). -/
theorem State.Inv.fail {s : State} (h : s.Inv) {st : ReadState} (hst : s.syncState.readState? = some st)
    {cls : FailClass} {ev : FailEvent} (hcause : (cls, st, ev) ∈ failureRecords) : (s.fail cls st ev).Inv :=
  (State.inv_iff _).2
    ⟨h.buffers, recordInv_fail hcause, h.received.congr rfl rfl, positionInv_fail (h.rxLen_eq_zero hst)⟩

/-- Outside the terminal states the session is open and nothing is recorded. -/
theorem State.Inv.openRecord {s : State} (h : s.Inv) (hs : s.syncState.isTerminal = false) :
    s.closed = false ∧ recordEmpty s := (recordInv_open_iff hs).1 h.record

/-- The entry into Stopped from Dispatch (43_stream_sync.md rule R131). -/
theorem State.Inv.enterStopped {s : State} (h : s.Inv) (hd : s.syncState = .dispatch) : s.enterStopped.Inv := by
  obtain ⟨-, hempty⟩ := h.openRecord (by rw [hd]; rfl)
  have hpos := h.position
  simp only [positionInv, hd] at hpos
  exact (State.inv_iff _).2 ⟨h.buffers, (recordInv_stopped_iff rfl).2 ⟨rfl, hempty⟩, h.received.congr rfl rfl, hpos⟩

/-- A command keeps the invariants: only SYNC's two write what they are about. -/
theorem exec_command_inv {i : Instr} {s t : State} (hi : i.isEvent = false) (hs : s.Inv) (h : exec i s = .next t) :
    t.Inv := by
  rcases exec_command_cases hi h with ⟨e, rfl⟩ | ⟨src, v, -, rfl⟩ | ⟨c, -, rfl⟩ | ⟨l, c, -, rfl⟩ | ⟨p, rfl, ht⟩ |
    ⟨-, rfl⟩
  case inr.inr.inr.inr.inl =>
    by_cases hd : s.syncState = .dispatch
    · rcases ht with rfl | rfl
      · have hstop := hs.enterStopped hd
        exact hstop.congr rfl rfl rfl hstop.record hstop.buffers
      · exact inv_of_newMessage hs.buffers rfl rfl rfl rfl rfl (hs.openRecord (by rw [hd]; rfl))
    · obtain rfl := next_eq ((exec_syncAck_stateError p hd).symm.trans h)
      exact hs.congr rfl rfl rfl hs.record hs.buffers
  case inr.inr.inr.inr.inr => exact inv_of_newMessage hs.buffers rfl rfl rfl rfl rfl ⟨rfl, rfl, rfl, rfl⟩
  all_goals exact hs.congr rfl rfl rfl hs.record hs.buffers

/-- The command step keeps the invariants. -/
theorem commandStep_inv {w : Word} {s t : State} (hs : s.Inv) (h : commandStep w s = .next t) : t.Inv := by
  rcases commandStep_cases h with rfl | ⟨i, hi, -, hx⟩
  · exact hs.congr rfl rfl rfl hs.record hs.buffers
  · exact exec_command_inv hi hs hx

/-- A host access keeps the invariants: it writes nothing of the receive side, and TX_BUF inside its storage alone. -/
theorem hostAccess_inv {a : HostAccess} {s t : State} (hs : s.Inv) (h : hostAccess a s = .next t) : t.Inv := by
  rcases hostAccess_cases a s with e | ⟨c, e⟩ | ⟨b, e⟩ | ⟨b, e⟩ | ⟨i, v, hi, e⟩ | ⟨c, v, e⟩ | ⟨w, -, e⟩ <;> rw [e] at h
  case inr.inr.inr.inr.inr.inr =>
    exact commandStep_inv (s := s.respond .done) (hs.congr rfl rfl rfl hs.record hs.buffers) h
  all_goals obtain rfl := next_eq h
  case inr.inr.inr.inr.inl => exact hs.congr rfl rfl rfl hs.record (hs.buffers.writeTx v hi)
  case inr.inr.inr.inr.inr.inl => cases c <;> exact hs.congr rfl rfl rfl hs.record hs.buffers
  all_goals exact hs.congr rfl rfl rfl hs.record hs.buffers

/-! ### A received byte -/

/-- Acting on a stored byte keeps the parameters. -/
@[simp] theorem byteAction_params (st : ReadState) (k : Nat) (b : Byte) (s : State) :
    (byteAction st k b s).params = s.params := by rw [byteAction_frame]

/-- Acting on a stored byte keeps TX_BUF. -/
@[simp] theorem byteAction_txBuf (st : ReadState) (k : Nat) (b : Byte) (s : State) :
    (byteAction st k b s).txBuf = s.txBuf := by rw [byteAction_frame]

/-- Acting on a stored byte in a read state leaves the record right: it stays empty, or takes the byte's cause. -/
theorem byteAction_recordInv (st : ReadState) (k : Nat) (b : Byte) {s : State}
    (hs : s.syncState.isTerminal = false) (h : recordInv s) : recordInv (byteAction st k b s) := by
  have hopen := (recordInv_open_iff hs).1 h
  obtain ⟨u, hu, hact⟩ := byteAction_cases st k b s
  rcases hact with hact | ⟨x, hfailed, hstopped, hact⟩ | ⟨cls, hcause, hact⟩ <;> rw [hact]
  · rcases hu with rfl | rfl | rfl <;> exact h
  · refine (recordInv_open_iff (isTerminal_of_ne hfailed hstopped)).2 ?_
    rcases hu with rfl | rfl | rfl <;> exact hopen
  · exact recordInv_fail hcause

/-- The marker byte, stored and checked, keeps the message and SYNC's place in it (43_stream_sync.md rule R124). -/
theorem State.Inv.markerAction_storeRx {s : State} (h : s.Inv) (hs : s.syncState = .awaitingMarker) (b : Byte) :
    ReceivedInv (markerAction b (s.storeRx b)) ∧ positionInv (markerAction b (s.storeRx b)) := by
  have hroom := h.room_readState (.inl hs)
  have hcount := h.count_awaitingMarker hs
  have hlen := h.rxLen_eq_zero (st := .awaitingMarker) (by rw [hs]; rfl) (by omega)
  have hmsg := h.received.storeRx_marker b hcount hroom
  have hnext : (s.storeRx b).rxCount.toNat = s.rxCount.toNat + 1 := toNat_rxCount_succ hroom
  by_cases hb : b = s.params.rxMarker
  · rw [markerAction_of_eq (s := s.storeRx b) hb]
    refine ⟨hmsg.congr rfl rfl, .inl (by rw [State.setSync_rxCount]; omega), hlen, ?_⟩
    exact (rxByteAt_storeRx s b 0).trans ((if_pos hcount.symm).trans hb)
  · rw [markerAction_of_ne (s := s.storeRx b) hb]
    exact ⟨hmsg.congr rfl rfl, positionInv_fail fun _ => hlen⟩

/-- The length check keeps the message, and places SYNC in the body of an accepted one (rule R127). -/
theorem lengthCheck_inv {s : State} (hmsg : ReceivedInv s) (hcount : s.rxCount.toNat = 3)
    (hmarker : s.rxByteAt 0 = s.params.rxMarker) :
    ReceivedInv (lengthCheck s.rxLen.toNat s) ∧ positionInv (lengthCheck s.rxLen.toNat s) := by
  unfold lengthCheck
  split_ifs with hzero hcap
  · exact ⟨hmsg.congr rfl rfl, positionInv_fail (by omega)⟩
  · exact ⟨hmsg.congr rfl rfl, positionInv_fail (by omega)⟩
  · exact ⟨hmsg.congr rfl rfl, hcount.ge, by rw [State.setSync_rxCount]; omega,
      ⟨Nat.one_le_iff_ne_zero.2 hzero, Nat.lt_of_not_le hcap⟩, hmarker⟩

/-- The end of a message keeps it, and places SYNC in Dispatch unless the trailer is wrong (rules R128 and R129). -/
theorem messageEnd_inv {s : State} (hmsg : ReceivedInv s) (hcount : s.rxCount.toNat = s.rxLen.toNat + 6)
    (hlen : acceptedLength s) (hmarker : s.rxByteAt 0 = s.params.rxMarker) :
    ReceivedInv (messageEnd s) ∧ positionInv (messageEnd s) := by
  unfold messageEnd
  split_ifs
  · exact ⟨hmsg.congr rfl rfl, positionInv_fail (by omega)⟩
  · exact ⟨hmsg.congr rfl rfl, hcount, hlen, hmarker⟩

/-- A length byte, stored, summed and at the second one checked, keeps the message and SYNC's place in it (rules R125
and R127). -/
theorem State.Inv.lengthAction_storeRx {s : State} (h : s.Inv) (hs : s.syncState = .readingLength) (b : Byte) :
    ReceivedInv (lengthAction s.rxCount.toNat b (s.storeRx b)) ∧
      positionInv (lengthAction s.rxCount.toNat b (s.storeRx b)) := by
  have hroom := h.room_readState (.inr (.inl hs))
  have hpos := h.position
  simp only [positionInv, hs] at hpos
  obtain ⟨hcount, hlen, hmarker⟩ := hpos
  have hmarker : (s.storeRx b).rxByteAt 0 = s.params.rxMarker := by
    rw [rxByteAt_storeRx, if_neg (by omega), hmarker]
  have hnext : (s.storeRx b).rxCount.toNat = s.rxCount.toNat + 1 := toNat_rxCount_succ hroom
  unfold lengthAction
  split_ifs with hsecond
  · have hdone : ((s.storeRx b).rxCk b).loadRxLen.rxCount.toNat = 3 := by rw [hsecond] at hnext; exact hnext
    exact lengthCheck_inv (h.received.storeRx_length b hsecond hroom) hdone hmarker
  · refine ⟨h.received.storeRx_summed b (by omega) (by omega) hsecond hroom, ?_⟩
    have hsync : ((s.storeRx b).rxCk b).syncState = .readingLength := hs
    simp only [positionInv, hsync]
    exact ⟨.inr (by rw [State.rxCk_rxCount]; omega), hlen, hmarker⟩

/-- A body byte, stored, summed in the payload and at the last one checked, keeps the message and SYNC's place in it
(rules R128 and R129). -/
theorem State.Inv.bodyAction_storeRx {s : State} (h : s.Inv) (hs : s.syncState = .readingBody) (b : Byte) :
    ReceivedInv (bodyAction s.rxCount.toNat b (s.storeRx b)) ∧
      positionInv (bodyAction s.rxCount.toNat b (s.storeRx b)) := by
  have hroom := h.room_readState (.inr (.inr hs))
  have hpos := h.position
  simp only [positionInv, hs] at hpos
  obtain ⟨hheader, hend, hlen, hmarker⟩ := hpos
  have hmarker : (s.storeRx b).rxByteAt 0 = s.params.rxMarker := by
    rw [rxByteAt_storeRx, if_neg (by omega), hmarker]
  have hnext : (s.storeRx b).rxCount.toNat = s.rxCount.toNat + 1 := toNat_rxCount_succ hroom
  have hsync : (s.storeRx b).syncState = .readingBody := hs
  by_cases hpayload : s.rxCount.toNat < 3 + s.rxLen.toNat
  case pos =>
    rw [bodyAction_payload b (s := s.storeRx b) hpayload]
    refine ⟨h.received.storeRx_summed b (by omega) hpayload (by omega) hroom, ?_⟩
    simp only [positionInv, State.rxCk_syncState, hsync]
    exact ⟨by rw [State.rxCk_rxCount]; omega, by rw [State.rxCk_rxCount, State.rxCk_rxLen, State.storeRx_rxLen]; omega,
      hlen, hmarker⟩
  have htrailer := Nat.le_of_not_lt hpayload
  have hmsg := h.received.storeRx_trailer b htrailer hroom
  by_cases hlast : s.rxCount.toNat = s.rxLen.toNat + 5
  · rw [bodyAction_last b (s := s.storeRx b) hlast]
    exact messageEnd_inv hmsg (by rw [State.storeRx_rxLen]; omega) hlen hmarker
  · rw [bodyAction_trailer b (s := s.storeRx b) htrailer (by rw [State.storeRx_rxLen]; omega)]
    refine ⟨hmsg, ?_⟩
    simp only [positionInv, hsync]
    exact ⟨by omega, by rw [State.storeRx_rxLen]; omega, hlen, hmarker⟩

/-- A byte received in a read state keeps the invariants (rule R123). -/
theorem State.Inv.byteAction_storeRx {s : State} (h : s.Inv) {st : ReadState}
    (hst : s.syncState.readState? = some st) (b : Byte) :
    (byteAction st s.rxCount.toNat b (s.storeRx b)).Inv := by
  have hroom := h.room_readState ((readState?_isSome_iff _).1 (by rw [hst]; rfl))
  have hmsg : ReceivedInv (byteAction st s.rxCount.toNat b (s.storeRx b)) ∧
      positionInv (byteAction st s.rxCount.toNat b (s.storeRx b)) := by
    rcases (readState?_eq_some_iff _ _).1 hst with ⟨rfl, hs⟩ | ⟨rfl, hs⟩ | ⟨rfl, hs⟩
    · exact h.markerAction_storeRx hs b
    · exact h.lengthAction_storeRx hs b
    · exact h.bodyAction_storeRx hs b
  refine (State.inv_iff _).2 ⟨?_, byteAction_recordInv st _ b (isTerminal_of_readState? hst) h.record, hmsg⟩
  rw [byteAction_params, byteAction_rxBuf, byteAction_txBuf]
  exact h.buffers.writeRx b hroom

/-- A receive event keeps the invariants. -/
theorem exec_event_inv {i : Instr} {s t : State} (hi : i.isEvent = true) (hs : s.Inv) (h : exec i s = .next t) :
    t.Inv := by
  have hconsumed : s.consumeEvent.Inv := hs.congr rfl rfl rfl hs.record hs.buffers
  rcases exec_event_cases hi h with ⟨-, rfl⟩ | ⟨st, ev, hst, hev, rfl⟩ | ⟨st, b, hst, -, -, rfl⟩
  · exact hs
  · exact hconsumed.fail hst (transportError_record_mem st (by tauto))
  · exact hconsumed.byteAction_storeRx hst b

/-- Reset leaves the invariants, whatever it found (70_reset_and_hazards.md rule R190). -/
theorem assertReset_inv {s : State} (h : s.params.Legal) : s.assertReset.Inv :=
  inv_of_newMessage (buffersInv_nil h) rfl rfl rfl rfl rfl ⟨rfl, rfl, rfl, rfl⟩

/-- Every step keeps the invariants. -/
theorem step_inv {s t : State} (hs : s.Inv) (h : step s = .next t) : t.Inv := by
  have hside : ∀ ts q, ({ s with turns := ts, hostq := q } : State).Inv := fun ts q =>
    hs.congr rfl rfl rfl hs.record hs.buffers
  rcases step_cases s with ⟨-, e⟩ | ⟨ts, -, -, e⟩ | ⟨ts, a, q, -, -, e⟩ | ⟨ts, -, -, e⟩ | ⟨ts, w, r, -, -, e⟩ |
    ⟨ts, -, e⟩ <;> rw [e] at h
  case inr.inr.inl => exact hostAccess_inv (hside ts q) h
  case inr.inr.inr.inr.inl => exact exec_event_inv (decodeEvent_isEvent w) (hside ts s.hostq) h
  all_goals obtain rfl := next_eq h
  case inl => exact hs
  case inr.inr.inr.inr.inr => exact assertReset_inv hs.legal
  all_goals exact hside ts s.hostq

end Sys2Proof.Machine

namespace Sys2Proof
open Machine

/-- Settles O57: each way a step can act keeps the four parts of the invariants. -/
theorem everyStepKeepsTheInvariants : Obligations.EveryStepKeepsTheInvariants :=
  fun _ _ hs h => step_inv hs h

/-- Settles O56: at reset a new message is awaited in an open session, with the default parameters. -/
theorem invariantsHoldAtReset : Obligations.InvariantsHoldAtReset :=
  inv_of_newMessage (buffersInv_nil (by decide)) rfl rfl rfl rfl rfl ⟨rfl, rfl, rfl, rfl⟩

end Sys2Proof
end

section
/-! Encoding and decoding (30_encoding.md rules R71 to R74): a laid-out command word as a number, the fields it holds,
and the word laid out again from a word's fields. -/
namespace Sys2Proof.Machine
open Laws.EncodedRow (row)

/-- Two bit vectors side by side, as a number. -/
theorem toNat_append {m n : Nat} (hi : BitVec m) (lo : BitVec n) :
    (hi ++ lo).toNat = hi.toNat * 2 ^ n + lo.toNat := by
  rw [BitVec.toNat_append, ← Nat.shiftLeft_add_eq_or_of_lt lo.isLt, Nat.shiftLeft_eq]

/-- A laid-out command word as a number: each field at its place, the reserved bits 0 (rule R71). -/
theorem cmdWord_toNat (op : Byte) (src stop : BitVec 1) (imm8 : Byte) :
    (cmdWord op src stop imm8).toNat =
      op.toNat + 256 * src.toNat + 512 * stop.toNat + 65536 * imm8.toNat := by
  simp only [cmdWord, toNat_append, BitVec.ofNat_eq_ofNat, BitVec.toNat_ofNat]
  omega

/-- A field of one bit, as a number. -/
theorem toNat_ofBool_getLsbD (w : Word) (k : Nat) : (BitVec.ofBool (w.getLsbD k)).toNat = w.toNat / 2 ^ k % 2 := by
  rw [BitVec.getLsbD, Nat.testBit_eq_decide_div_mod_eq]
  rcases Nat.mod_two_eq_zero_or_one (w.toNat / 2 ^ k) with h | h <;> simp [h]

/-- SRC as a bit is bit 8 (rules R71 and R73). -/
theorem srcBit_cmdSrc (w : Word) : srcBit (cmdSrc w) = BitVec.ofBool (w.getLsbD 8) := by
  unfold cmdSrc
  cases w.getLsbD 8 <;> rfl

/-- OP as a number (rule R71). -/
theorem cmdOp_toNat (w : Word) : (cmdOp w).toNat = w.toNat % 256 := by simp [cmdOp]

/-- SRC of a laid-out command word. -/
theorem cmdSrc_cmdWord (op : Byte) (src : Src) (stop : BitVec 1) (imm8 : Byte) :
    cmdSrc (cmdWord op (srcBit src) stop imm8) = src := by
  simp only [cmdSrc, cmdWord, BitVec.getLsbD_append]
  cases src <;> rfl

/-- STOP of a laid-out command word. -/
theorem cmdStop_cmdWord (op : Byte) (src : BitVec 1) (stop : Bool) (imm8 : Byte) :
    cmdStop (cmdWord op src (BitVec.ofBool stop) imm8) = stop := by
  simp only [cmdStop, cmdWord, BitVec.getLsbD_append]
  cases stop <;> rfl

/-- IMM8 of a laid-out command word. -/
theorem cmdImm8_cmdWord (op : Byte) (src stop : BitVec 1) (imm8 : Byte) :
    cmdImm8 (cmdWord op src stop imm8) = imm8 := by
  rw [cmdImm8_eq_iff, cmdWord_toNat]
  omega

/-- The reserved bits [15:10] as a number (rule R71). -/
theorem reservedLow_eq_zero {w : Word} (h : w &&& 0x0000FC00 = 0) : w.toNat / 1024 % 64 = 0 := by
  have hmask : w.toNat &&& 64512 = 0 := congrArg BitVec.toNat h
  have hfield : (w.toNat &&& 64512) / 1024 = w.toNat / 1024 % 64 := by
    rw [Nat.and_div_two_pow (n := 10)]
    exact Nat.and_two_pow_sub_one_eq_mod _ 6
  omega

/-- The reserved bits [31:24] as a number (rule R71). -/
theorem reservedHigh_eq_zero {w : Word} (h : w &&& 0xFF000000 = 0) : w.toNat / 16777216 = 0 := by
  have hmask : w.toNat &&& 4278190080 = 0 := congrArg BitVec.toNat h
  have hfield : (w.toNat &&& 4278190080) / 16777216 = w.toNat / 16777216 % 256 := by
    rw [Nat.and_div_two_pow (n := 24)]
    exact Nat.and_two_pow_sub_one_eq_mod _ 8
  omega

/-- A word whose reserved bits are 0 is laid out from its own fields (rule R71). -/
theorem cmdWord_of_fields {w : Word} (hlow : w &&& 0x0000FC00 = 0) (hhigh : w &&& 0xFF000000 = 0) :
    w = cmdWord (cmdOp w) (srcBit (cmdSrc w)) (BitVec.ofBool (cmdStop w)) (cmdImm8 w) := by
  have hreserved := reservedLow_eq_zero hlow
  have hreserved' := reservedHigh_eq_zero hhigh
  have himm := (cmdImm8_eq_iff w _).1 rfl
  apply BitVec.eq_of_toNat_eq
  rw [cmdWord_toNat, srcBit_cmdSrc, cmdStop, toNat_ofBool_getLsbD, toNat_ofBool_getLsbD, cmdOp_toNat, ← himm]
  omega

/-- IMM8 is 0 where its bits are (rule R71). -/
theorem cmdImm8_eq_zero {w : Word} (h : w &&& 0x00FF0000 = 0) : cmdImm8 w = 0 := by
  have hmask : w.toNat &&& 16711680 = 0 := congrArg BitVec.toNat h
  have hfield : (w.toNat &&& 16711680) / 65536 = w.toNat / 65536 % 256 := by
    rw [Nat.and_div_two_pow (n := 16)]
    exact Nat.and_two_pow_sub_one_eq_mod _ 8
  rw [cmdImm8_eq_iff]
  change w.toNat / 65536 % 256 = 0
  omega

/-- A word with only the fields its opcode uses is the word of the command its opcode stands for (rules R72 and R77). -/
theorem encode_commandAt {w : Word} {op : Nat} {i : Instr} (hop : w.toNat % 256 = op)
    (hfields : onlyUsedFields op w) (hi : commandAt op w = some i) : encode i = .cmd32 w := by
  obtain ⟨hlow, hhigh, hsrc, hstop, himm⟩ := hfields
  have hopByte : cmdOp w = BitVec.ofNat 8 op := by
    apply BitVec.eq_of_toNat_eq
    rw [cmdOp_toNat, BitVec.toNat_ofNat]
    omega
  have hsrcUnused (h1 : op ≠ 1) (h4 : op ≠ 4) : cmdSrc w = .rx :=
    if_neg fun hbit => (hsrc hbit).elim h1 h4
  have hstopUnused (h6 : op ≠ 6) : cmdStop w = false := Bool.eq_false_iff.2 fun hbit => h6 (hstop hbit)
  have himmUnused (h3 : op ≠ 3) : cmdImm8 w = 0 := cmdImm8_eq_zero (by_contra fun hne => h3 (himm hne))
  have hword := cmdWord_of_fields hlow hhigh
  rw [hopByte] at hword
  unfold commandAt at hi
  split at hi <;> cases hi
  case h_1 | h_3 | h_6 | h_8 =>
    rw [hsrcUnused (by decide) (by decide), hstopUnused (by decide), himmUnused (by decide)] at hword
    exact congrArg Encoded.cmd32 hword.symm
  case h_2 | h_5 =>
    rw [hstopUnused (by decide), himmUnused (by decide)] at hword
    exact congrArg Encoded.cmd32 hword.symm
  case h_4 =>
    rw [hsrcUnused (by decide) (by decide), hstopUnused (by decide)] at hword
    exact congrArg Encoded.cmd32 hword.symm
  case h_7 =>
    rw [hsrcUnused (by decide) (by decide), himmUnused (by decide)] at hword
    exact congrArg Encoded.cmd32 hword.symm

/-- A word that decodes has an opcode of the table and only the fields it uses, and stands for what it decodes to. -/
theorem fields_of_decodeCmd {w : Word} {i : Instr} (h : decodeCmd w = .ok i) :
    onlyUsedFields (w.toNat % 256) w ∧ commandAt (w.toNat % 256) w = some i := by
  obtain ⟨r, hr, hrow⟩ := exists_row_of_command (decodeCmd_isEvent h)
  obtain ⟨hmatch, hi⟩ := row_of_decodeCmd hrow h
  rw [← opcode_of_commandRow hr hmatch] at hi
  refine ⟨by_contra fun hfields => ?_, hi⟩
  obtain ⟨e, he⟩ := (decodeCmd_error_iff_fields w).2 fun ⟨_, hlegal⟩ => hfields hlegal
  cases h.symm.trans he

/-- A command is decoded from its own word where that holds its fields (rule R72). -/
theorem decode_encode_command {i : Instr} {w : Word} {r : Word × Word} (hrow : row i = .inl r)
    (he : encode i = .cmd32 w) (hstands : Laws.EncodedRow.Statement i)
    (hfields : commandAt (r.2.toNat % 256) w = some i) : decode (encode i) = .ok i := by
  simp only [Laws.EncodedRow.Statement, hrow, he] at hstands
  obtain ⟨hr, hmatch⟩ := hstands
  rw [he]
  exact (decodeCmd_eq_ok_iff w hrow hr).2 ⟨hmatch, hfields⟩

/-- KIND of a laid-out event word, as a number (rule R74). -/
theorem eventWord_toNat_div (kind : BitVec 2) (data : Byte) : (eventWord kind data).toNat / 256 = kind.toNat := by
  have hdata := data.isLt
  rw [eventWord, toNat_append_byte]
  omega

/-- DATA of a laid-out event word (rule R74). -/
theorem eventWord_data (kind : BitVec 2) (data : Byte) : (eventWord kind data).extractLsb' 0 8 = data := by
  rw [eventWord, BitVec.extractLsb'_append_eq_right]

/-- The event an event word laid out with KIND 0 holds: its byte. -/
theorem decodeEvent_byte (data : Byte) : decodeEvent (eventWord 0 data) = .rxByte data := by
  rw [decodeEvent_eq, eventWord_toNat_div, eventWord_data]
  rfl

/-- An event word with KIND 0 is laid out from its byte. -/
theorem eventWord_of_byte {w : EventWord} (h : w.toNat / 256 = 0) : eventWord 0 (w.extractLsb' 0 8) = w := by
  apply BitVec.eq_of_toNat_eq
  rw [eventWord, toNat_append_byte, BitVec.extractLsb'_toNat]
  simp
  omega

/-- The word the encoder writes for what an event word decodes to: its KIND, and its byte where KIND is BYTE
(rule R74). -/
theorem encode_decodeEvent (w : EventWord) :
    ∃ v, encode (decodeEvent w) = .rxevt10 v ∧ v.toNat / 256 = w.toNat / 256 ∧ (w.toNat / 256 = 0 → v = w) := by
  have hw := w.isLt
  rw [decodeEvent_eq]
  split_ifs with hbyte heos herr
  · exact ⟨_, rfl, congrArg (·.toNat / 256) (eventWord_of_byte hbyte), fun _ => eventWord_of_byte hbyte⟩
  · exact ⟨_, rfl, (eventWord_toNat_div 1 0).trans heos.symm, fun h => absurd h hbyte⟩
  · exact ⟨_, rfl, (eventWord_toNat_div 2 0).trans herr.symm, fun h => absurd h hbyte⟩
  · refine ⟨_, rfl, (eventWord_toNat_div 3 0).trans ?_, fun h => absurd h hbyte⟩
    change 3 = w.toNat / 256
    omega

end Sys2Proof.Machine

namespace Sys2Proof
open Machine

/-- Settles O1: each command's word stands in its row of the table and holds its fields, and each event's word has its
KIND. -/
theorem decodeOfEncodeIsIdentity : Obligations.DecodeOfEncodeIsIdentity := by
  intro i
  cases i with
  | nop => exact decode_encode_command rfl rfl Laws.EncodedRow.nop rfl
  | bfxExtract src =>
    exact decode_encode_command rfl rfl (Laws.EncodedRow.bfxExtract src)
      (congrArg (fun x => some (Instr.bfxExtract x)) (cmdSrc_cmdWord _ src _ _))
  | ckClear => exact decode_encode_command rfl rfl Laws.EncodedRow.ckClear rfl
  | ckByte x =>
    exact decode_encode_command rfl rfl (Laws.EncodedRow.ckByte x)
      (congrArg (fun x => some (Instr.ckByte x)) (cmdImm8_cmdWord _ _ _ x))
  | ckRange src =>
    exact decode_encode_command rfl rfl (Laws.EncodedRow.ckRange src)
      (congrArg (fun x => some (Instr.ckRange x)) (cmdSrc_cmdWord _ src _ _))
  | fencBuild => exact decode_encode_command rfl rfl Laws.EncodedRow.fencBuild rfl
  | syncAck stop =>
    exact decode_encode_command rfl rfl (Laws.EncodedRow.syncAck stop)
      (congrArg (fun x => some (Instr.syncAck x)) (cmdStop_cmdWord _ _ stop _))
  | syncRestart => exact decode_encode_command rfl rfl Laws.EncodedRow.syncRestart rfl
  | rxByte data => exact congrArg Except.ok (decodeEvent_byte data)
  | rxEos | rxErr | rxTimeout => rfl

/-- Settles O2: a command word is laid out from its own fields, and an event word from KIND and, where it has one, its
byte. -/
theorem encodeOfDecodeIsTheWord : Obligations.EncodeOfDecodeIsTheWord := by
  refine ⟨fun w i h => ?command, fun w => ?event⟩
  case command =>
    obtain ⟨hfields, hi⟩ := fields_of_decodeCmd h
    exact encode_commandAt rfl hfields hi
  case event =>
    obtain ⟨v, hv, hkind, hbyte⟩ := encode_decodeEvent w
    refine ⟨v, hv, ?_, fun h => hbyte ((and_kindMask_eq_iff w rfl).1 h)⟩
    rw [← BitVec.toNat_inj, and_kindMask_toNat, and_kindMask_toNat, hkind]

end Sys2Proof
end

section
/-! The step by whose turn it is (20_memory.md rule R63): idle where nothing is pending, the pending command or event
otherwise. -/
namespace Sys2Proof.Machine

/-- With no turn left nothing acts (60_exceptions.md rule R178). -/
theorem step_noTurn {s : State} (h : s.turns = []) : step s = .next s := by
  simp only [step, nextTurn, h]

/-- On the host's turn with no access pending, the turn passes. -/
theorem step_host_idle {s : State} {ts : List Turn} (h : s.turns = .host :: ts) (hq : s.hostq = []) :
    step s = .next { s with turns := ts } := by
  simp only [step, nextTurn, h, agentTurn, hostTurn, hq]

/-- On the receive port's turn with RXIN empty, the turn passes. -/
theorem step_receive_idle {s : State} {ts : List Turn} (h : s.turns = .receive :: ts) (hr : s.rxin = []) :
    step s = .next { s with turns := ts } := by
  simp only [step, nextTurn, h, agentTurn, receiveTurn, hr]

/-- On the receive port's turn the head of RXIN is offered to SYNC (rule R58). -/
theorem step_receive {s : State} {ts : List Turn} {w : EventWord} {r : List EventWord}
    (h : s.turns = .receive :: ts) (hr : s.rxin = w :: r) :
    step s = exec (decodeEvent w) { s with turns := ts } := by
  simp only [step, nextTurn, h, agentTurn, receiveTurn, hr]

/-- On the host's turn a pending CMD write is the command step, its access taken and answered (44_command_control.md
rule R150). -/
theorem step_command {s : State} {ts : List Turn} {w : Word} {q : List HostAccess} (h : s.turns = .host :: ts)
    (hq : s.hostq = .wr 32 0 w :: q) :
    step s = commandStep w { s with turns := ts, hostq := q, responses := s.responses ++ [.done] } := by
  rw [step_host h hq, hostAccess_cmd _ 0 w rfl]
  rfl

end Sys2Proof.Machine

namespace Sys2Proof
open Machine

/-- Settles O7: the step is the command step, by its two outcomes of decoding. -/
theorem stepRunsTheDecodedCommand : Obligations.StepRunsTheDecodedCommand := by
  intro s ts w q hts hq
  rw [step_command hts hq]
  exact ⟨fun i hd => commandStep_legal hd _, fun e hd => commandStep_illegal hd _⟩

/-- Settles O8. -/
theorem stepRunsTheDecodedEvent : Obligations.StepRunsTheDecodedEvent :=
  fun _ _ _ _ hts hr => step_receive hts hr

/-- Settles O9: each way of having nothing pending. -/
theorem stepIdlesWhenNothingIsPending : Obligations.StepIdlesWhenNothingIsPending :=
  ⟨fun _ hts => step_noTurn hts, fun _ _ hts hq => step_host_idle hts hq,
    fun _ _ hts hr => step_receive_idle hts hr⟩

/-- Settles O6, by evaluating the decoders on each word. -/
theorem specWordsDecodeToTheirInstructions : Obligations.SpecWordsDecodeToTheirInstructions := by
  unfold Obligations.SpecWordsDecodeToTheirInstructions
  decide

end Sys2Proof
end

section
/-! The frames of the commands and of the receive events: what each writes, and that every other field is kept. -/
namespace Sys2Proof.Machine

/-- `t` differs from `s` only in what a command can write: the outputs of the units, CMD_ERR, SYNC's registers and
record, and EVOUT. -/
def commandSideOnly (s t : State) : Prop :=
  t = { s with bfxRes := t.bfxRes, ckA := t.ckA, ckB := t.ckB, txout := t.txout, cmdErr := t.cmdErr,
               rxCount := t.rxCount, rxLen := t.rxLen, rxckA := t.rxckA, rxckB := t.rxckB,
               syncState := t.syncState, failClass := t.failClass, failState := t.failState,
               failEvent := t.failEvent, closed := t.closed, evout := t.evout }

/-- A command keeps to its side. -/
theorem exec_command_commandSide {i : Instr} {s t : State} (hi : i.isEvent = false) (h : exec i s = .next t) :
    commandSideOnly s t := by
  rcases exec_command_cases hi h with ⟨e, rfl⟩ | ⟨src, v, -, rfl⟩ | ⟨c, -, rfl⟩ | ⟨l, c, -, rfl⟩ | ⟨p, -, rfl | rfl⟩ |
    ⟨-, rfl⟩ <;> rfl

/-- The command step keeps to the commands' side. -/
theorem commandStep_commandSide {w : Word} {s t : State} (h : commandStep w s = .next t) : commandSideOnly s t := by
  rcases commandStep_cases h with rfl | ⟨i, hi, -, hx⟩
  · rfl
  · exact exec_command_commandSide hi hx

/-- What SYNC records of a session beside its registers, and EVOUT (10_state.md rules R25 and R43). -/
def sessionRecord (s : State) : FailClass × ReadState × FailEvent × Bool × List OutEvent :=
  (s.failClass, s.failState, s.failEvent, s.closed, s.evout)

/-- A command other than SYNC's two keeps the receive side and the session's record. -/
theorem exec_command_keepsSync {i : Instr} {s t : State} (hi : i.isEvent = false) (hack : ∀ p, i ≠ .syncAck p)
    (hrestart : i ≠ .syncRestart) (h : exec i s = .next t) :
    receiveSide t = receiveSide s ∧ sessionRecord t = sessionRecord s := by
  rcases exec_command_cases hi h with ⟨e, rfl⟩ | ⟨src, v, -, rfl⟩ | ⟨c, -, rfl⟩ | ⟨l, c, -, rfl⟩ | ⟨p, hp, -⟩ |
    ⟨hr, -⟩
  case inr.inr.inr.inr.inl => exact absurd hp (hack p)
  case inr.inr.inr.inr.inr => exact absurd hr hrestart
  all_goals exact ⟨rfl, rfl⟩

/-- A receive event's meaning takes no turn. -/
theorem exec_event_turns {i : Instr} {s t : State} (hi : i.isEvent = true) (h : exec i s = .next t) :
    t.turns = s.turns := by
  rcases exec_event_cases hi h with ⟨-, rfl⟩ | ⟨st, ev, -, -, rfl⟩ | ⟨st, b, -, -, -, rfl⟩
  · rfl
  · rfl
  · rw [byteAction_frame]
    rfl

/-- A receive event writes RX_BUF only as a byte, at the index RX_COUNT (43_stream_sync.md rule R123). -/
theorem exec_event_rxBuf {i : Instr} {s t : State} (hi : i.isEvent = true) (h : exec i s = .next t) :
    t.rxBuf = s.rxBuf ∨ ∃ b, i = .rxByte b ∧ t.rxBuf = Memory.write s.rxBuf s.rxCount.toNat b := by
  rcases exec_event_cases hi h with ⟨-, rfl⟩ | ⟨st, ev, -, -, rfl⟩ | ⟨st, b, -, hb, -, rfl⟩
  · exact .inl rfl
  · exact .inl rfl
  · exact .inr ⟨b, hb, byteAction_rxBuf _ _ _ _⟩

/-- A receive event changes no byte of RX_BUF but the one at the index RX_COUNT (rule R123). -/
theorem exec_event_read_rxBuf {i : Instr} {s t : State} (hi : i.isEvent = true) (h : exec i s = .next t) {a : Nat}
    (ha : a ≠ s.rxCount.toNat) : Memory.read t.rxBuf a = Memory.read s.rxBuf a := by
  rcases exec_event_rxBuf hi h with hkept | ⟨b, -, hwritten⟩
  · rw [hkept]
  · rw [hwritten, Memory.read_write, if_neg ha]

/-- A byte of RX_BUF reads the same where the buffer and the draws are the same there. -/
theorem rxByteAt_of_read {s t : State} {a : Nat} (hread : Memory.read t.rxBuf a = Memory.read s.rxBuf a)
    (hdraws : t.rxDraws = s.rxDraws) : t.rxByteAt a = s.rxByteAt a := by
  rw [State.rxByteAt, State.rxByteAt, hread, hdraws]

/-- In Dispatch, Failed and Stopped an event stays pending and nothing changes (rule R121). -/
theorem exec_event_pending {i : Instr} (hi : i.isEvent = true) {s : State} (h : s.syncState.readState? = none) :
    exec i s = .next s := by
  have hfail (ev : FailEvent) : transportFailure ev s = .next s := by simp only [transportFailure, h]
  cases i with
  | rxByte b => simp only [exec, execRxByte, h]
  | rxEos => exact hfail .eos
  | rxErr => exact hfail .err
  | rxTimeout => exact hfail .timeout
  | nop | bfxExtract | ckClear | ckByte | ckRange | fencBuild | syncAck | syncRestart => cases hi

/-- In a read state an event takes the head of RXIN and no more (rule R121). -/
theorem exec_event_rxin {i : Instr} {s t : State} (hi : i.isEvent = true)
    (hread : s.syncState.readState?.isSome = true) (h : exec i s = .next t) : t.rxin = s.rxin.tail := by
  rcases exec_event_cases hi h with ⟨hnone, -⟩ | ⟨st, ev, -, -, rfl⟩ | ⟨st, b, -, -, -, rfl⟩
  · rw [hnone] at hread
    cases hread
  · rfl
  · rw [byteAction_rxin]
    rfl

/-- The commands' side does not hold RXIN. -/
theorem commandSideOnly.rxin_eq {s t : State} (h : commandSideOnly s t) : t.rxin = s.rxin := by
  unfold commandSideOnly at h
  rw [h]

/-- The host's side does not hold RXIN. -/
theorem hostSideOnly.rxin_eq {s t : State} (h : hostSideOnly s t) : t.rxin = s.rxin := by
  unfold hostSideOnly at h
  rw [h]

/-- A host access keeps RXIN, a command it issues included. -/
theorem hostAccess_rxin {a : HostAccess} {s t : State} (h : hostAccess a s = .next t) : t.rxin = s.rxin := by
  rcases hostAccess_command_or_hostSide h with ⟨w, -, hc⟩ | hside
  · exact (commandStep_commandSide hc).rxin_eq
  · exact hside.rxin_eq

/-- Only the receive port's turn changes RXIN (rules R58 and R121). -/
theorem step_rxin {s t : State} (h : step s = .next t) (hturn : ∀ ts, s.turns ≠ .receive :: ts) :
    t.rxin = s.rxin := by
  rcases step_cases s with ⟨-, e⟩ | ⟨ts, -, -, e⟩ | ⟨ts, a, q, -, -, e⟩ | ⟨ts, hts, -⟩ | ⟨ts, w, r, hts, -⟩ |
    ⟨ts, -, e⟩
  case inr.inr.inl => exact hostAccess_rxin (s := { s with turns := ts, hostq := q }) (e ▸ h)
  case inr.inr.inr.inl | inr.inr.inr.inr.inl => exact absurd hts (hturn ts)
  all_goals
    obtain rfl := next_eq (e.symm.trans h)
    rfl

/-- The commands' side does not hold the parameters. -/
theorem commandSideOnly.params_eq {s t : State} (h : commandSideOnly s t) : t.params = s.params := by
  unfold commandSideOnly at h
  rw [h]

/-- The host's side does not hold the parameters. -/
theorem hostSideOnly.params_eq {s t : State} (h : hostSideOnly s t) : t.params = s.params := by
  unfold hostSideOnly at h
  rw [h]

/-- SYNC's side does not hold the parameters. -/
theorem receiveSideOnly.params_eq {s t : State} (h : receiveSideOnly s t) : t.params = s.params := by
  unfold receiveSideOnly at h
  rw [h]

end Sys2Proof.Machine

namespace Sys2Proof
open Machine

/-- Settles O29: the operands, both buffers and the model's own fields are on no command's side, and each output has
the commands that write it. -/
theorem commandsTouchOnlyTheirOwnState : Obligations.CommandsTouchOnlyTheirOwnState := by
  intro i s t hi h
  refine ⟨?operands, fun a => ?buffers, ?model, fun hbfx => ?bfxRes, fun hclear hbyte hrange hbuild => ?ck,
    fun hbuild => ?txout, fun hack hrestart => ?sync⟩
  case operands =>
    rw [exec_command_commandSide hi h]
    exact ⟨rfl, rfl, rfl, rfl, rfl, rfl, rfl⟩
  case buffers =>
    rw [exec_command_commandSide hi h]
    exact ⟨rfl, rfl, rfl, rfl⟩
  case model =>
    rw [exec_command_commandSide hi h]
    exact ⟨rfl, rfl, rfl, rfl, rfl, rfl, rfl⟩
  case bfxRes =>
    rcases exec_command_bfxRes hi h with hkept | ⟨src, hsrc, -⟩
    · exact hkept
    · exact absurd hsrc (hbfx src)
  case ck =>
    rcases exec_command_ck hi h with hkept | hwritten | ⟨x, hwritten⟩ | ⟨src, hwritten⟩ | hwritten
    · exact hkept
    · exact absurd hwritten hclear
    · exact absurd hwritten (hbyte x)
    · exact absurd hwritten (hrange src)
    · exact absurd hwritten hbuild
  case txout =>
    rcases exec_command_txout hi h with hkept | ⟨hwritten, -⟩
    · exact hkept
    · exact absurd hwritten hbuild
  case sync =>
    obtain ⟨hside, hrecord⟩ := exec_command_keepsSync hi hack hrestart h
    exact ⟨hside, by simpa [sessionRecord] using hrecord⟩

/-- Settles O36: everything of the host is off SYNC's side, and RX_BUF is written by the store of a byte alone. -/
theorem eventsTouchOnlyTheReceiveSide : Obligations.EventsTouchOnlyTheReceiveSide := by
  intro i s t hi h
  have hside := exec_event_receiveSide hi h
  have hdraws : t.rxDraws = s.rxDraws := by rw [hside]
  refine ⟨?host, fun a => ?txBuf, fun hbyte a => ?nonByte, fun a ha => ?byte, ?model⟩
  case host =>
    rw [hside]
    exact ⟨rfl, rfl, rfl, rfl, rfl, rfl, rfl, rfl, rfl, rfl, rfl, rfl⟩
  case txBuf =>
    rw [hside]
    exact ⟨rfl, rfl⟩
  case nonByte =>
    rcases exec_event_rxBuf hi h with hkept | ⟨b, hb, -⟩
    · exact ⟨rxByteAt_congr hkept hdraws a, by rw [hkept]⟩
    · exact absurd hb (hbyte b)
  case byte =>
    have hread := exec_event_read_rxBuf hi h ha
    exact ⟨rxByteAt_of_read hread hdraws, hread⟩
  case model =>
    refine ⟨hside.params_eq, ?_, exec_event_turns hi h, ?_, ?_, hdraws⟩ <;> rw [hside]

/-- Settles O30: an event's meaning takes the head of RXIN in a read state and stays pending elsewhere, and neither the
host nor reset touches RXIN. -/
theorem eventsAreConsumedOnlyInReadStates : Obligations.EventsAreConsumedOnlyInReadStates := by
  refine ⟨fun i s hi hs => exec_event_pending hi ((readState?_eq_none_iff _).2 hs),
    fun s t ts w r hts hr h => ⟨fun hs => ?consumed, fun hs => ?pending⟩, fun s t h hts => step_rxin h hts,
    fun s hs => ⟨_, exec_syncAck_ok false hs, rfl, rfl⟩, fun s hs => ⟨_, exec_syncRestart_ok hs, rfl, rfl⟩⟩
  all_goals rw [step_receive hts hr] at h
  case consumed =>
    have hrxin := exec_event_rxin (s := { s with turns := ts }) (decodeEvent_isEvent w)
      ((readState?_isSome_iff _).2 hs) h
    simpa [hr] using hrxin
  case pending =>
    rw [exec_event_pending (s := { s with turns := ts }) (decodeEvent_isEvent w)
      ((readState?_eq_none_iff _).2 hs)] at h
    exact next_eq h

/-- Settles O48: no side holds the parameters, and reset keeps them. -/
theorem noStepChangesTheParameters : Obligations.NoStepChangesTheParameters := by
  intro s t h
  rcases step_next_cases h with ⟨w, -, hc⟩ | ⟨w, r, -, he⟩ | ⟨-, rfl⟩ | hside
  · exact (commandStep_commandSide hc).params_eq
  · exact (exec_event_receiveSide (decodeEvent_isEvent w) he).params_eq
  · rfl
  · exact hside.params_eq

end Sys2Proof
end

section
/-! STATUS (10_state.md rule R25): each field, read at its bits, is the code of its part of the state. -/
namespace Sys2Proof.Machine

/-- The coded fields of STATUS, read at their bits. -/
theorem statusWord_fields (s : State) :
    (statusWord s).extractLsb' 0 4 = cmdErrCode s.cmdErr ∧
    (statusWord s).extractLsb' 4 3 = syncStateCode s.syncState ∧
    (statusWord s).extractLsb' 8 2 = failClassCode s.failClass ∧
    (statusWord s).extractLsb' 10 2 = failStateCode s.failState ∧
    (statusWord s).extractLsb' 12 3 = failEventCode s.failEvent ∧
    (statusWord s).extractLsb' 20 12 = 0 := by
  simp (disch := decide) only [statusWord, BitVec.extractLsb'_append_eq_of_le, Nat.reduceSub,
    BitVec.extractLsb'_append_eq_right, BitVec.extractLsb'_eq_self, and_self]

/-- The single bits of STATUS, the two reserved ones between its fields included. -/
theorem statusWord_bits (s : State) :
    (statusWord s).getLsbD 7 = false ∧ (statusWord s).getLsbD 15 = false ∧
    (statusWord s).getLsbD 17 = sessionEnd s ∧ (statusWord s).getLsbD 18 = s.closed ∧
    (statusWord s).getLsbD 19 = sessionOk s := by
  simp only [statusWord, BitVec.getLsbD_append]
  simp

end Sys2Proof.Machine

namespace Sys2Proof
open Machine

/-- Settles O53: the fields by their places in STATUS, their codes by the table of rule R25. -/
theorem statusFieldsStandAtTheirBits : Obligations.StatusFieldsStandAtTheirBits := by
  intro s
  obtain ⟨hcmdErr, hsync, hclass, hstate, hevent, hreserved⟩ := statusWord_fields s
  obtain ⟨hbit7, hbit15, hend, hclosed, hok⟩ := statusWord_bits s
  refine ⟨hcmdErr.trans ?_, hsync.trans ?_, hbit7, hclass.trans ?_, hstate.trans ?_, hevent.trans ?_, hbit15, ?_, ?_,
    hclosed, ?_, hreserved⟩
  · cases s.cmdErr <;> rfl
  · cases s.syncState <;> rfl
  · cases s.failClass <;> rfl
  · cases s.failState <;> rfl
  · cases s.failEvent <;> rfl
  · rw [readCsr, statusWord_msgReady]
    simp [msgReady]
  · rw [readCsr, hend]
    simp [sessionEnd]
  · rw [readCsr, hok]
    simp [sessionOk]

end Sys2Proof
end

section
/-! The buffer windows (20_memory.md rule R54): what an access reads, and the one host read that draws an unspecified
byte. -/
namespace Sys2Proof.Machine

/-- An address in RX_BUF's window is its base and the index. -/
theorem addr_of_regionOf_rx {p : Params} {addr i : Nat} (h : regionOf p addr = .rx i) :
    addr = rxBufBase + i ∧ i < rxBufBytes p := by
  unfold regionOf at h
  split_ifs at h with hcsr hrx
  injection h with hi
  omega

/-- An 8-bit read of RX_BUF. -/
theorem hostAccess_rd_rx {s : State} {i : Nat} {x : Word} (hx : x.toNat = rxBufBase + i)
    (hi : i < rxBufBytes s.params) : hostAccess (.rd 8 x) s = .next (hostReadRx i s) := by
  have hregion : regionOf s.params x.toNat = .rx i := by rw [hx, regionOf_rx _ hi]
  exact (hostRead_rx 8 hregion).trans (if_pos rfl)

/-- An 8-bit read of TX_BUF. -/
theorem hostAccess_rd_tx {s : State} {i : Nat} {x : Word} (hx : x.toNat = txBufBase + i)
    (hi : i < s.params.txBufBytes) : hostAccess (.rd 8 x) s = .next (s.respond (.byte (s.txByteAt i))) := by
  have hregion : regionOf s.params x.toNat = .tx i := by rw [hx, regionOf_tx _ hi]
  exact (hostRead_tx 8 hregion).trans (if_pos rfl)

/-- Below RX_COUNT the stored byte is answered. -/
theorem hostReadRx_stored {s : State} {i : Nat} (h : i < s.rxCount.toNat) :
    hostReadRx i s = s.respond (.byte (s.rxByteAt i)) := if_pos h

/-- At or above RX_COUNT a byte is drawn (93_implementation_defined.md U4). -/
theorem hostReadRx_drawn {s : State} {i : Nat} (h : s.rxCount.toNat ≤ i) :
    hostReadRx i s = s.drawRx.respond (.byte (Config.unspecifiedRx s.rxDraws i)) := if_neg (Nat.not_lt.2 h)

/-- A write in the RX_BUF window, and an access to it that is not 8 bits wide, is a bus error (rule R57). -/
theorem hostAccess_rx_error {a : HostAccess} {s : State} {i : Nat} (haddr : a.byteAddr = rxBufBase + i)
    (hi : i < rxBufBytes s.params) (hbad : a.bits ≠ 8 ∨ a.isWrite) : hostAccess a s = busError s :=
  (errsExactlyWhen_rx (by rw [haddr, regionOf_rx _ hi])).1 hbad

/-- An access to the TX_BUF window that is not 8 bits wide is a bus error (rule R57). -/
theorem hostAccess_tx_error {a : HostAccess} {s : State} {i : Nat} (haddr : a.byteAddr = txBufBase + i)
    (hi : i < s.params.txBufBytes) (hbad : a.bits ≠ 8) : hostAccess a s = busError s :=
  (errsExactlyWhen_tx (by rw [haddr, regionOf_tx _ hi])).1 hbad

/-- The host read draws an unspecified byte: 8 bits, inside RX_BUF, at or above RX_COUNT (log 9). -/
def drawsByte (bits addr : Nat) (s : State) : Prop :=
  bits = 8 ∧ rxBufBase + s.rxCount.toNat ≤ addr ∧ addr < rxBufBase + rxBufBytes s.params

/-- A read that draws a byte answers and counts it. -/
theorem hostAccess_rd_drawn {s : State} {bits : Nat} {x : Word} (h : drawsByte bits x.toNat s) :
    ∃ r, hostAccess (.rd bits x) s = .next (s.drawRx.respond r) := by
  obtain ⟨rfl, hcount, hinside⟩ := h
  have hx : x.toNat = rxBufBase + (x.toNat - rxBufBase) := by omega
  exact ⟨_, by rw [hostAccess_rd_rx hx (by omega), hostReadRx_drawn (by omega)]⟩

/-- In the CSR window a read answers and changes nothing. -/
theorem hostAccess_rd_csr {s : State} (bits : Nat) {x : Word} (hregion : regionOf s.params x.toNat = .csr) :
    ∃ r, hostAccess (.rd bits x) s = .next (s.respond r) := by
  by_cases hcsr : bits = 32 ∧ ∃ c, csrAt x.toNat = some c
  · obtain ⟨rfl, c, hc⟩ := hcsr
    exact ⟨_, hostAccess_readCsr s x (csrOffset_of_csrAt hc)⟩
  · refine ⟨_, hostAccess_csr_error (a := .rd bits x) hregion fun hbits => ?_⟩
    exact Option.eq_none_iff_forall_not_mem.2 fun c hc => hcsr ⟨hbits, c, hc⟩

/-- Any other read answers and changes nothing (20_memory.md rule R56). -/
theorem hostAccess_rd_kept {s : State} {bits : Nat} {x : Word} (h : ¬ drawsByte bits x.toNat s) :
    ∃ r, hostAccess (.rd bits x) s = .next (s.respond r) := by
  cases hregion : regionOf s.params x.toNat with
  | csr => exact hostAccess_rd_csr bits hregion
  | unmapped => exact ⟨_, hostAccess_unmapped (a := .rd bits x) hregion⟩
  | rx i =>
    obtain ⟨hx, hi⟩ := addr_of_regionOf_rx hregion
    by_cases hbits : bits = 8
    · subst hbits
      have hstored : i < s.rxCount.toNat := by
        by_contra hdrawn
        exact h ⟨rfl, by omega, by omega⟩
      exact ⟨_, by rw [hostAccess_rd_rx hx hi, hostReadRx_stored hstored]⟩
    · exact ⟨_, hostAccess_rx_error (a := .rd bits x) hx hi (.inl hbits)⟩
  | tx i =>
    by_cases hbits : bits = 8
    · exact ⟨_, (hostRead_tx bits hregion).trans (if_pos hbits)⟩
    · exact ⟨_, (hostRead_tx bits hregion).trans (if_neg hbits)⟩

end Sys2Proof.Machine

namespace Sys2Proof
open Machine

/-- Settles O51: the read that draws a byte, and every other one. -/
theorem hostReadsChangeNothing : Obligations.HostReadsChangeNothing := by
  intro s bits x
  by_cases hdraw : bits = 8 ∧ 0x00100000 + s.rxCount.toNat ≤ x.toNat ∧ x.toNat < 0x00100000 + rxBufBytes s.params
  · obtain ⟨r, hr⟩ := hostAccess_rd_drawn hdraw
    refine ⟨r, hr.trans ?_⟩
    rw [if_pos hdraw]
    rfl
  · obtain ⟨r, hr⟩ := hostAccess_rd_kept hdraw
    refine ⟨r, hr.trans ?_⟩
    rw [if_neg hdraw]
    rfl

/-- Settles O52: each window's reads and writes by its own equation, and a read after a write by the law of the
buffer. -/
theorem bufferAccessesReadBack : Obligations.BufferAccessesReadBack := by
  refine ⟨fun s bits i x v hbits haddr => ?width, fun s j y hj hy => ?readTx, fun s i j x y v hi hj hx hy => ?writeTx,
    fun s i x hi hx => ⟨fun hstored => ?stored, fun hdrawn => ?drawn, fun v => ?writeRx⟩⟩
  case width =>
    rcases haddr with ⟨hi, hx⟩ | ⟨hi, hx⟩
    · exact ⟨hostAccess_rx_error (a := .rd bits x) hx hi (.inl hbits),
        hostAccess_rx_error (a := .wr bits x v) hx hi (.inl hbits)⟩
    · exact ⟨hostAccess_tx_error (a := .rd bits x) hx hi hbits, hostAccess_tx_error (a := .wr bits x v) hx hi hbits⟩
  case readTx =>
    refine ⟨s.txByteAt j, hostAccess_rd_tx hy hj, fun c hc => ?_⟩
    rw [State.txByteAt, hc, Option.getD_some]
  case writeTx =>
    refine ⟨_, hostAccess_tx s x v hx hi, rfl, ?_, fun k hk => ?_⟩
    · rw [hostAccess_rd_tx (s := (s.writeTx i (v.extractLsb' 0 8)).respond .done) hy hj, ← txByteAt_writeTx]
      rfl
    · exact (Memory.read_write _ _ _ _).trans (if_neg hk)
  case stored =>
    rw [hostAccess_rd_rx hx hi, hostReadRx_stored hstored]
    rfl
  case drawn =>
    refine ⟨Config.unspecifiedRx s.rxDraws i, ?_⟩
    rw [hostAccess_rd_rx hx hi, hostReadRx_drawn hdrawn]
    rfl
  case writeRx => exact hostAccess_rx_error (a := .wr 8 x v) hx hi (.inr trivial)

end Sys2Proof
end

section
/-! RXCK reproduced by the host (41_checksum.md rule R105). -/
namespace Sys2Proof.Machine

/-- In Dispatch the bytes RXCK runs over are the length and the payload (43_stream_sync.md rule R126). -/
theorem State.Inv.rxck_dispatch {s : State} (h : s.Inv) (hd : s.syncState = .dispatch) :
    cksum (sliceBytes s.rxByteAt 1 (3 + s.rxLen.toNat)) = (s.rxckA, s.rxckB) := by
  have hcount := h.count_dispatch hd
  have hck := h.runningCk
  rw [Nat.min_eq_right (by omega)] at hck
  exact hck.symm

end Sys2Proof.Machine

namespace Sys2Proof
open Machine

/-- Settles O16: the range is inside RX_COUNT, and its bytes are those RXCK runs over. -/
theorem ckRangeReproducesTheReceiveChecksum : Obligations.CkRangeReproducesTheReceiveChecksum := by
  intro s hinv hd hstart hend
  have hcount := hinv.count_dispatch hd
  have hin : ¬ ckRangeOutOfRange .rx s = true := by
    rw [ckRangeOutOfRange_iff]
    rintro (⟨hsrc, -⟩ | ⟨-, hpast⟩)
    · cases hsrc
    · change s.rxCount.toNat < s.ckEnd.toNat at hpast
      omega
  have hck : cksum (ckRangeBytes .rx s) = (s.rxckA, s.rxckB) := by
    rw [ckRangeBytes, hstart, hend]
    exact hinv.rxck_dispatch hd
  rw [exec_ckRange_inRange hin, hck]
  rfl

end Sys2Proof
end

section
/-! A buffer written byte after byte. -/
namespace Sys2Proof.Machine

/-- The buffer with `bytes` written from index `i` on. -/
def Memory.writeBytes (m : Memory) (i : Nat) : List Byte → Memory
  | [] => m
  | b :: bytes => (m.write i b).writeBytes (i + 1) bytes

/-- The last byte is written last, behind the others. -/
theorem Memory.writeBytes_concat (m : Memory) (i : Nat) (bytes : List Byte) (b : Byte) :
    m.writeBytes i (bytes ++ [b]) = (m.writeBytes i bytes).write (i + bytes.length) b := by
  induction bytes generalizing m i with
  | nil => rfl
  | cons c bytes ih =>
    rw [List.cons_append, writeBytes, ih, writeBytes, List.length_cons, Nat.add_assoc i 1, Nat.add_comm 1]

/-- Below the bytes written, the buffer reads as before. -/
theorem Memory.read_writeBytes_below (m : Memory) {i j : Nat} (bytes : List Byte) (h : j < i) :
    Memory.read (m.writeBytes i bytes) j = Memory.read m j := by
  induction bytes generalizing m i with
  | nil => rfl
  | cons b bytes ih => rw [writeBytes, ih _ (by omega), Memory.read_write, if_neg (by omega)]

/-- Behind the bytes written, the buffer reads as before. -/
theorem Memory.read_writeBytes_above (m : Memory) {i j : Nat} (bytes : List Byte) (h : i + bytes.length ≤ j) :
    Memory.read (m.writeBytes i bytes) j = Memory.read m j := by
  induction bytes generalizing m i with
  | nil => rfl
  | cons b bytes ih =>
    rw [List.length_cons] at h
    rw [writeBytes, ih _ (by omega), Memory.read_write, if_neg (by omega)]

/-- The bytes written are read where they stand. -/
theorem Memory.read_writeBytes (m : Memory) (i : Nat) {j : Nat} (bytes : List Byte) (h : j < bytes.length) :
    Memory.read (m.writeBytes i bytes) (i + j) = bytes[j]? := by
  induction bytes generalizing m i j with
  | nil => cases h
  | cons b bytes ih =>
    rw [writeBytes]
    cases j with
    | zero =>
      change Memory.read _ i = some b
      rw [Memory.read_writeBytes_below _ _ (Nat.lt_succ_self i), Memory.read_write, if_pos rfl]
    | succ j =>
      rw [show i + (j + 1) = i + 1 + j by omega, ih _ _ (Nat.lt_of_succ_lt_succ h), List.getElem?_cons_succ]

end Sys2Proof.Machine
end

section
/-! A message received byte by byte (30_encoding.md rule R76, 43_stream_sync.md rules R123 to R129): what has been
received of it determines the state. -/
namespace Sys2Proof.Machine

/-- `s` after `bytes` of a message have been received since AwaitingMarker: SYNC is in state `x`, RX_LEN holds `len`,
and RXCK has run over `summed`. -/
def State.receiving (s : State) (x : SyncState) (len : Half) (bytes summed : List Byte) : State :=
  { s with rxin := s.rxin.drop bytes.length, syncState := x, rxLen := len, rxCount := BitVec.ofNat 32 bytes.length,
           rxBuf := s.rxBuf.writeBytes 0 bytes, rxckA := (cksum summed).1, rxckB := (cksum summed).2 }

/-- RX_COUNT counts the bytes received. -/
theorem receiving_count (s : State) (x : SyncState) (len : Half) {bytes : List Byte} (summed : List Byte)
    (h : bytes.length ≤ rxBufBytes s.params) :
    (s.receiving x len bytes summed).rxCount.toNat = bytes.length := by
  have hsize := rxBufBytes_le s.params
  rw [State.receiving, BitVec.toNat_ofNat, Nat.mod_eq_of_lt (by omega)]

/-- A state in AwaitingMarker with its message registers cleared has received nothing. -/
theorem receiving_nil_of_zero {s : State} (hs : s.syncState = .awaitingMarker) (hlen : s.rxLen = 0)
    (hcount : s.rxCount = 0) (hck : (s.rxckA, s.rxckB) = (0, 0)) : s.receiving .awaitingMarker 0 [] [] = s := by
  cases s
  cases hs
  cases hlen
  cases hcount
  cases hck
  rfl

/-- In AwaitingMarker, under the invariants, nothing has been received. -/
theorem State.Inv.receiving_nil {s : State} (h : s.Inv) (hs : s.syncState = .awaitingMarker) :
    s.receiving .awaitingMarker 0 [] [] = s := by
  have hcount := h.count_awaitingMarker hs
  have hlen := h.rxLen_eq_zero (st := .awaitingMarker) (by rw [hs]; rfl) (by omega)
  exact receiving_nil_of_zero hs (BitVec.eq_of_toNat_eq hlen) (BitVec.eq_of_toNat_eq hcount)
    (h.received.rxck_eq_zero (by omega))

/-- One more byte taken and stored. -/
theorem storeRx_receiving {s : State} (x : SyncState) (len : Half) {bytes : List Byte} (summed : List Byte) (b : Byte)
    (h : bytes.length < rxBufBytes s.params) :
    (s.receiving x len bytes summed).consumeEvent.storeRx b = s.receiving x len (bytes ++ [b]) summed := by
  have hcount := receiving_count s x len summed h.le
  simp only [State.storeRx, State.consumeEvent_rxBuf, State.consumeEvent_rxCount, hcount]
  simp only [State.consumeEvent, State.receiving, List.tail_drop, List.length_append, List.length_singleton,
    Memory.writeBytes_concat, Nat.zero_add, BitVec.ofNat_add]
  rfl

/-- One more byte summed. -/
theorem rxCk_receiving (s : State) (x : SyncState) (len : Half) (bytes summed : List Byte) (b : Byte) :
    (s.receiving x len bytes summed).rxCk b = s.receiving x len bytes (summed ++ [b]) := by
  simp only [State.receiving, cksum_concat]
  rfl

/-- The bytes received are read where they were stored. -/
theorem rxByteAt_receiving (s : State) (x : SyncState) (len : Half) {bytes : List Byte} (summed : List Byte) {j : Nat}
    {b : Byte} (h : bytes[j]? = some b) : (s.receiving x len bytes summed).rxByteAt j = b := by
  obtain ⟨hj, -⟩ := List.getElem?_eq_some_iff.1 h
  have hread := Memory.read_writeBytes s.rxBuf 0 bytes hj
  rw [Nat.zero_add, h] at hread
  rw [State.rxByteAt, State.receiving, hread, Option.getD_some]

/-- A byte received in a read state is stored behind the others and acted on (rule R123). -/
theorem receiveBytes_receiving {s : State} {x : SyncState} {st : ReadState} (len : Half) {bytes : List Byte}
    (summed : List Byte) (b : Byte) (rest : List Byte) (hx : x.readState? = some st)
    (h : bytes.length < rxBufBytes s.params) :
    receiveBytes (b :: rest) (s.receiving x len bytes summed) =
      receiveBytes rest (byteAction st bytes.length b (s.receiving x len (bytes ++ [b]) summed)) := by
  have hcount := receiving_count s x len summed h.le
  have hexec := exec_rxByte_stored (b := b) (s := s.receiving x len bytes summed) hx (by rw [hcount]; exact h)
  rw [hcount, storeRx_receiving x len summed b h] at hexec
  rw [receiveBytes, hexec]

/-- The marker received: it opens the message (rule R124). -/
theorem receiveBytes_marker (s : State) (rest : List Byte) :
    receiveBytes (s.params.rxMarker :: rest) (s.receiving .awaitingMarker 0 [] []) =
      receiveBytes rest (s.receiving .readingLength 0 [s.params.rxMarker] []) :=
  (receiveBytes_receiving (st := .awaitingMarker) _ _ _ _ rfl (lt_rxBufBytes_of_lt (by simp) _)).trans
    (congrArg (receiveBytes rest) (markerAction_of_eq (s := s.receiving _ _ [_] _) rfl))

/-- The first length byte received: it is summed (rule R125). -/
theorem receiveBytes_firstLength (s : State) (marker hi : Byte) (rest : List Byte) :
    receiveBytes (hi :: rest) (s.receiving .readingLength 0 [marker] []) =
      receiveBytes rest (s.receiving .readingLength 0 [marker, hi] [hi]) :=
  (receiveBytes_receiving (st := .readingLength) _ _ _ _ rfl (lt_rxBufBytes_of_lt (by simp) _)).trans
    (congrArg (receiveBytes rest) (rxCk_receiving ..))

/-- The second length byte received: it is summed, and the number of both is accepted (rules R125 and R127). -/
theorem receiveBytes_secondLength (s : State) (marker : Byte) {hi lo : Byte} (rest : List Byte)
    (hpos : (hi ++ lo).toNat ≠ 0) (hcap : (hi ++ lo).toNat < s.params.maxPayload) :
    receiveBytes (lo :: rest) (s.receiving .readingLength 0 [marker, hi] [hi]) =
      receiveBytes rest (s.receiving .readingBody (hi ++ lo) [marker, hi, lo] [hi, lo]) := by
  have hact : byteAction .readingLength 2 lo (s.receiving .readingLength 0 [marker, hi, lo] [hi]) =
      s.receiving .readingBody (hi ++ lo) [marker, hi, lo] [hi, lo] := by
    rw [byteAction, lengthAction_two, rxByteAt_receiving s _ _ _ (j := 1) rfl, rxByteAt_receiving s _ _ _ (j := 2) rfl,
      rxCk_receiving]
    exact lengthCheck_of_accepted hpos hcap
  exact (receiveBytes_receiving _ _ _ _ rfl (lt_rxBufBytes_of_lt (by simp) _)).trans
    (congrArg (receiveBytes rest) hact)

/-- The header received, with an accepted length. -/
theorem receiveBytes_header (s : State) {hi lo : Byte} (rest : List Byte) (hpos : (hi ++ lo).toNat ≠ 0)
    (hcap : (hi ++ lo).toNat < s.params.maxPayload) :
    receiveBytes ([s.params.rxMarker, hi, lo] ++ rest) (s.receiving .awaitingMarker 0 [] []) =
      receiveBytes rest (s.receiving .readingBody (hi ++ lo) [s.params.rxMarker, hi, lo] [hi, lo]) :=
  (receiveBytes_marker s _).trans ((receiveBytes_firstLength s _ hi _).trans
    (receiveBytes_secondLength s _ rest hpos hcap))

/-- Payload bytes received: each is stored and summed (rule R128). -/
theorem receiveBytes_payload {s : State} {len : Half} (hroom : len.toNat + 6 ≤ rxBufBytes s.params)
    (payload rest bytes summed : List Byte) (h : bytes.length + payload.length ≤ 3 + len.toNat) :
    receiveBytes (payload ++ rest) (s.receiving .readingBody len bytes summed) =
      receiveBytes rest (s.receiving .readingBody len (bytes ++ payload) (summed ++ payload)) := by
  induction payload generalizing bytes summed with
  | nil => rw [List.nil_append, List.append_nil, List.append_nil]
  | cons b payload ih =>
    rw [List.length_cons] at h
    have hact : byteAction .readingBody bytes.length b (s.receiving .readingBody len (bytes ++ [b]) summed) =
        s.receiving .readingBody len (bytes ++ [b]) (summed ++ [b]) := by
      have hpayload : bytes.length < 3 + len.toNat := by omega
      exact (bodyAction_payload b hpayload).trans (rxCk_receiving ..)
    rw [List.cons_append, receiveBytes_receiving _ _ _ _ rfl (by omega), hact,
      ih _ _ (by rw [List.length_append, List.length_singleton]; omega), List.append_assoc, List.append_assoc,
      List.singleton_append]

/-- The trailer received: its bytes are stored, and the last one ends the message (rules R128 and R129). -/
theorem receiveBytes_trailer {s : State} {len : Half} (hroom : len.toNat + 6 ≤ rxBufBytes s.params)
    (bytes summed : List Byte) (ta tb tc : Byte) (h : bytes.length = 3 + len.toNat) :
    receiveBytes [ta, tb, tc] (s.receiving .readingBody len bytes summed) =
      .next (messageEnd (s.receiving .readingBody len (bytes ++ [ta, tb, tc]) summed)) := by
  have hstored (b : Byte) (rest more : List Byte) (hmore : more.length < 2) :
      receiveBytes (b :: rest) (s.receiving .readingBody len (bytes ++ more) summed) =
        receiveBytes rest (s.receiving .readingBody len (bytes ++ (more ++ [b])) summed) := by
    have hlen : (bytes ++ more).length = 3 + len.toNat + more.length := by rw [List.length_append, h]
    rw [receiveBytes_receiving _ _ _ _ rfl (by omega), List.append_assoc]
    exact congrArg (receiveBytes rest) (bodyAction_trailer b (by change _ + len.toNat ≤ _; omega)
      (by change _ < len.toNat + 5; omega))
  have hlen : (bytes ++ [ta, tb]).length = len.toNat + 5 := by
    rw [List.length_append, h, List.length_cons, List.length_singleton]
    omega
  have hfirst := hstored ta [tb, tc] [] (by simp)
  rw [List.append_nil] at hfirst
  rw [hfirst, List.nil_append, hstored tb [tc] [ta] (by simp), List.singleton_append,
    receiveBytes_receiving _ _ _ _ rfl (by omega), List.append_assoc]
  exact congrArg Host.Outcome.next (bodyAction_last tc hlen)

/-- A message is 6 bytes longer than its payload (30_encoding.md rule R76). -/
theorem messageBytes_length (marker hi lo : Byte) (payload : List Byte) (ta tb tc : Byte) :
    (messageBytes marker hi lo payload ta tb tc).length = payload.length + 6 := by
  simp [messageBytes]

/-- The first two trailer bytes stand behind the payload. -/
theorem messageBytes_trailer (marker hi lo : Byte) (payload : List Byte) (ta tb tc : Byte) :
    (messageBytes marker hi lo payload ta tb tc)[3 + payload.length]? = some ta ∧
    (messageBytes marker hi lo payload ta tb tc)[4 + payload.length]? = some tb := by
  have hlen : ([marker, hi, lo] ++ payload).length = 3 + payload.length := by simp; omega
  unfold messageBytes
  rw [List.getElem?_append_right (by omega), List.getElem?_append_right (by omega), hlen,
    show 4 + payload.length = 3 + payload.length + 1 by omega, Nat.sub_self, Nat.add_sub_cancel_left]
  exact ⟨rfl, rfl⟩

/-- A whole message with an accepted length is stored and summed up to its end, where the trailer is looked at. -/
theorem State.Inv.receiveBytes_message {s : State} (hinv : s.Inv) (hs : s.syncState = .awaitingMarker)
    {hi lo : Byte} (ta tb tc : Byte) {payload : List Byte} (hlen : payload.length = (hi ++ lo).toNat)
    (hpos : 1 ≤ payload.length) (hcap : payload.length < s.params.maxPayload) :
    receiveBytes (messageBytes s.params.rxMarker hi lo payload ta tb tc) s =
      .next (messageEnd (s.receiving .readingBody (hi ++ lo) (messageBytes s.params.rxMarker hi lo payload ta tb tc)
        ([hi, lo] ++ payload))) := by
  have hroom : (hi ++ lo).toNat + 6 ≤ rxBufBytes s.params :=
    acceptedLength.messageFits (s := { s with rxLen := hi ++ lo }) ⟨hlen ▸ hpos, hlen ▸ hcap⟩
  conv_lhs => rw [← hinv.receiving_nil hs]
  change receiveBytes (messageBytes s.params.rxMarker hi lo payload ta tb tc) _ = _
  rw [messageBytes, List.append_assoc, receiveBytes_header s _ (by omega) (by omega),
    receiveBytes_payload hroom _ _ _ _ (by rw [hlen]; rfl),
    receiveBytes_trailer hroom _ _ _ _ _ (by rw [List.length_append, hlen]; rfl),
    List.append_assoc]

/-- The trailer of a whole message is right when its first two bytes are the checksum of length and payload
(43_stream_sync.md rule R129). -/
theorem trailerOk_message_iff (s : State) {hi lo : Byte} (ta tb tc : Byte) {payload : List Byte}
    (hlen : payload.length = (hi ++ lo).toNat) (marker : Byte) :
    trailerOk (s.receiving .readingBody (hi ++ lo) (messageBytes marker hi lo payload ta tb tc)
      ([hi, lo] ++ payload)) = true ↔ (ta, tb) = cksum ([hi, lo] ++ payload) := by
  obtain ⟨hta, htb⟩ := messageBytes_trailer marker hi lo payload ta tb tc
  rw [hlen] at hta htb
  rw [trailerOk_iff, Prod.ext_iff]
  change State.rxByteAt _ (3 + (hi ++ lo).toNat) = _ ∧ State.rxByteAt _ (4 + (hi ++ lo).toNat) = _ ↔ _
  rw [rxByteAt_receiving s _ _ _ hta, rxByteAt_receiving s _ _ _ htb]
  rfl

end Sys2Proof.Machine

namespace Sys2Proof
open Machine

/-- Settles O42: the message is stored and summed byte by byte, and with STRICT = 0 its end dispatches it. -/
theorem wholeMessageIsDispatched : Obligations.WholeMessageIsDispatched := by
  intro s hi lo ta tb tc payload hinv hs hlax hlen hpos hcap
  rw [← toNat_append_byte] at hlen
  have hbytes := messageBytes_length s.params.rxMarker hi lo payload ta tb tc
  refine ⟨_, (hinv.receiveBytes_message hs ta tb tc hlen hpos hcap).trans
    (congrArg Host.Outcome.next (messageEnd_dispatch (.inl hlax))), ?state, fun j hj => ?message, fun j hj => ?above⟩
  case state =>
    rw [← hbytes]
    rfl
  case message =>
    have hread := Memory.read_writeBytes s.rxBuf 0 _ (hbytes ▸ hj)
    rwa [Nat.zero_add] at hread
  case above => exact Memory.read_writeBytes_above s.rxBuf _ (by omega)

/-- Settles O43: with STRICT = 1 the end of the message compares the trailer. -/
theorem strictModeChecksTheTrailer : Obligations.StrictModeChecksTheTrailer := by
  intro s hi lo ta tb tc payload hinv hs hstrict hlen hpos hcap
  rw [← toNat_append_byte] at hlen
  have htrailer := trailerOk_message_iff s ta tb tc hlen s.params.rxMarker
  refine ⟨_, hinv.receiveBytes_message hs ta tb tc hlen hpos hcap, fun hok => ?_, fun hbad => ?_⟩
  · rw [messageEnd_dispatch (.inr (htrailer.2 hok))]
    exact ⟨rfl, rfl⟩
  · rw [messageEnd_fail (s := s.receiving ..) hstrict (mt htrailer.1 hbad)]
    exact ⟨rfl, rfl, rfl, rfl, rfl, rfl⟩

end Sys2Proof
end

section
/-! The pseudo-instruction `frame` (30_encoding.md rule R81), performed: its lines load TX_BUF, TX_LEN and FENC_TYPE,
and its command builds the frame. -/
namespace Sys2Proof.Machine

/-- `k` steps from `s`, as the host's interface runs them. -/
def State.run (s : State) (k : Nat) : Host.Outcome State Fault Refusal := Host.Core.run core k s

/-- A run takes its first step, then the rest. -/
theorem State.run_succ {s t : State} (k : Nat) (h : step s = .next t) : s.run (k + 1) = t.run k := by
  have hcore : core.step s = .next t := h
  simp only [State.run, Host.Core.run, hcore]
  rfl

/-- A byte line's data is its byte (rule R79). -/
theorem extractLsb'_zeroExtend_byte (b : Byte) : (b.zeroExtend 32).extractLsb' 0 8 = b := by
  apply BitVec.eq_of_toNat_eq
  have hb := b.isLt
  simp
  omega

/-- `s` after the payload's lines: its bytes stand in TX_BUF from `i` on, each line answered. -/
def State.payloadLoaded (s : State) (i : Nat) (payload : List Byte) (q : List HostAccess) (ts : List Turn) : State :=
  { s with hostq := q, turns := ts, txBuf := s.txBuf.writeBytes i payload,
           responses := s.responses ++ List.replicate payload.length .done }

/-- The first line of a payload, then the others. -/
theorem payloadLoaded_cons (s : State) (i : Nat) (b : Byte) (payload : List Byte) (q q' : List HostAccess)
    (ts ts' : List Turn) :
    (s.payloadLoaded i [b] q' ts').payloadLoaded (i + 1) payload q ts = s.payloadLoaded i (b :: payload) q ts := by
  simp only [State.payloadLoaded, Memory.writeBytes, List.length_cons, List.replicate_succ, List.append_assoc,
    List.length_nil, List.replicate_zero, List.singleton_append]

/-- The step of a line `WR8 TX_BUF[i], b` (rule R79). -/
theorem step_lineWr8Tx {s : State} {ts : List Turn} {q : List HostAccess} {i : Nat} {b : Byte} (hlegal : s.params.Legal)
    (hi : i < s.params.txBufBytes) (hts : s.turns = .host :: ts) (hq : s.hostq = lineWr8Tx i b :: q) :
    step s = .next (s.payloadLoaded i [b] q ts) := by
  obtain ⟨-, -, hstorage⟩ := hlegal
  have haddr : (BitVec.ofNat 32 (txBufBase + i)).toNat = txBufBase + i := by
    rw [BitVec.toNat_ofNat, txBufBase]
    omega
  rw [step_host hts hq, lineWr8Tx, hostAccess_tx { s with turns := ts, hostq := q } _ _ haddr hi,
    extractLsb'_zeroExtend_byte]
  rfl

/-- The step of a line `WR32 csr, v` to a CSR other than CMD (rule R79). -/
theorem step_lineWr32 {s : State} {ts : List Turn} {q : List HostAccess} {c : Csr} {v : Word} (hc : c ≠ .cmd)
    (hts : s.turns = .host :: ts) (hq : s.hostq = lineWr32 c v :: q) :
    step s = .next ((storeCsr c v { s with turns := ts, hostq := q }).respond .done) := by
  rw [step_host hts hq, lineWr32, hostAccess_csr _ _ _ (csrOffset_toNat c) hc]

/-- The payload's lines run, one step each. -/
theorem run_payloadLines {s : State} (k i : Nat) (payload : List Byte) (q : List HostAccess) (ts : List Turn)
    (hlegal : s.params.Legal) (hfits : i + payload.length ≤ s.params.txBufBytes)
    (hq : s.hostq = payloadLines i payload ++ q) (hts : s.turns = List.replicate payload.length .host ++ ts) :
    s.run (payload.length + k) = (s.payloadLoaded i payload q ts).run k := by
  induction payload generalizing s i with
  | nil =>
    have hdone : s.payloadLoaded i [] q ts = s := by
      simp only [List.length_nil, List.replicate_zero, payloadLines, List.nil_append] at hq hts
      rw [State.payloadLoaded, ← hq, ← hts, List.length_nil, List.replicate_zero, List.append_nil]
      rfl
    rw [hdone, List.length_nil, Nat.zero_add]
  | cons b payload ih =>
    have hfirst : s.hostq = lineWr8Tx i b :: (payloadLines (i + 1) payload ++ q) := hq
    have hturn : s.turns = .host :: (List.replicate payload.length .host ++ ts) := hts
    rw [List.length_cons] at hfits ⊢
    rw [Nat.succ_add, State.run_succ _ (step_lineWr8Tx hlegal (by omega) hturn hfirst),
      ih (s := s.payloadLoaded i [b] _ _) (i + 1) hlegal (by change _ ≤ s.params.txBufBytes; omega) rfl rfl,
      payloadLoaded_cons]

/-- `s` with a frame's operands loaded: the payload in TX_BUF, its length and the type code. -/
def State.frameLoaded (s : State) (t0 t1 : Byte) (payload : List Byte) : State :=
  { s with txBuf := s.txBuf.writeBytes 0 payload, txLen := BitVec.ofNat 32 payload.length, fencType := t0 ++ t1 }

/-- FENC_TYPE as `frame` writes it (rule R81). -/
theorem extractLsb'_fencTypeWord (t0 t1 : Byte) : ((0 : Half) ++ t0 ++ t1).extractLsb' 0 16 = t0 ++ t1 := by
  have hassoc : (0 : Half) ++ t0 ++ t1 = (0 : Half) ++ (t0 ++ t1) := by
    apply BitVec.eq_of_toNat_eq
    simp only [toNat_append]
    omega
  rw [hassoc, BitVec.extractLsb'_append_eq_right]

/-- The lines of `frame` run, one step each, and end as the build from the loaded operands does. -/
theorem run_pseudoFrame {s : State} {t0 t1 : Byte} {payload : List Byte} {q : List HostAccess} {ts : List Turn}
    (hlegal : s.params.Legal) (hfits : payload.length ≤ s.params.txBufBytes)
    (hq : s.hostq = pseudoFrame t0 t1 payload ++ q)
    (hts : s.turns = List.replicate (payload.length + 3) .host ++ ts) :
    ∃ r, ∀ t, exec .fencBuild { s.frameLoaded t0 t1 payload with hostq := q, turns := ts, responses := r } = .next t →
      s.run (payload.length + 3) = .next t := by
  have hturns : s.turns = List.replicate payload.length .host ++ (Turn.host :: Turn.host :: Turn.host :: ts) := by
    rw [hts, List.replicate_add, List.append_assoc]
    rfl
  have hlines : s.hostq = payloadLines 0 payload ++ (lineWr32 .txLen (BitVec.ofNat 32 payload.length) ::
      lineWr32 .fencType ((0 : Half) ++ t0 ++ t1) :: .wr 32 0 5 :: q) := by
    rw [hq, pseudoFrame, List.append_assoc, List.append_assoc]
    rfl
  refine ⟨s.responses ++ List.replicate payload.length BusResponse.done ++ [BusResponse.done] ++ [BusResponse.done] ++
    [BusResponse.done], fun t ht => ?_⟩
  rw [run_payloadLines 3 0 payload _ _ hlegal (by omega) hlines hturns,
    State.run_succ 2 (step_lineWr32 (c := .txLen) nofun rfl rfl),
    State.run_succ 1 (step_lineWr32 (c := .fencType) nofun rfl rfl), State.run_succ 0 (t := t)]
  · rfl
  · rw [step_command (w := 5) rfl rfl, commandStep_legal (i := .fencBuild) (by decide), ← ht]
    simp only [storeCsr, State.respond, State.payloadLoaded, State.frameLoaded, extractLsb'_fencTypeWord]

/-- TX_LEN holds a payload's length that fits the storage (00_scope.md rule R6). -/
theorem frameLoaded_txLen {s : State} (t0 t1 : Byte) {payload : List Byte} (hlegal : s.params.Legal)
    (hfits : payload.length ≤ s.params.txBufBytes) :
    (s.frameLoaded t0 t1 payload).txLen.toNat = payload.length := by
  obtain ⟨-, -, hstorage⟩ := hlegal
  rw [State.frameLoaded, BitVec.toNat_ofNat]
  omega

/-- The loaded bytes are the payload. -/
theorem frameLoaded_payload (s : State) (t0 t1 : Byte) (payload : List Byte) :
    (List.range payload.length).map (s.frameLoaded t0 t1 payload).txByteAt = payload := by
  apply List.ext_getElem
  · simp
  · intro j hj hj'
    have hread := Memory.read_writeBytes s.txBuf 0 payload hj'
    rw [Nat.zero_add, List.getElem?_eq_getElem hj'] at hread
    rw [List.getElem_map, List.getElem_range, State.txByteAt, State.frameLoaded, hread, Option.getD_some]

/-- What the checksum covers of the loaded frame: type code, length and payload (42_frame_encoder.md rule R110). -/
theorem fencBody_frameLoaded {s : State} (t0 t1 : Byte) {payload : List Byte} (hlegal : s.params.Legal)
    (hfits : payload.length ≤ s.params.txBufBytes) (hmode : s.ctrl.getLsbD 1 = false) :
    fencBody (s.frameLoaded t0 t1 payload) =
      [t0, t1, BitVec.ofNat 8 payload.length, BitVec.ofNat 8 (payload.length / 256)] ++ payload := by
  have hmode' : (s.frameLoaded t0 t1 payload).ctrl.getLsbD 1 = false := hmode
  have htype0 : (s.frameLoaded t0 t1 payload).fencType.extractLsb' 8 8 = t0 := BitVec.extractLsb'_append_eq_left
  have htype1 : (s.frameLoaded t0 t1 payload).fencType.extractLsb' 0 8 = t1 := BitVec.extractLsb'_append_eq_right
  rw [fencBody_eq, frameLoaded_txLen t0 t1 hlegal hfits, frameLoaded_payload, htype0, htype1, hmode']
  rfl

/-- The frame built from the loaded operands: marker bytes, type code, length, payload and checksum (rule R110). -/
theorem fencFrame_frameLoaded {s : State} (t0 t1 : Byte) {payload : List Byte} (hlegal : s.params.Legal)
    (hfits : payload.length ≤ s.params.txBufBytes) (hmode : s.ctrl.getLsbD 1 = false) :
    fencFrame (s.frameLoaded t0 t1 payload) =
      [s.params.sync1, s.params.sync2, t0, t1, BitVec.ofNat 8 payload.length, BitVec.ofNat 8 (payload.length / 256)] ++
        (payload ++ [(fencCk (s.frameLoaded t0 t1 payload)).1, (fencCk (s.frameLoaded t0 t1 payload)).2]) := by
  rw [fencFrame, fencBody_frameLoaded t0 t1 hlegal hfits hmode, List.append_assoc, List.append_assoc]
  rfl

/-- The build leaves the receive side (rule R113). -/
theorem fencBuilt_receiveSide (s : State) : receiveSide (fencBuilt s) = receiveSide s := rfl

end Sys2Proof.Machine

namespace Sys2Proof
open Machine

/-- Settles O24: the lines load the operands, and the build from them is FENC_BUILD's frame. -/
theorem frameExpansionBuildsTheFrame : Obligations.FrameExpansionBuildsTheFrame := by
  intro s t0 t1 payload q ts hlegal hfits hmode hq hts
  obtain ⟨r, hrun⟩ := run_pseudoFrame hlegal hfits hq hts
  have hlen := frameLoaded_txLen t0 t1 hlegal hfits
  have hbody := fencBody_frameLoaded t0 t1 hlegal hfits hmode
  refine ⟨_, hrun _ (exec_fencBuild_eq_fencBuilt (hlen.trans_le hfits)), rfl, rfl, rfl, ?txout, ?ck, ?side⟩
  case txout =>
    have hframe := congrArg (s.txout ++ ·) (fencFrame_frameLoaded t0 t1 hlegal hfits hmode)
    rw [List.append_assoc, List.append_assoc]
    exact hframe
  case ck => exact congrArg cksum hbody
  case side => exact fencBuilt_receiveSide _

end Sys2Proof
end
